-- ==== Sys2Proof/Word.lean ====
section
/-! DEFINITION. The widths of the block's words: 32-bit command and response words (R90), 16-bit registers (R21),
8-bit codewords (R9). -/

namespace Sys2Proof

/-- A command or response word (R90). Bit 0 is the least significant bit (R9). -/
abbrev Word := BitVec 32

/-- A register's contents (R21). -/
abbrev Half := BitVec 16

/-- A byte, also a GF(256) element in the polynomial basis and a codeword (R9, R140). -/
abbrev Byte := BitVec 8

end Sys2Proof
end

