-- ==== Sys2Proof/Syntax.lean ====
section
/-! DEFINITION. The commands of the block: one constructor for each of the 24 rows of R94 (spec/opcode_table.json). -/

namespace Sys2Proof

/-- A legal command. Each operand has exactly the width of its field in R91 and R92, so every term is a command the
decoder can answer; a word whose must-be-zero bits are set is no term of this type (WellFormed.lean). -/
inductive Instr where
  /-- R121 -/
  | nop
  /-- R122: register index `r`, immediate `imm` -/
  | setq (r : BitVec 4) (imm : Half)
  /-- R123: register index `r` -/
  | getq (r : BitVec 4)
  /-- R124 -/
  | clrerr
  /-- R125: version `n` -/
  | setver (n : Half)
  /-- R146: operands `a` (bits 7:0) and `b` (bits 15:8) -/
  | gfmul (a b : Byte)
  /-- R147: dividend `a` (bits 7:0), divisor `b` (bits 15:8) -/
  | gfdiv (a b : Byte)
  /-- R148: exponent `a` -/
  | gfexp (a : Byte)
  /-- R149: element `a` -/
  | gflog (a : Byte)
  /-- R163 -/
  | pmul
  /-- R164 -/
  | prem
  /-- R182: degree `n` -/
  | genp (n : Half)
  /-- R183: total codewords `n` -/
  | ecgen (n : Half)
  /-- R126: address and byte -/
  | cwwr (addr : Half) (data : Byte)
  /-- R127: address -/
  | cwrd (addr : Half)
  /-- R203 -/
  | rsvclr
  /-- R204: coordinate and bit -/
  | rsvwr (row col val : Byte)
  /-- R205: coordinate -/
  | rsvrd (row col : Byte)
  /-- R206 -/
  | seqgen
  /-- R207: index `n` -/
  | seqrd (n : Half)
  /-- R223 -/
  | gridclr
  /-- R224: coordinate and cell code -/
  | gridwr (row col val : Byte)
  /-- R225: coordinate -/
  | gridrd (row col : Byte)
  /-- R226: mask index `n` -/
  | mplace (n : Half)
  deriving DecidableEq, Repr

end Sys2Proof
end

