-- ==== Sys2Proof/WellFormed.lean ====
section
/-! DEFINITION. Well-formed command words: the opcode map of R94 as a list of rows, each a match and a mask. A term of
`Instr` cannot be ill-formed (its fields have the widths of R92), so the checks are on words: a listed opcode (R95),
must-be-zero bits of the format (R96), and the fields R94 says must be 0 for an opcode (R96). -/

namespace Sys2Proof

/-- One row of R94: a word `w` selects the row exactly when `w &&& mask = pattern` (the table's "match"). -/
structure OpRow where
  mnemonic : String
  pattern : Word
  mask : Word
  deriving DecidableEq, Repr

/-- The rows of the control commands and the codeword buffer (R94). -/
def controlRows : List OpRow :=
  [⟨"NOP", 0x00000000, 0xFFFFFFFF⟩, ⟨"SETQ", 0x01000000, 0xFFF00000⟩, ⟨"GETQ", 0x02000000, 0xFFF0FFFF⟩,
   ⟨"CLRERR", 0x03000000, 0xFFFFFFFF⟩, ⟨"SETVER", 0x04000000, 0xFFFF0000⟩,
   ⟨"CWWR", 0x30000000, 0xFF000000⟩, ⟨"CWRD", 0x31000000, 0xFF0000FF⟩]

/-- The rows of the Galois-field and polynomial units (R94). -/
def arithmeticRows : List OpRow :=
  [⟨"GFMUL", 0x10000000, 0xFFFF0000⟩, ⟨"GFDIV", 0x11000000, 0xFFFF0000⟩, ⟨"GFEXP", 0x12000000, 0xFFFFFF00⟩,
   ⟨"GFLOG", 0x13000000, 0xFFFFFF00⟩, ⟨"PMUL", 0x20000000, 0xFFFFFFFF⟩, ⟨"PREM", 0x21000000, 0xFFFFFFFF⟩,
   ⟨"GENP", 0x22000000, 0xFFFF0000⟩, ⟨"ECGEN", 0x23000000, 0xFFFF0000⟩]

/-- The rows of the sequencer and the mask pipeline (R94). -/
def gridRows : List OpRow :=
  [⟨"RSVCLR", 0x40000000, 0xFFFFFFFF⟩, ⟨"RSVWR", 0x41000000, 0xFF000000⟩, ⟨"RSVRD", 0x42000000, 0xFF0000FF⟩,
   ⟨"SEQGEN", 0x43000000, 0xFFFFFFFF⟩, ⟨"SEQRD", 0x44000000, 0xFFFF0000⟩,
   ⟨"GRIDCLR", 0x50000000, 0xFFFFFFFF⟩, ⟨"GRIDWR", 0x51000000, 0xFF000000⟩, ⟨"GRIDRD", 0x52000000, 0xFF0000FF⟩,
   ⟨"MPLACE", 0x53000000, 0xFFFF0000⟩]

/-- The opcode map of R94: 24 rows. -/
def opTable : List OpRow := controlRows ++ arithmeticRows ++ gridRows

/-- `w` selects the row `r` (R94). -/
def OpRow.selects (r : OpRow) (w : Word) : Bool := w &&& r.mask == r.pattern

/-- A word is a well-formed command when some row of R94 is selected by it (R95, R96). -/
def wordWellFormed (w : Word) : Bool := opTable.any (·.selects w)

/-- The mnemonic of a command, as R94 spells it. -/
def mnemonicOf : Instr → String
  | .nop => "NOP"
  | .setq _ _ => "SETQ"
  | .getq _ => "GETQ"
  | .clrerr => "CLRERR"
  | .setver _ => "SETVER"
  | .gfmul _ _ => "GFMUL"
  | .gfdiv _ _ => "GFDIV"
  | .gfexp _ => "GFEXP"
  | .gflog _ => "GFLOG"
  | .pmul => "PMUL"
  | .prem => "PREM"
  | .genp _ => "GENP"
  | .ecgen _ => "ECGEN"
  | .cwwr _ _ => "CWWR"
  | .cwrd _ => "CWRD"
  | .rsvclr => "RSVCLR"
  | .rsvwr _ _ _ => "RSVWR"
  | .rsvrd _ _ => "RSVRD"
  | .seqgen => "SEQGEN"
  | .seqrd _ => "SEQRD"
  | .gridclr => "GRIDCLR"
  | .gridwr _ _ _ => "GRIDWR"
  | .gridrd _ _ => "GRIDRD"
  | .mplace _ => "MPLACE"

end Sys2Proof
end

