-- ==== Sys2Proof/Decode.lean ====
section
/-! DEFINITION. From command words to commands and back: the fields of R91 and R92, the decoding procedure of R93
steps 2 and 3, and the encoder, both written from the opcode map of R94. -/

namespace Sys2Proof

/-- Why a word is no command. Both are refused with `IllegalCommand` (R95, R96). -/
inductive DecodeReject where
  /-- R93 step 2, R95: the opcode is not in R94 -/
  | reservedOpcode
  /-- R93 step 3, R96: a must-be-zero field is not zero -/
  | mustBeZero
  deriving DecidableEq, Repr

/-- `op = cmd[31:24]` (R90). -/
def fieldOp (w : Word) : Byte := w.extractLsb' 24 8
/-- `r = cmd[19:16]` (R92). -/
def fieldR (w : Word) : BitVec 4 := w.extractLsb' 16 4
/-- `imm = n = cmd[15:0]` (R92). -/
def fieldN (w : Word) : Half := w.extractLsb' 0 16
/-- `addr = cmd[23:8]` (R92). -/
def fieldAddr (w : Word) : Half := w.extractLsb' 8 16
/-- `row = cmd[23:16]` (R92), must be zero in formats X and S. -/
def fieldRow (w : Word) : Byte := w.extractLsb' 16 8
/-- `b = col = cmd[15:8]` (R92). -/
def fieldB (w : Word) : Byte := w.extractLsb' 8 8
/-- `a = data = val = cmd[7:0]` (R92). -/
def fieldA (w : Word) : Byte := w.extractLsb' 0 8
/-- Bits 23:20, must be zero in format Q (R91). -/
def fieldQHigh (w : Word) : BitVec 4 := w.extractLsb' 20 4
/-- Bits 23:0, must be zero in format Z (R91). -/
def fieldZ (w : Word) : BitVec 24 := w.extractLsb' 0 24

/-- R93 step 3: the command is legal when its must-be-zero fields are zero. -/
def requireZero (isZero : Bool) (i : Instr) : Except DecodeReject Instr :=
  if isZero then .ok i else .error .mustBeZero

/-- R93 steps 2 and 3: the command of a word, or why there is none. -/
def decode (w : Word) : Except DecodeReject Instr :=
  match (fieldOp w).toNat with
  | 0x00 => requireZero (fieldZ w == 0) .nop
  | 0x01 => requireZero (fieldQHigh w == 0) (.setq (fieldR w) (fieldN w))
  | 0x02 => requireZero (fieldQHigh w == 0 && fieldN w == 0) (.getq (fieldR w))
  | 0x03 => requireZero (fieldZ w == 0) .clrerr
  | 0x04 => requireZero (fieldRow w == 0) (.setver (fieldN w))
  | 0x10 => requireZero (fieldRow w == 0) (.gfmul (fieldA w) (fieldB w))
  | 0x11 => requireZero (fieldRow w == 0) (.gfdiv (fieldA w) (fieldB w))
  | 0x12 => requireZero (fieldRow w == 0 && fieldB w == 0) (.gfexp (fieldA w))
  | 0x13 => requireZero (fieldRow w == 0 && fieldB w == 0) (.gflog (fieldA w))
  | 0x20 => requireZero (fieldZ w == 0) .pmul
  | 0x21 => requireZero (fieldZ w == 0) .prem
  | 0x22 => requireZero (fieldRow w == 0) (.genp (fieldN w))
  | 0x23 => requireZero (fieldRow w == 0) (.ecgen (fieldN w))
  | 0x30 => .ok (.cwwr (fieldAddr w) (fieldA w))
  | 0x31 => requireZero (fieldA w == 0) (.cwrd (fieldAddr w))
  | 0x40 => requireZero (fieldZ w == 0) .rsvclr
  | 0x41 => .ok (.rsvwr (fieldRow w) (fieldB w) (fieldA w))
  | 0x42 => requireZero (fieldA w == 0) (.rsvrd (fieldRow w) (fieldB w))
  | 0x43 => requireZero (fieldZ w == 0) .seqgen
  | 0x44 => requireZero (fieldRow w == 0) (.seqrd (fieldN w))
  | 0x50 => requireZero (fieldZ w == 0) .gridclr
  | 0x51 => .ok (.gridwr (fieldRow w) (fieldB w) (fieldA w))
  | 0x52 => requireZero (fieldA w == 0) (.gridrd (fieldRow w) (fieldB w))
  | 0x53 => requireZero (fieldRow w == 0) (.mplace (fieldN w))
  | _ => .error .reservedOpcode

/-- A field's bits at their place in the word: its bit 0 is bit `pos` (R91). -/
def fieldAt {n : Nat} (pos : Nat) (x : BitVec n) : Word := x.setWidth 32 <<< pos

/-- Format Z (R91). -/
def encodeZ (op : Byte) : Word := fieldAt 24 op
/-- Format Q (R91). -/
def encodeQ (op : Byte) (r : BitVec 4) (imm : Half) : Word := fieldAt 24 op ||| fieldAt 16 r ||| fieldAt 0 imm
/-- Format X (R91). -/
def encodeX (op : Byte) (n : Half) : Word := fieldAt 24 op ||| fieldAt 0 n
/-- Format S (R91): `b` in bits 15:8, `a` in bits 7:0. -/
def encodeS (op : Byte) (b a : Byte) : Word := fieldAt 24 op ||| fieldAt 8 b ||| fieldAt 0 a
/-- Format M (R91). -/
def encodeM (op : Byte) (addr : Half) (data : Byte) : Word := fieldAt 24 op ||| fieldAt 8 addr ||| fieldAt 0 data
/-- Format C (R91). -/
def encodeC (op : Byte) (row col val : Byte) : Word :=
  fieldAt 24 op ||| fieldAt 16 row ||| fieldAt 8 col ||| fieldAt 0 val

/-- The command word of a command (R91, R94). -/
def encode : Instr → Word
  | .nop => encodeZ 0x00
  | .setq r imm => encodeQ 0x01 r imm
  | .getq r => encodeQ 0x02 r 0
  | .clrerr => encodeZ 0x03
  | .setver n => encodeX 0x04 n
  | .gfmul a b => encodeS 0x10 b a
  | .gfdiv a b => encodeS 0x11 b a
  | .gfexp a => encodeS 0x12 0 a
  | .gflog a => encodeS 0x13 0 a
  | .pmul => encodeZ 0x20
  | .prem => encodeZ 0x21
  | .genp n => encodeX 0x22 n
  | .ecgen n => encodeX 0x23 n
  | .cwwr addr data => encodeM 0x30 addr data
  | .cwrd addr => encodeM 0x31 addr 0
  | .rsvclr => encodeZ 0x40
  | .rsvwr row col val => encodeC 0x41 row col val
  | .rsvrd row col => encodeC 0x42 row col 0
  | .seqgen => encodeZ 0x43
  | .seqrd n => encodeX 0x44 n
  | .gridclr => encodeZ 0x50
  | .gridwr row col val => encodeC 0x51 row col val
  | .gridrd row col => encodeC 0x52 row col 0
  | .mplace n => encodeX 0x53 n

/-- The command word in the low `nbits` bits of `w`, the bits above being 0. A command is one number, its bit 0 the
least significant bit (R9, R64), so there is no byte order to lay out (log 18). -/
def tableWord (nbits w : Nat) : Word := BitVec.ofNat 32 (w % 2 ^ nbits)

/-- What the decoder reads from a word numbered as spec/opcode_table.json numbers it (bit 0 least significant). -/
def decodeTableWord (nbits w : Nat) : Option Instr := (decode (tableWord nbits w)).toOption

end Sys2Proof
end

