-- ==== Sys2Proof/Config.lean ====
section
/-! DEFINITION. The implementation parameters of R6 that the block itself needs, and the values the spec leaves free. -/

namespace Sys2Proof

/-- `CW_BYTES`: bytes of codeword memory (R6, R31). -/
def Config.cwBytes : Nat := 4096

/-- `VMAX`: the largest version SETVER accepts (R6, R125). -/
def Config.vMax : Nat := 40

/-- `TIMING_COL`: the column the sequencer skips entirely (R6, R200). -/
def Config.timingCol : Nat := 6

/-- `GEN_MAX_DEGREE`: the largest degree GENP and ECGEN accept (R6, R180). -/
def Config.genMaxDegree : Nat := 255

/-- `GF_POLY`: the primitive polynomial x^8+x^4+x^3+x^2+1 (R6, R140). -/
def Config.gfPoly : Nat := 0x11D

/-- What an unwritten byte of `CW` holds: a free value for each reset (first argument, the count of resets) and each
address, stable until the byte is written (R33, U5; log 5). It has no body, so nothing can be proved of it. -/
opaque Config.freeCwByte : Nat → Nat → Byte

/-- The entry `EXP[255]` of the 256-entry table, which the spec leaves unspecified and no rule reads (R141, U3; log 7). -/
opaque Config.expEntry255 : Byte

/-- The entry `LOG[0]` of the 256-entry table, which the spec leaves unspecified and no rule reads (R142, U4; log 7). -/
opaque Config.logEntry0 : Byte

end Sys2Proof
end

