-- ==== Sys2Proof/Machine/State.lean ====
section
/-! DEFINITION. The state of the block (R20), its two ports and its reset input (R7, R320), the status codes (R281), and
the state right after reset (R40). -/

namespace Sys2Proof.Machine

/-- The status codes of R281. -/
inductive StatusCode where
  /-- 0x00: the command was performed -/
  | ok
  /-- 0x01: the fatal fault of GFDIV and PREM (R284) -/
  | divideByZero
  /-- 0x02: MPLACE, mask index above 7 -/
  | invalidMaskIndex
  /-- 0x03: reserved for host software, never given by the block -/
  | capacityExceeded
  /-- 0x04: reserved for host software, never given by the block -/
  | invalidCharacter
  /-- 0x05: reserved opcode or a non-zero must-be-zero field -/
  | illegalCommand
  /-- 0x06: PMUL, PREM, GENP, ECGEN -/
  | badLength
  /-- 0x07: a `CW` address or range not inside 0 to 4095 -/
  | addressRange
  /-- 0x08: SETVER out of range; RSVCLR, SEQGEN, GRIDCLR on an unconfigured block -/
  | badVersion
  /-- 0x09: a coordinate not below SIZE -/
  | badCoordinate
  /-- 0x0A: SEQRD, MPLACE without a valid sequence -/
  | sequenceNotReady
  /-- 0x0B: MPLACE with fewer bits than positions -/
  | bitUnderrun
  /-- 0x0C: GFEXP 255, GFLOG 0 -/
  | tableIndex
  /-- 0x0D: register index or sequence index -/
  | badIndex
  /-- 0x0E: RSVWR, GRIDWR value -/
  | badValue
  /-- 0x0F: any command word in the FAULTED state -/
  | halted
  deriving DecidableEq, Repr

/-- A coordinate of the grid, row then column, origin top-left (R61). -/
structure Coord where
  row : Nat
  col : Nat
  deriving DecidableEq, Repr

/-- The three values of a grid cell (R35). -/
inductive ModuleState where
  | unset
  | light
  | dark
  deriving DecidableEq, Repr

/-- What the host presents to the block (R7, R320; log 1, log 3). -/
inductive HostInput where
  /-- a command word on the command port -/
  | command (w : Word)
  /-- the reset input becomes asserted -/
  | resetAsserted
  /-- the reset input is released -/
  | resetReleased
  deriving DecidableEq, Repr

/-- `CW` as the bytes written since reset: addresses strictly rising, below 4096 (R31; log 5). -/
abbrev Memory := List Host.Cell

/-- `RSV` as the cells that are 1, in rising row-then-column order; an unlisted cell is 0 (R34; log 12). -/
abbrev ReservedMap := List (Coord × Bool)

/-- `GRID` as the cells that are not `unset`, in rising row-then-column order; an unlisted cell is `unset`
(R35; log 12). -/
abbrev Grid := List (Coord × ModuleState)

/-- The whole state of the block (R20), with what stands at its ports. -/
structure State where
  /-- source A address in `CW` (R21) -/
  sa : Half
  /-- source A length (R21) -/
  la : Half
  /-- source B address in `CW` (R21) -/
  sb : Half
  /-- source B length (R21) -/
  lb : Half
  /-- destination address in `CW` (R21) -/
  da : Half
  /-- length of the last polynomial result (R23) -/
  lr : Half
  /-- last scalar result (R24) -/
  res : Half
  /-- symbol version, 0 when not configured (R25) -/
  ver : Half
  /-- grid side length (R25) -/
  size : Half
  /-- number of entries of the valid sequence (R26) -/
  seqlen : Half
  /-- FAULTED, SEQ_VALID and LASTERR (R28) -/
  status : Half
  /-- the codeword memory (R31) -/
  cw : Memory
  /-- the reserved map (R34) -/
  rsv : ReservedMap
  /-- the module grid (R35) -/
  grid : Grid
  /-- the placement sequence (R37) -/
  seq : List Coord
  /-- what the host presents next, first first (R7, R27; log 1) -/
  inputs : List HostInput
  /-- the response words given, oldest first (R99; log 2) -/
  responses : List Word
  /-- the reset input is asserted (R320; log 3) -/
  inReset : Bool
  /-- how many resets were released: the model's own field, it selects the unwritten bytes of `CW` (R33; log 5) -/
  epoch : Nat
  deriving DecidableEq, Repr

/-- The reasons a step could stop with a fault. There is none: every abnormal outcome of the block is a response word
and a next state (R280), also the fatal division by zero (R284; log 10). -/
inductive Fault where
  deriving DecidableEq, Repr

/-- The reasons the model could refuse an instruction. -/
inductive Refusal where
  /-- A dispatch arm without a meaning, with the table's mnemonic; no arm of this model is one. Safe: the machine stops
  where the hardware goes on. -/
  | notModelled (mnemonic : String)
  deriving DecidableEq, Repr

/-- The outcome of a step or of a command. -/
abbrev Result := Host.Outcome State Fault Refusal

/-- The state right after reset (R40, R320): registers and `STATUS` zero, nothing written in `CW`, no cells, no
sequence, nothing at the ports. -/
def State.reset : State where
  sa := 0
  la := 0
  sb := 0
  lb := 0
  da := 0
  lr := 0
  res := 0
  ver := 0
  size := 0
  seqlen := 0
  status := 0
  cw := []
  rsv := []
  grid := []
  seq := []
  inputs := []
  responses := []
  inReset := false
  epoch := 0

/-! ### Single-field updates -/

/-- Write `SA`. -/
def State.withSa (s : State) (v : Half) : State := { s with sa := v }
/-- Write `LA`. -/
def State.withLa (s : State) (v : Half) : State := { s with la := v }
/-- Write `SB`. -/
def State.withSb (s : State) (v : Half) : State := { s with sb := v }
/-- Write `LB`. -/
def State.withLb (s : State) (v : Half) : State := { s with lb := v }
/-- Write `DA`. -/
def State.withDa (s : State) (v : Half) : State := { s with da := v }
/-- Write `LR`. -/
def State.withLr (s : State) (v : Half) : State := { s with lr := v }
/-- Write `RES`. -/
def State.withRes (s : State) (v : Half) : State := { s with res := v }
/-- Write `VER` and `SIZE` together (R25). -/
def State.withVersion (s : State) (v side : Half) : State := { s with ver := v, size := side }
/-- Write `SEQLEN`. -/
def State.withSeqlen (s : State) (v : Half) : State := { s with seqlen := v }
/-- Write `STATUS`. -/
def State.withStatus (s : State) (v : Half) : State := { s with status := v }
/-- Replace `CW`. -/
def State.withCw (s : State) (m : Memory) : State := { s with cw := m }
/-- Replace `RSV`. -/
def State.withRsv (s : State) (m : ReservedMap) : State := { s with rsv := m }
/-- Replace `GRID`. -/
def State.withGrid (s : State) (g : Grid) : State := { s with grid := g }
/-- Replace `SEQ`. -/
def State.withSeq (s : State) (q : List Coord) : State := { s with seq := q }
/-- What the host presents next. -/
def State.withInputs (s : State) (l : List HostInput) : State := { s with inputs := l }
/-- The level of the reset input. -/
def State.withInReset (s : State) (b : Bool) : State := { s with inReset := b }
/-- Give one response word (R99). -/
def State.emit (s : State) (w : Word) : State := { s with responses := s.responses ++ [w] }

end Sys2Proof.Machine
end

