-- ==== Sys2Proof/Machine/Flags.lean ====
section
/-! DEFINITION. `STATUS` and its fields (R28, R29): `FAULTED`, `SEQ_VALID`, `LASTERR`. The block has no arithmetic
condition codes (R29). -/

namespace Sys2Proof.Machine

/-- `STATUS.FAULTED`, bit 0 (R28). -/
def State.faulted (s : State) : Bool := s.status.getLsbD 0

/-- `STATUS.SEQ_VALID`, bit 1 (R28). -/
def State.seqValid (s : State) : Bool := s.status.getLsbD 1

/-- `STATUS.LASTERR`, bits 15:8 (R28). -/
def State.lastErr (s : State) : Byte := s.status.extractLsb' 8 8

/-- The reserved bits 7:2 of `STATUS` (R28). -/
def State.statusReserved (s : State) : BitVec 6 := s.status.extractLsb' 2 6

/-- `STATUS` with a new `LASTERR`, bits 15:8 (R28). -/
def lastErrWrite (st : Half) (code : Byte) : Half := (code.setWidth 16 <<< 8) ||| (st &&& 0x00FF)

/-- `STATUS` with `FAULTED`, bit 0, set (R28, R284). -/
def faultedSet (st : Half) : Half := st ||| 0x0001

/-- `STATUS.SEQ_VALID <- 1` (R206). -/
def State.validateSeq (s : State) : State := s.withStatus (s.status ||| 0x0002)

/-- `STATUS.SEQ_VALID <- 0` and `SEQLEN <- 0`: the cached sequence is no longer current (R26, R38, R76). The entries of
`SEQ` stay and cannot be read (log 9). -/
def State.invalidateSeq (s : State) : State := (s.withStatus (s.status &&& 0xFFFD)).withSeqlen 0

/-- `STATUS.LASTERR <- 0x00` (R124, R288). -/
def State.clearLastErr (s : State) : State := s.withStatus (lastErrWrite s.status 0x00)

end Sys2Proof.Machine
end

