-- ==== Sys2Proof/Machine/Ops.lean ====
section
/-! DEFINITION. The operations every command is written from: canonical cell lists, the four memories, the response
word, refusing a command, the fatal fault, the way out of it, and the check for the FAULTED state. -/

namespace Sys2Proof.Machine

/-! ### Cell lists: sparse data in one canonical form -/

/-- The value listed at a key. -/
def cellsFind {κ α : Type} [DecidableEq κ] (k : κ) : List (κ × α) → Option α
  | [] => none
  | (j, v) :: rest => if j = k then some v else cellsFind k rest

/-- List a value at a key, in rising order of keys. -/
def cellsPut {κ α : Type} [DecidableEq κ] (lt : κ → κ → Bool) (k : κ) (v : α) : List (κ × α) → List (κ × α)
  | [] => [(k, v)]
  | (j, u) :: rest =>
    if j = k then (k, v) :: rest
    else if lt k j then (k, v) :: (j, u) :: rest
    else (j, u) :: cellsPut lt k v rest

/-- Drop what is listed at a key. -/
def cellsDrop {κ α : Type} [DecidableEq κ] (k : κ) : List (κ × α) → List (κ × α)
  | [] => []
  | (j, v) :: rest => if j = k then cellsDrop k rest else (j, v) :: cellsDrop k rest

/-- Write a value where an unlisted key reads as `dflt`: writing `dflt` drops the key. -/
def cellsWrite {κ α : Type} [DecidableEq κ] [DecidableEq α] (lt : κ → κ → Bool) (dflt : α) (k : κ) (v : α)
    (l : List (κ × α)) : List (κ × α) :=
  if v = dflt then cellsDrop k l else cellsPut lt k v l

/-- Keys strictly rising. -/
def cellsOrdered {κ α : Type} (lt : κ → κ → Bool) : List (κ × α) → Bool
  | [] => true
  | (k, _) :: rest => rest.all (fun e => lt k e.1) && cellsOrdered lt rest

/-- Order of addresses. -/
def addrLt (a b : Nat) : Bool := decide (a < b)

/-- Order of coordinates: by row, then by column. -/
def coordLt (c d : Coord) : Bool := decide (c.row < d.row) || (decide (c.row = d.row) && decide (c.col < d.col))

/-! ### `CW` (R31 to R33) -/

/-- The canonical form of `CW`: addresses strictly rising and below 4096. An unlisted address has no written byte, so
every listed byte differs from what an unlisted address holds. -/
def Memory.wf (m : Memory) : Bool := cellsOrdered addrLt m && m.all (fun e => decide (e.1 < Config.cwBytes))

/-- `CW[a]`: the byte written last, or the free value of a byte never written since reset (R33, R72). -/
def cwByte (s : State) (a : Nat) : Byte := (cellsFind a s.cw).getD (Config.freeCwByte s.epoch a)

/-- `MemRead(CW, a, n)` (R11). -/
def cwRead (s : State) (a n : Nat) : List Byte := (List.range n).map fun i => cwByte s (a + i)

/-- The memory after `MemWrite(CW, a, n, bytes)` (R11). -/
def memWrite (m : Memory) (a : Nat) : List Byte → Memory
  | [] => m
  | b :: rest => memWrite (cellsPut addrLt a b m) (a + 1) rest

/-- A `CW` range that is not legal: `a + n > 4096`, the sum taken without wrap-around (R68). -/
def rangeIllegal (a n : Nat) : Bool := decide (a + n > Config.cwBytes)

/-! ### `RSV` and `GRID` (R34 to R36) -/

/-- `RSV[row][col]` (R34). -/
def rsvBit (m : ReservedMap) (c : Coord) : Bool := (cellsFind c m).getD false

/-- The map after `RSV[row][col] <- b` (R34). -/
def rsvWrite (m : ReservedMap) (c : Coord) (b : Bool) : ReservedMap := cellsWrite coordLt false c b m

/-- `GRID[row][col]` (R35). -/
def gridCell (g : Grid) (c : Coord) : ModuleState := (cellsFind c g).getD .unset

/-- The grid after `GRID[row][col] <- v` (R35). -/
def gridWrite (g : Grid) (c : Coord) (v : ModuleState) : Grid := cellsWrite coordLt .unset c v g

/-- Whether a coordinate is outside the grid (R60, R68). -/
def coordOutside (s : State) (c : Coord) : Bool := decide (c.row ≥ s.size.toNat) || decide (c.col ≥ s.size.toNat)

/-- The canonical form of `RSV`: in order, below the side length, only ones listed. -/
def rsvWf (side : Nat) (m : ReservedMap) : Bool :=
  cellsOrdered coordLt m && m.all (fun e => decide (e.1.row < side) && decide (e.1.col < side) && e.2)

/-- The canonical form of `GRID`: in order, below the side length, no `unset` listed. -/
def gridWf (side : Nat) (g : Grid) : Bool :=
  cellsOrdered coordLt g &&
    g.all (fun e => decide (e.1.row < side) && decide (e.1.col < side) && decide (e.2 ≠ .unset))

/-- The side length of a configured block: `4*v + 17` (R6, R25). -/
def sideOf (v : Half) : Half := 4 * v + 17

/-! ### Status codes and the response word -/

/-- The number of a status code (R281). -/
def statusByte : StatusCode → Byte
  | .ok => 0x00
  | .divideByZero => 0x01
  | .invalidMaskIndex => 0x02
  | .capacityExceeded => 0x03
  | .invalidCharacter => 0x04
  | .illegalCommand => 0x05
  | .badLength => 0x06
  | .addressRange => 0x07
  | .badVersion => 0x08
  | .badCoordinate => 0x09
  | .sequenceNotReady => 0x0A
  | .bitUnderrun => 0x0B
  | .tableIndex => 0x0C
  | .badIndex => 0x0D
  | .badValue => 0x0E
  | .halted => 0x0F

/-- The response word: status in bits 31:24, 0 in 23:16, value in 15:0 (R99). -/
def responseWord (c : StatusCode) (v : Half) : Word := ((statusByte c).setWidth 32 <<< 24) ||| v.setWidth 32

/-! ### The end of a command -/

/-- `respond(v)`: the command succeeded in the state `s` (R11, R99). -/
def respond (v : Half) (s : State) : Result := .next (s.emit (responseWord .ok v))

/-- The state after recording a refusal's code: `LASTERR` takes it, but `Halted` is not recorded (R283, R285, C8). -/
def State.record (s : State) (c : StatusCode) : State :=
  match c with
  | .halted => s
  | _ => s.withStatus (lastErrWrite s.status (statusByte c))

/-- `raise c`: the command is refused; only `LASTERR` changes, and the response is the code with value 0
(R11, R283, R287). -/
def raise (c : StatusCode) (s : State) : Result := .next ((s.record c).emit (responseWord c 0))

/-- `fatal DivideByZero`: `FAULTED` is set, `LASTERR` is 0x01, nothing else changes (R11, R284). -/
def fatalDivideByZero (s : State) : Result :=
  .next ((s.withStatus (faultedSet (lastErrWrite s.status (statusByte .divideByZero)))).emit
    (responseWord .divideByZero 0))

/-- What every command does first: in the FAULTED state it is refused with `Halted` (R29, R93 step 1, R285). -/
def command (s : State) (body : Result) : Result := if s.faulted then raise .halted s else body

/-- The way out of the FAULTED state and the only one: the reset input is released and the state is that of R40, with a
new free content of `CW` (R285, R288, R320). What stands at the ports is the host's and stays. -/
def State.afterReset (s : State) : State :=
  { State.reset with inputs := s.inputs, responses := s.responses, epoch := s.epoch + 1 }

end Sys2Proof.Machine
end

