-- ==== Sys2Proof/Machine/Operands.lean ====
section
/-! DEFINITION. Operands: the register file (R21), the source and destination ranges in `CW` named by `SA LA SB LB DA`
(R22, R92), coordinates (R92), and cell codes (R36). -/

namespace Sys2Proof.Machine

/-- `x[r]` as GETQ reads it, nothing for a reserved index (R21, R123). -/
def readRegister (s : State) (r : BitVec 4) : Option Half :=
  match r.toNat with
  | 0 => some s.sa
  | 1 => some s.la
  | 2 => some s.sb
  | 3 => some s.lb
  | 4 => some s.da
  | 8 => some s.lr
  | 9 => some s.res
  | 10 => some s.ver
  | 11 => some s.size
  | 12 => some s.seqlen
  | 13 => some s.status
  | _ => none

/-- `x[r] <- v` as SETQ writes it, nothing for a reserved or read-only index (R21, R122). -/
def writeRegister (s : State) (r : BitVec 4) (v : Half) : Option State :=
  match r.toNat with
  | 0 => some (s.withSa v)
  | 1 => some (s.withLa v)
  | 2 => some (s.withSb v)
  | 3 => some (s.withLb v)
  | 4 => some (s.withDa v)
  | _ => none

/-- The source `CW[SA .. SA+LA-1]` (R22). -/
def sourceA (s : State) : List Byte := cwRead s s.sa.toNat s.la.toNat

/-- The source `CW[SB .. SB+LB-1]` (R22). -/
def sourceB (s : State) : List Byte := cwRead s s.sb.toNat s.lb.toNat

/-- The range of source A is not inside `CW` (R68). -/
def sourceAIllegal (s : State) : Bool := rangeIllegal s.sa.toNat s.la.toNat

/-- The range of source B is not inside `CW` (R68). -/
def sourceBIllegal (s : State) : Bool := rangeIllegal s.sb.toNat s.lb.toNat

/-- The destination range of `n` bytes at `DA` is not inside `CW` (R68). -/
def destIllegal (s : State) (n : Nat) : Bool := rangeIllegal s.da.toNat n

/-- The destination write `CW[DA ..] <- bytes` (R22, R32). -/
def State.writeDest (s : State) (bytes : List Byte) : State := s.withCw (memWrite s.cw s.da.toNat bytes)

/-- The coordinate of two 8-bit fields (R60, R92). -/
def coordOf (row col : Byte) : Coord := ⟨row.toNat, col.toNat⟩

/-- The cell value of a code, nothing for code 1 and codes above 3 (R36, R224). -/
def cellOfCode (v : Byte) : Option ModuleState :=
  match v.toNat with
  | 0 => some .unset
  | 2 => some .light
  | 3 => some .dark
  | _ => none

/-- The code of a cell value (R36, R225). -/
def codeOfCell : ModuleState → Half
  | .unset => 0
  | .light => 2
  | .dark => 3

/-- The end of a scalar command: `RES` takes the result, which is also the response (R24, R100). -/
def respondScalar (v : Byte) (s : State) : Result := respond (v.setWidth 16) (s.withRes (v.setWidth 16))

/-- The end of a polynomial command: the bytes go to `DA`, `LR` takes their number, which is also the response
(R23, R100). -/
def respondPoly (bytes : List Byte) (s : State) : Result :=
  respond (BitVec.ofNat 16 bytes.length) ((s.writeDest bytes).withLr (BitVec.ofNat 16 bytes.length))

end Sys2Proof.Machine
end

