-- ==== Sys2Proof/Machine/Control.lean ====
section
/-! DEFINITION. The control and buffer commands NOP, SETQ, GETQ, CLRERR, SETVER, CWWR, CWRD (R121 to R127), and the
refusal of a word that is no command (R95, R96). -/

namespace Sys2Proof.Machine

/-- NOP (R121). -/
def execNop (s : State) : Result := command s (respond 0 s)

/-- SETQ (R122). -/
def execSetq (r : BitVec 4) (imm : Half) (s : State) : Result :=
  command s
    (match writeRegister s r imm with
     | some t => respond 0 t
     | none => raise .badIndex s)

/-- GETQ (R123). -/
def execGetq (r : BitVec 4) (s : State) : Result :=
  command s
    (match readRegister s r with
     | some v => respond v s
     | none => raise .badIndex s)

/-- CLRERR (R124). -/
def execClrerr (s : State) : Result := command s (respond 0 s.clearLastErr)

/-- SETVER (R125): the new side length, `RSV` all 0, `GRID` all `unset`, no valid sequence. -/
def execSetver (n : Half) (s : State) : Result :=
  command s
    (if n = 0 ∨ n.toNat > Config.vMax then raise .badVersion s
     else respond (sideOf n) ((((s.withVersion n (sideOf n)).withRsv []).withGrid []).invalidateSeq))

/-- CWWR (R126). -/
def execCwwr (addr : Half) (data : Byte) (s : State) : Result :=
  command s
    (if addr.toNat ≥ Config.cwBytes then raise .addressRange s
     else respond 0 (s.withCw (memWrite s.cw addr.toNat [data])))

/-- CWRD (R127). -/
def execCwrd (addr : Half) (s : State) : Result :=
  command s
    (if addr.toNat ≥ Config.cwBytes then raise .addressRange s
     else respond ((cwByte s addr.toNat).setWidth 16) s)

/-- A word that is no command (R95, R96): `IllegalCommand`, after the check for the FAULTED state (R93, R282). -/
def illegalCommand (s : State) : Result := command s (raise .illegalCommand s)

end Sys2Proof.Machine
end

