-- ==== Sys2Proof/Machine/Mask.lean ====
section
/-! DEFINITION. The mask XOR pipeline MXP: the mask predicates (R220, R228), the bits of a codeword sequence (R221),
placing (R222), and the commands GRIDCLR, GRIDWR, GRIDRD, MPLACE (R223 to R226). -/

namespace Sys2Proof.Machine

/-- `MASKFN(m, row, col)`, the default table of R228 for `m` from 0 to 7 (log 6). MPLACE refuses a greater `m` before it
asks for a mask (R226). -/
def maskFn (m row col : Nat) : Bool :=
  match m with
  | 0 => (row + col) % 2 == 0
  | 1 => row % 2 == 0
  | 2 => col % 3 == 0
  | 3 => (row + col) % 3 == 0
  | 4 => (row / 2 + col / 3) % 2 == 0
  | 5 => (row * col) % 2 + (row * col) % 3 == 0
  | 6 => ((row * col) % 2 + (row * col) % 3) % 2 == 0
  | _ => ((row + col) % 2 + (row * col) % 3) % 2 == 0

/-- `seq_bit(s, k)`: the most significant bit of each codeword comes first (R63, R221). -/
def seqBit (bytes : List Byte) (k : Nat) : Bool := (bytes.getD (k / 8) 0).getLsbD (7 - k % 8)

/-- The cell of a bit under a mask: 1 is `dark` (R222). -/
def maskedCell (bit mask : Bool) : ModuleState := if bit ^^ mask then .dark else .light

/-- `place(grid, seq, s, m)` from position `k` on (R222), for any mask predicate. -/
def placeFrom (mask : Nat → Nat → Bool) (bytes : List Byte) : Nat → List Coord → Grid → Grid
  | _, [], g => g
  | k, c :: rest, g =>
    placeFrom mask bytes (k + 1) rest (gridWrite g c (maskedCell (seqBit bytes k) (mask c.row c.col)))

/-- `place(grid, seq, s, m)` (R222), for any mask predicate (R220). -/
def place (mask : Nat → Nat → Bool) (g : Grid) (seq : List Coord) (bytes : List Byte) : Grid :=
  placeFrom mask bytes 0 seq g

/-! ### The commands -/

/-- GRIDCLR (R223): every cell `unset`; `SEQ_VALID` is kept. -/
def execGridclr (s : State) : Result :=
  command s (if s.ver = 0 then raise .badVersion s else respond 0 (s.withGrid []))

/-- GRIDWR (R224). -/
def execGridwr (row col val : Byte) (s : State) : Result :=
  command s
    (if coordOutside s (coordOf row col) then raise .badCoordinate s
     else
      match cellOfCode val with
      | some v => respond 0 (s.withGrid (gridWrite s.grid (coordOf row col) v))
      | none => raise .badValue s)

/-- GRIDRD (R225). -/
def execGridrd (row col : Byte) (s : State) : Result :=
  command s
    (if coordOutside s (coordOf row col) then raise .badCoordinate s
     else respond (codeOfCell (gridCell s.grid (coordOf row col))) s)

/-- `MemRead(SEQ, 0, SEQLEN)` (R11, R226). -/
def validSequence (s : State) : List Coord := s.seq.take s.seqlen.toNat

/-- MPLACE (R226). -/
def execMplace (n : Half) (s : State) : Result :=
  command s
    (if n > 7 then raise .invalidMaskIndex s
     else if !s.seqValid then raise .sequenceNotReady s
     else if sourceAIllegal s then raise .addressRange s
     else if 8 * s.la.toNat < s.seqlen.toNat then raise .bitUnderrun s
     else respond s.seqlen (s.withGrid (place (maskFn n.toNat) s.grid (validSequence s) (sourceA s))))

end Sys2Proof.Machine
end

