-- ==== Sys2Proof/Machine/Placement.lean ====
section
/-! DEFINITION. The bit-placement sequencer BPS: the traversal (R201) and the commands RSVCLR, RSVWR, RSVRD, SEQGEN,
SEQRD (R203 to R207). -/

namespace Sys2Proof.Machine

/-- The cells of one row of a column pair, right-hand column first, without the reserved ones (R201). -/
def pairRow (rsv : Coord → Bool) (right row : Nat) : List Coord :=
  [Coord.mk row right, Coord.mk row (right - 1)].filter fun c => !rsv c

/-- One column pair, scanned upward or downward (R201). -/
def pairCells (side : Nat) (rsv : Coord → Bool) (right : Nat) (up : Bool) : List Coord :=
  (List.range side).flatMap fun k => pairRow rsv right (if up then side - 1 - k else k)

/-- The right-hand column of the next pair, from `right + 1`: the timing column is never one (R200, R201). -/
def pairRightOf (next : Nat) : Nat := if next - 1 = Config.timingCol then Config.timingCol - 1 else next - 1

/-- The loop over the column pairs (R201). `next` is `right + 1`, so that 0 is the left edge, `right < 0`; the direction
alternates with every pair. `fuel` bounds the number of pairs. -/
def pairScan (side : Nat) (rsv : Coord → Bool) : (fuel next : Nat) → (up : Bool) → List Coord
  | 0, _, _ => []
  | fuel + 1, next, up =>
    if next = 0 then []
    else pairCells side rsv (pairRightOf next) up ++ pairScan side rsv fuel (pairRightOf next - 1) (!up)

/-- `placement_sequence(size, rsv)` (R201): from the right edge, the first pair upward. -/
def placementSequence (side : Nat) (rsv : Coord → Bool) : List Coord := pairScan side rsv side side true

/-- `row * 256 + col`, the response of SEQRD (R207). -/
def packCoord (c : Coord) : Half := BitVec.ofNat 16 (c.row * 256 + c.col)

/-! ### The commands -/

/-- RSVCLR (R203). -/
def execRsvclr (s : State) : Result :=
  command s (if s.ver = 0 then raise .badVersion s else respond 0 (s.withRsv []).invalidateSeq)

/-- RSVWR (R204). -/
def execRsvwr (row col val : Byte) (s : State) : Result :=
  command s
    (if coordOutside s (coordOf row col) then raise .badCoordinate s
     else if val > 1 then raise .badValue s
     else respond 0 (s.withRsv (rsvWrite s.rsv (coordOf row col) (val == 1))).invalidateSeq)

/-- RSVRD (R205). -/
def execRsvrd (row col : Byte) (s : State) : Result :=
  command s
    (if coordOutside s (coordOf row col) then raise .badCoordinate s
     else respond (if rsvBit s.rsv (coordOf row col) then 1 else 0) s)

/-- The sequence SEQGEN generates: that of `SIZE` and `RSV` (R200, R206). -/
def currentSequence (s : State) : List Coord := placementSequence s.size.toNat (rsvBit s.rsv)

/-- SEQGEN (R206). -/
def execSeqgen (s : State) : Result :=
  command s
    (if s.ver = 0 then raise .badVersion s
     else
      respond (BitVec.ofNat 16 (currentSequence s).length)
        (((s.withSeq (currentSequence s)).withSeqlen (BitVec.ofNat 16 (currentSequence s).length)).validateSeq))

/-- SEQRD (R207). -/
def execSeqrd (n : Half) (s : State) : Result :=
  command s
    (if !s.seqValid then raise .sequenceNotReady s
     else if n ≥ s.seqlen then raise .badIndex s
     else respond (packCoord (s.seq.getD n.toNat ⟨0, 0⟩)) s)

end Sys2Proof.Machine
end

