-- ==== Sys2Proof/Machine/Polynomial.lean ====
section
/-! DEFINITION. The polynomial unit PRU: product and remainder (R160, R161), the generator polynomial and the
error-correction codewords (R180, R181), and the commands PMUL, PREM, GENP, ECGEN (R163, R164, R182, R183). A polynomial
is a list of bytes, leading coefficient first (R10). -/

namespace Sys2Proof.Machine

/-- XOR the second sequence onto the front of the first, which keeps its length (R151). -/
def xorOnto : List Byte → List Byte → List Byte
  | a :: r, b :: t => (a ^^^ b) :: xorOnto r t
  | [], _ => []
  | r, [] => r

/-- A polynomial times a constant. -/
def polyScale (f : Byte) (q : List Byte) : List Byte := q.map fun b => gfMul f b

/-- `poly_mul(p, q)` (R160): the row of products of `p[0]` lies at offset 0, the rows of the rest of `p` one position
further; the length is `len(p) + len(q) - 1`. Not asked for empty sequences. -/
def polyMul : List Byte → List Byte → List Byte
  | [], q => List.replicate (q.length - 1) 0
  | a :: p, q => xorOnto (polyScale a q ++ List.replicate p.length 0) (0 :: polyMul p q)

/-- One step of `poly_rem` (R161): the scale `f = gf_div(rem[i], g[0])` eliminates the leading coefficient of the running
remainder; the sequence moves on by one position, past the coefficient that is now 0. -/
def remStep (g rem : List Byte) : List Byte :=
  (xorOnto rem (polyScale (gfDiv (rem.headD 0) (g.headD 0)) g)).tail

/-- `k` steps of `poly_rem`. -/
def remSteps (g : List Byte) : Nat → List Byte → List Byte
  | 0, rem => rem
  | k + 1, rem => remSteps g k (remStep g rem)

/-- `poly_rem(d, g)` (R161): `len(d) - len(g) + 1` steps leave the trailing `len(g) - 1` coefficients. -/
def polyRem (d g : List Byte) : List Byte := remSteps g (d.length - g.length + 1) d

/-- `gen_poly(degree)` (R180): the product of the factors `[1, EXP[i]]` for `i` below the degree, from `[1]`. -/
def genPoly : Nat → List Byte
  | 0 => [1]
  | i + 1 => polyMul (genPoly i) [1, expMod i]

/-- `ec_codewords(data, total)` (R181): the data, zero-padded at the low-order end, modulo the generator. -/
def ecCodewords (data : List Byte) (total : Nat) : List Byte :=
  polyRem (data ++ List.replicate (total - data.length) 0) (genPoly (total - data.length))

/-! ### The commands -/

/-- PMUL (R163). -/
def execPmul (s : State) : Result :=
  command s
    (if s.la = 0 ∨ s.lb = 0 then raise .badLength s
     else if sourceAIllegal s ∨ sourceBIllegal s then raise .addressRange s
     else if destIllegal s (s.la.toNat + s.lb.toNat - 1) then raise .addressRange s
     else respondPoly (polyMul (sourceA s) (sourceB s)) s)

/-- PREM (R164): the zero divisor is checked after the refusals and before any write. -/
def execPrem (s : State) : Result :=
  command s
    (if s.la = 0 ∨ s.lb = 0 ∨ s.la < s.lb then raise .badLength s
     else if sourceAIllegal s ∨ sourceBIllegal s then raise .addressRange s
     else if destIllegal s (s.lb.toNat - 1) then raise .addressRange s
     else if cwByte s s.sb.toNat = 0 then fatalDivideByZero s
     else respondPoly (polyRem (sourceA s) (sourceB s)) s)

/-- GENP (R182). -/
def execGenp (n : Half) (s : State) : Result :=
  command s
    (if n.toNat > Config.genMaxDegree then raise .badLength s
     else if destIllegal s (n.toNat + 1) then raise .addressRange s
     else respondPoly (genPoly n.toNat) s)

/-- ECGEN (R183). -/
def execEcgen (n : Half) (s : State) : Result :=
  command s
    (if s.la = 0 ∨ n < s.la ∨ n.toNat - s.la.toNat > Config.genMaxDegree ∨ n.toNat > Config.cwBytes then
      raise .badLength s
     else if sourceAIllegal s then raise .addressRange s
     else if destIllegal s (n.toNat - s.la.toNat) then raise .addressRange s
     else respondPoly (ecCodewords (sourceA s) n.toNat) s)

end Sys2Proof.Machine
end

