-- ==== Sys2Proof/Machine/Dispatch.lean ====
section
/-! DEFINITION. One arm per command: the meaning of each row of the opcode table (R94). -/

namespace Sys2Proof.Machine

def exec (i : Instr) (s : State) : Host.Outcome State Fault Refusal :=
  match i with
  | .nop => Sys2Proof.Machine.execNop s
  | .setq r imm => Sys2Proof.Machine.execSetq r imm s
  | .getq r => Sys2Proof.Machine.execGetq r s
  | .clrerr => Sys2Proof.Machine.execClrerr s
  | .setver n => Sys2Proof.Machine.execSetver n s
  | .gfmul a b => Sys2Proof.Machine.execGfmul a b s
  | .gfdiv a b => Sys2Proof.Machine.execGfdiv a b s
  | .gfexp a => Sys2Proof.Machine.execGfexp a s
  | .gflog a => Sys2Proof.Machine.execGflog a s
  | .pmul => Sys2Proof.Machine.execPmul s
  | .prem => Sys2Proof.Machine.execPrem s
  | .genp n => Sys2Proof.Machine.execGenp n s
  | .ecgen n => Sys2Proof.Machine.execEcgen n s
  | .cwwr addr data => Sys2Proof.Machine.execCwwr addr data s
  | .cwrd addr => Sys2Proof.Machine.execCwrd addr s
  | .rsvclr => Sys2Proof.Machine.execRsvclr s
  | .rsvwr row col val => Sys2Proof.Machine.execRsvwr row col val s
  | .rsvrd row col => Sys2Proof.Machine.execRsvrd row col s
  | .seqgen => Sys2Proof.Machine.execSeqgen s
  | .seqrd n => Sys2Proof.Machine.execSeqrd n s
  | .gridclr => Sys2Proof.Machine.execGridclr s
  | .gridwr row col val => Sys2Proof.Machine.execGridwr row col val s
  | .gridrd row col => Sys2Proof.Machine.execGridrd row col s
  | .mplace n => Sys2Proof.Machine.execMplace n s

end Sys2Proof.Machine
end

