-- ==== Sys2Proof/Machine/Fetch.lean ====
section
/-! DEFINITION. What one host input does to the block (R7, R93, R320); Step.lean takes the input from the port. -/

namespace Sys2Proof.Machine

/-- One command word (R93): the FAULTED check stands in every command and in `illegalCommand` (log 11). -/
def runWord (w : Word) (s : State) : Result :=
  match decode w with
  | .ok i => exec i s
  | .error _ => illegalCommand s

/-- One input of the host. While reset is asserted a command is not accepted and has no response (R320; log 3);
releasing reset gives the reset state. -/
def accept (x : HostInput) (s : State) : Result :=
  match x with
  | .command w => if s.inReset then .next s else runWord w s
  | .resetAsserted => .next (s.withInReset true)
  | .resetReleased => if s.inReset then .next s.afterReset else .next s

/-- One step: the next host input, if there is one (R7: nothing else causes a step; log 1). -/
def stepOnce (s : State) : Result :=
  match s.inputs with
  | [] => .next s
  | x :: rest => accept x (s.withInputs rest)

/-- The state in which the next thing the host presents is the command word `w` (log 4). -/
def State.present (s : State) (w : Word) : State := (s.withInputs (.command w :: s.inputs)).withInReset false

end Sys2Proof.Machine
end

