-- ==== Sys2Proof/Machine/Step.lean ====
section
/-! DEFINITION. The step of the machine (R7) and the state that runs a given word next. -/

namespace Sys2Proof.Machine

/-- One step of the block (R7). -/
def step (s : State) : Host.Outcome State Fault Refusal := stepOnce s

/-- The state with the command word of the low `nbits` bits of `w` next on the command port (log 4). -/
def State.withFetchWord (s : State) (nbits w : Nat) : State := s.present (tableWord nbits w)

end Sys2Proof.Machine
end

