-- ==== Sys2Proof/Machine/Assembler.lean ====
section
/-! DEFINITION. The assembler syntax of R101 and the pseudo-instructions of R102 as abstract lines with plain numbers for
operands; a line is well-formed when its operands fit their fields. The block sees only the expansion (R102). -/

namespace Sys2Proof.Machine

/-- The register names of R101. -/
inductive RegName where
  | sa | la | sb | lb | da | lr | res | ver | size | seqlen | status
  deriving DecidableEq, Repr

/-- A register operand: a name, or `q<index>` (R101). -/
inductive RegOperand where
  | name (n : RegName)
  | q (index : Nat)
  deriving DecidableEq, Repr

/-- A grid cell value: a name, or a number (R101). -/
inductive CellOperand where
  | unset | light | dark
  | num (n : Nat)
  deriving DecidableEq, Repr

/-- One line of R101 or R102. -/
inductive AsmLine where
  | nop
  | setq (r : RegOperand) (imm : Nat)
  | getq (r : RegOperand)
  | clrerr
  | setver (v : Nat)
  | gfmul (a b : Nat)
  | gfdiv (a b : Nat)
  | gfexp (e : Nat)
  | gflog (v : Nat)
  | pmul
  | prem
  | genp (degree : Nat)
  | ecgen (total : Nat)
  | cwwr (addr data : Nat)
  | cwrd (addr : Nat)
  | rsvclr
  | rsvwr (row col val : Nat)
  | rsvrd (row col : Nat)
  | seqgen
  | seqrd (k : Nat)
  | gridclr
  | gridwr (row col : Nat) (val : CellOperand)
  | gridrd (row col : Nat)
  | mplace (m : Nat)
  /-- `SETA addr, len` (R102) -/
  | seta (addr len : Nat)
  /-- `SETB addr, len` (R102) -/
  | setb (addr len : Nat)
  /-- `LOADCW addr, b0, b1, …` (R102) -/
  | loadcw (addr : Nat) (bytes : List Nat)
  /-- `RSVRECT r0, c0, h, w` (R102) -/
  | rsvrect (r0 c0 h w : Nat)
  deriving DecidableEq, Repr

/-- The index of a register operand (R21, R101). -/
def regIndex : RegOperand → Nat
  | .name .sa => 0
  | .name .la => 1
  | .name .sb => 2
  | .name .lb => 3
  | .name .da => 4
  | .name .lr => 8
  | .name .res => 9
  | .name .ver => 10
  | .name .size => 11
  | .name .seqlen => 12
  | .name .status => 13
  | .q i => i

/-- The number of a cell operand (R101). -/
def cellNumber : CellOperand → Nat
  | .unset => 0
  | .light => 2
  | .dark => 3
  | .num n => n

/-- A number fits a 16-bit field. -/
def fitsHalf (n : Nat) : Bool := decide (n < 65536)

/-- A number fits an 8-bit field. -/
def fitsByte (n : Nat) : Bool := decide (n < 256)

/-- A line whose operands all fit the fields of R91. DESIGN CHOICE for the degenerate lines of R102 (log 22): `LOADCW`
without a byte is accepted at every address to 65536, and an `RSVRECT` without a cell (`h` or `w` 0) is accepted or
refused by the same bounds as any other, `r0 + h ≤ 256` and `c0 + w ≤ 256`. -/
def asmWellFormed : AsmLine → Bool
  | .nop | .clrerr | .pmul | .prem | .rsvclr | .seqgen | .gridclr => true
  | .setq r imm => decide (regIndex r < 16) && fitsHalf imm
  | .getq r => decide (regIndex r < 16)
  | .setver n | .genp n | .ecgen n | .seqrd n | .mplace n => fitsHalf n
  | .gfmul a b | .gfdiv a b => fitsByte a && fitsByte b
  | .gfexp a | .gflog a => fitsByte a
  | .cwwr addr data => fitsHalf addr && fitsByte data
  | .cwrd addr => fitsHalf addr
  | .rsvwr row col val => fitsByte row && fitsByte col && fitsByte val
  | .rsvrd row col | .gridrd row col => fitsByte row && fitsByte col
  | .gridwr row col val => fitsByte row && fitsByte col && fitsByte (cellNumber val)
  | .seta addr len | .setb addr len => fitsHalf addr && fitsHalf len
  | .loadcw addr bytes => decide (addr + bytes.length ≤ 65536) && bytes.all fitsByte
  | .rsvrect r0 c0 h w => decide (r0 + h ≤ 256) && decide (c0 + w ≤ 256)

/-- `LOADCW`: one CWWR for each byte, at rising addresses (R102); for no byte, no command (log 22). -/
def expandLoad (addr : Nat) : List Nat → List Instr
  | [] => []
  | b :: rest => .cwwr (BitVec.ofNat 16 addr) (BitVec.ofNat 8 b) :: expandLoad (addr + 1) rest

/-- `RSVRECT`: one RSVWR for each cell, rows outer, columns inner (R102); for `h` or `w` 0, no command (log 22). -/
def expandRect (r0 c0 h w : Nat) : List Instr :=
  (List.range h).flatMap fun i => (List.range w).map fun j =>
    .rsvwr (BitVec.ofNat 8 (r0 + i)) (BitVec.ofNat 8 (c0 + j)) 1

/-- The commands of a line (R101, R102). -/
def expand : AsmLine → List Instr
  | .nop => [.nop]
  | .setq r imm => [.setq (BitVec.ofNat 4 (regIndex r)) (BitVec.ofNat 16 imm)]
  | .getq r => [.getq (BitVec.ofNat 4 (regIndex r))]
  | .clrerr => [.clrerr]
  | .setver v => [.setver (BitVec.ofNat 16 v)]
  | .gfmul a b => [.gfmul (BitVec.ofNat 8 a) (BitVec.ofNat 8 b)]
  | .gfdiv a b => [.gfdiv (BitVec.ofNat 8 a) (BitVec.ofNat 8 b)]
  | .gfexp e => [.gfexp (BitVec.ofNat 8 e)]
  | .gflog v => [.gflog (BitVec.ofNat 8 v)]
  | .pmul => [.pmul]
  | .prem => [.prem]
  | .genp n => [.genp (BitVec.ofNat 16 n)]
  | .ecgen n => [.ecgen (BitVec.ofNat 16 n)]
  | .cwwr addr data => [.cwwr (BitVec.ofNat 16 addr) (BitVec.ofNat 8 data)]
  | .cwrd addr => [.cwrd (BitVec.ofNat 16 addr)]
  | .rsvclr => [.rsvclr]
  | .rsvwr row col val => [.rsvwr (BitVec.ofNat 8 row) (BitVec.ofNat 8 col) (BitVec.ofNat 8 val)]
  | .rsvrd row col => [.rsvrd (BitVec.ofNat 8 row) (BitVec.ofNat 8 col)]
  | .seqgen => [.seqgen]
  | .seqrd k => [.seqrd (BitVec.ofNat 16 k)]
  | .gridclr => [.gridclr]
  | .gridwr row col val => [.gridwr (BitVec.ofNat 8 row) (BitVec.ofNat 8 col) (BitVec.ofNat 8 (cellNumber val))]
  | .gridrd row col => [.gridrd (BitVec.ofNat 8 row) (BitVec.ofNat 8 col)]
  | .mplace m => [.mplace (BitVec.ofNat 16 m)]
  | .seta addr len => [.setq 0 (BitVec.ofNat 16 addr), .setq 1 (BitVec.ofNat 16 len)]
  | .setb addr len => [.setq 2 (BitVec.ofNat 16 addr), .setq 3 (BitVec.ofNat 16 len)]
  | .loadcw addr bytes => expandLoad addr bytes
  | .rsvrect r0 c0 h w => expandRect r0 c0 h w

/-- The words of a line the assembler accepts, nothing for a line whose operands do not fit (R101). -/
def assemble (l : AsmLine) : Option (List Word) :=
  if asmWellFormed l then some ((expand l).map encode) else none

end Sys2Proof.Machine
end

