-- ==== Sys2Proof/Machine/HostReference.lean ====
section
/-! DEFINITION. The host's software as 48_host_reference.md transcribes it: the byte-mode encoder (R241 to R246), the
fixed-pattern overlay (R247 to R251), the reserved set (R252), and assembly as a program that drives the block and stops
at the first failure (R256, R258). It is outside the block (R4, R240) and no step calls it; the OPEN parameters of R6
are arguments (log 15). -/

namespace Sys2Proof.Machine

/-- What an assembly can fail with (R258): the three errors of QROS (R296), and what keeps the host from driving the
block (log 20). -/
inductive HostError where
  /-- the payload does not fit (R244) -/
  | capacityExceeded
  /-- a character above 255 (R245) -/
  | invalidCharacter
  /-- a mask index above 7: MPLACE is refused, or no command word holds the index (R226, R296) -/
  | invalidMaskIndex
  /-- an operand of a line does not fit its field (R91, R101) -/
  | operandRange
  /-- the block answered another status than success (R99, R281) -/
  | refused (status : Byte)
  /-- the block answered nothing, which R99 excludes -/
  | noResponse
  deriving DecidableEq, Repr

/-! ### Byte-mode encoder -/

/-- `n` as `width` bits, most significant first (R242). -/
def bitsOf (width n : Nat) : List Bool := (List.range width).map fun k => n.testBit (width - 1 - k)

/-- One byte from eight bits, the first being bit 7 (R243). -/
def byteOfBits (bits : List Bool) : Byte := BitVec.ofNat 8 (bits.foldl (fun n b => 2 * n + b.toNat) 0)

/-- Bits cut into bytes; a rest of fewer than eight bits is filled with zero bits (R243). -/
def packBits : List Bool → List Byte
  | [] => []
  | b7 :: b6 :: b5 :: b4 :: b3 :: b2 :: b1 :: b0 :: rest => byteOfBits [b7, b6, b5, b4, b3, b2, b1, b0] :: packBits rest
  | rest => [byteOfBits (rest ++ List.replicate (8 - rest.length) false)]

/-- Pad codewords, 0xEC first, alternating with 0x11 (R243). -/
def padCodewords (n : Nat) : List Byte := (List.range n).map fun i => if i % 2 = 0 then 0xEC else 0x11

/-- The bit stream: mode nibble 0100, length field, payload bytes (R242). -/
def payloadBits (text : List Nat) (lengthBits : Nat) : List Bool :=
  [false, true, false, false] ++ bitsOf lengthBits text.length ++ text.flatMap (bitsOf 8)

/-- `byte_mode_encode(payload, D, L)` (R246): `text` is the list of character codes. -/
def byteModeEncode (text : List Nat) (dataCodewords lengthBits : Nat) : Except HostError (List Byte) :=
  if text.any (fun c => decide (c > 255)) then .error .invalidCharacter
  else if text.length ≥ 2 ^ lengthBits ∨ 4 + lengthBits + 8 * text.length > 8 * dataCodewords then
    .error .capacityExceeded
  else
    let cw := packBits (payloadBits text lengthBits)
    .ok (cw ++ padCodewords (dataCodewords - cw.length))

/-! ### Fixed patterns and the reserved set -/

/-- A cell stamped on the grid. -/
abbrev Stamp := Coord × ModuleState

/-- The distance of two numbers. -/
def absDiff (a b : Nat) : Nat := (a - b) + (b - a)

/-- The cells of a rectangle, rows outer, columns inner. -/
def rectCells (r0 c0 h w : Nat) : List Coord :=
  (List.range h).flatMap fun i => (List.range w).map fun j => ⟨r0 + i, c0 + j⟩

/-- A finder pattern with its top-left cell at a coordinate (R248). -/
def finderStamps (r0 c0 : Nat) : List Stamp :=
  (rectCells r0 c0 7 7).map fun c =>
    (c, if max (absDiff (c.row - r0) 3) (absDiff (c.col - c0) 3) = 2 then .light else .dark)

/-- The separators of the three finder patterns (R249). -/
def separatorStamps (side : Nat) : List Stamp :=
  (rectCells 7 0 1 8 ++ rectCells 0 7 8 1 ++ rectCells 7 (side - 8) 1 8 ++ rectCells 0 (side - 8) 8 1 ++
    rectCells (side - 8) 0 1 8 ++ rectCells (side - 8) 7 8 1).map fun c => (c, .light)

/-- The alignment pattern with its centre at a coordinate (R250). -/
def alignmentStamps (centre : Coord) : List Stamp :=
  (rectCells (centre.row - 2) (centre.col - 2) 5 5).map fun c =>
    (c, if max (absDiff c.row centre.row) (absDiff c.col centre.col) = 1 then .light else .dark)

/-- The timing patterns of row 6 and column 6, dark at an even index (R251). -/
def timingStamps (side : Nat) : List Stamp :=
  (List.range (side - 16)).flatMap fun i =>
    let v := if (8 + i) % 2 = 0 then ModuleState.dark else .light
    [(⟨6, 8 + i⟩, v), (⟨8 + i, 6⟩, v)]

/-- The overlay (R247): `align` is the centre of the single alignment pattern, nothing for version 1. DESIGN CHOICE
(log 21): the same for versions 7 and up, whose several patterns R250 says the software does not handle. -/
def overlayStamps (side : Nat) (align : Option Coord) : List Stamp :=
  finderStamps 0 0 ++ finderStamps 0 (side - 7) ++ finderStamps (side - 7) 0 ++ separatorStamps side ++
    (match align with
     | some c => alignmentStamps c
     | none => []) ++
    timingStamps side

/-- Stamp a list of cells onto a grid, in order. -/
def applyStamps (g : Grid) : List Stamp → Grid
  | [] => g
  | (c, v) :: rest => applyStamps (gridWrite g c v) rest

/-- Membership of a cell in a rectangle. -/
def inRect (c : Coord) (r0 c0 h w : Nat) : Bool :=
  decide (r0 ≤ c.row) && decide (c.row < r0 + h) && decide (c0 ≤ c.col) && decide (c.col < c0 + w)

/-- The reserved set of version `v` with the alignment centre `align` (R252), one pattern at most for every version
(DESIGN CHOICE for versions 7 and up, log 21). -/
def isReserved (v : Nat) (align : Option Coord) (c : Coord) : Bool :=
  let s := 4 * v + 17
  inRect c 0 0 8 8 || inRect c 0 (s - 8) 8 8 || inRect c (s - 8) 0 8 8 ||
  decide (c.row = 6) || decide (c.col = 6) ||
  (match align with
   | some a => inRect c (a.row - 2) (a.col - 2) 5 5
   | none => false) ||
  inRect c 8 0 1 9 || inRect c 0 8 9 1 || inRect c 8 (s - 8) 1 8 || inRect c (s - 8) 8 8 1 ||
  (decide (v ≥ 7) && (inRect c 0 (s - 11) 6 3 || inRect c (s - 11) 0 3 6))

/-- The cells of the reserved set, row by row (R252). -/
def reservedSet (v : Nat) (align : Option Coord) : List Coord :=
  (rectCells 0 0 (4 * v + 17) (4 * v + 17)).filter (isReserved v align)

/-! ### Driving the block -/

/-- The end of a piece of host software: the block as it leaves it, and its result or its error. -/
abbrev HostResult (α : Type) := State × Except HostError α

/-- Go on with the result; after an error do nothing more (R258). -/
def HostResult.andThen {α β : Type} (r : HostResult α) (f : α → State → HostResult β) : HostResult β :=
  match r.2 with
  | .ok a => f a r.1
  | .error e => (r.1, .error e)

/-- The error for a status that is not success (R258, R296). -/
def hostErrorOf (status : Byte) : HostError :=
  if status = statusByte .invalidMaskIndex then .invalidMaskIndex else .refused status

/-- The value of a response word, or the error for its status (R99). -/
def replyValue (r : Word) : Except HostError Half :=
  if r.extractLsb' 24 8 = statusByte .ok then .ok (r.extractLsb' 0 16) else .error (hostErrorOf (r.extractLsb' 24 8))

/-- Issue one command word and take its response (R7). -/
def issue (w : Word) (s : State) : HostResult Half :=
  match step (s.present w) with
  | .next t => (t, (t.responses.getLast?).elim (.error .noResponse) replyValue)
  | _ => (s, .error .noResponse)

/-- Issue command words in order and take the values they answer, until one fails (R258: none is retried). -/
def issueAll : List Word → State → HostResult (List Half)
  | [], s => (s, .ok [])
  | w :: rest, s =>
    (issue w s).andThen fun v t => (issueAll rest t).andThen fun vs u => (u, .ok (v :: vs))

/-- The error of a line whose operands do not fit its fields. -/
def lineError : AsmLine → HostError
  | .mplace _ => .invalidMaskIndex
  | _ => .operandRange

/-- Issue the words of lines in order, until one fails (R256, R258). -/
def runLines : List AsmLine → State → HostResult (List Half)
  | [], s => (s, .ok [])
  | l :: rest, s =>
    match assemble l with
    | none => (s, .error (lineError l))
    | some ws => (issueAll ws s).andThen fun vs t => (runLines rest t).andThen fun us u => (u, .ok (vs ++ us))

/-! ### Assembly -/

/-- What one (version, EC level) pair fixes, with the OPEN values of R6 (R260: an explicit configuration). -/
structure SymbolConfig where
  /-- `v` -/
  version : Nat
  /-- `D` -/
  dataCodewords : Nat
  /-- `T` -/
  totalCodewords : Nat
  /-- `L` -/
  lengthBits : Nat
  /-- the centre of the single alignment pattern, nothing for version 1 (R250; versions 7 and up: log 21) -/
  align : Option Coord
  deriving DecidableEq, Repr

/-- The side length of the grid (R6). -/
def SymbolConfig.side (c : SymbolConfig) : Nat := 4 * c.version + 17

/-- The GRIDWR line of a stamp. -/
def stampLine (t : Stamp) : AsmLine :=
  .gridwr t.1.row t.1.col
    (match t.2 with
     | .unset => .unset
     | .light => .light
     | .dark => .dark)

/-- The lines of R256 up to SEQGEN, for the data codewords `cw`. -/
def setupLines (c : SymbolConfig) (cw : List Byte) : List AsmLine :=
  [.loadcw 0 (cw.map BitVec.toNat), .seta 0 c.dataCodewords, .setq (.name .da) c.dataCodewords,
    .ecgen c.totalCodewords, .setver c.version] ++
  (reservedSet c.version c.align).map (fun d => .rsvwr d.row d.col 1) ++ [.seqgen]

/-- The lines of R256 from the remainder bytes to the overlay, for the number of positions that SEQGEN answered. -/
def placeLines (c : SymbolConfig) (m positions : Nat) : List AsmLine :=
  let need := (positions + 7) / 8
  (if positions > 8 * c.totalCodewords then
    [.loadcw c.totalCodewords (List.replicate (need - c.totalCodewords) 0)]
   else []) ++
  [.seta 0 (max c.totalCodewords need), .mplace m] ++ (overlayStamps c.side c.align).map stampLine

/-- The read-out of R256, row by row. -/
def readOutLines (side : Nat) : List AsmLine := (rectCells 0 0 side side).map fun d => .gridrd d.row d.col

/-- Assembly (R256) on the block `s`, with mask `m`: the cell codes of the finished grid, row by row (R257), or the error
of the first failure and no grid (R258). A failed encoding issues no command. DESIGN CHOICE (log 21): R250 says that this
software does not handle the several alignment patterns of versions 7 and up, and not what it does when asked to; here it
assembles them with the one pattern of the configuration, or none, and returns that grid. -/
def assembleSymbol (c : SymbolConfig) (text : List Nat) (m : Nat) (s : State) : HostResult (List Half) :=
  match byteModeEncode text c.dataCodewords c.lengthBits with
  | .error e => (s, .error e)
  | .ok cw =>
    (runLines (setupLines c cw) s).andThen fun vs t =>
      (runLines (placeLines c m (vs.getLastD 0).toNat) t).andThen fun _ u => runLines (readOutLines c.side) u

end Sys2Proof.Machine
end

