-- ==== Sys2Proof/Machine/Reference.lean ====
section
/-! DEFINITION. The spec's second descriptions of what the units compute, for statements that compare the two: the
construction of `EXP` (R141), the bit-by-bit product (R150), the loops of `poly_mul` and `poly_rem` as written (R160,
R161), the closed form of the column pairs (R202). No command calls them. -/

namespace Sys2Proof.Machine

/-- One step of the construction of `EXP`: double, then XOR 0x11D when the 9-bit result is not below 256 (R141). -/
def gfDouble (x : Nat) : Nat := if x * 2 < 256 then x * 2 else (x * 2) ^^^ Config.gfPoly

/-- `EXP[e]` by the construction of R141. -/
def expConstructed : Nat → Nat
  | 0 => 1
  | e + 1 => gfDouble (expConstructed e)

/-- The carry-less product of R150: `p XOR (a << i)` for every bit `i` of `b`. -/
def carrylessProduct (a b : Nat) : Nat :=
  (List.range 8).foldl (fun p i => if b.testBit i then p ^^^ (a <<< i) else p) 0

/-- The reduction of R150: for `i` from 14 down to 8, `p XOR (0x11D << (i - 8))` when bit `i` is set. -/
def reduceProduct (p : Nat) : Nat :=
  [14, 13, 12, 11, 10, 9, 8].foldl (fun p i => if p.testBit i then p ^^^ (Config.gfPoly <<< (i - 8)) else p) p

/-- `gf_mul` as R150 writes it. -/
def gfMulBits (a b : Byte) : Byte := BitVec.ofNat 8 (reduceProduct (carrylessProduct a.toNat b.toNat))

/-- `x[k] <- x[k] XOR v`. -/
def xorAt (x : List Byte) (k : Nat) (v : Byte) : List Byte := x.modify k (· ^^^ v)

/-- `poly_mul` as the two loops of R160. -/
def polyMulLoop (p q : List Byte) : List Byte :=
  (List.range p.length).foldl
    (fun r i =>
      (List.range q.length).foldl (fun r j => xorAt r (i + j) (gfMul (p.getD i 0) (q.getD j 0))) r)
    (List.replicate (p.length + q.length - 1) 0)

/-- `poly_rem` as the two loops of R161: `rem[n-m+1 .. n-1]` after `n - m + 1` steps. -/
def polyRemLoop (d g : List Byte) : List Byte :=
  let rem := (List.range (d.length - g.length + 1)).foldl
    (fun rem i =>
      let f := gfDiv (rem.getD i 0) (g.getD 0 0)
      (List.range g.length).foldl (fun rem j => xorAt rem (i + j) (gfMul (g.getD j 0) f)) rem)
    d
  rem.drop (d.length - g.length + 1)

/-- The sum of the field over two sequences of one length (R151). -/
def xorSeq (x y : List Byte) : List Byte := List.zipWith (· ^^^ ·) x y

/-- The right-hand column of pair number `p` (R202 item (a)). -/
def pairRight (side p : Nat) : Nat := if p < (side - 7) / 2 then side - 1 - 2 * p else side - 2 - 2 * p

/-- The placement sequence by pair number: `(size-1)/2` pairs, upward when the number is even (R202 item (a)). -/
def placementByPairs (side : Nat) (rsv : Coord → Bool) : List Coord :=
  (List.range ((side - 1) / 2)).flatMap fun p => pairCells side rsv (pairRight side p) (p % 2 == 0)

end Sys2Proof.Machine
end

