-- ==== Sys2Proof/Safety.lean ====
section
/-! DEFINITION. What counts as a safe run, the invariant of the state, and the ends of a command written bit by bit from
the spec, which the claims are stated in. -/

namespace Sys2Proof.Machine

/-- The block carries out commands: it is not FAULTED (R93 step 1, R285). -/
abbrev State.running (s : State) : Prop := s.faulted = false

/-- A state a run may end in: everything the host presented is done and the block is neither FAULTED nor held in reset.
A run that ends FAULTED has not finished (R284, U1). -/
abbrev State.finished (s : State) : Prop := s.inputs = [] ∧ s.faulted = false ∧ s.inReset = false

/-- What is true of the block between commands, from the spec's own sentences about its state. -/
structure State.Inv (s : State) : Prop where
  /-- legal `VER` values are 0 and 1 to 40 (R25) -/
  ver_legal : s.ver.toNat ≤ 40
  /-- `SIZE` is 0 when `VER` is 0, else `4*VER + 17` (R25) -/
  size_of_ver : s.size.toNat = if s.ver = 0 then 0 else 4 * s.ver.toNat + 17
  /-- bits 15:8 of `RES` are 0 (R21) -/
  res_byte : s.res.toNat < 256
  /-- a polynomial result fits `CW` (R23, R31) -/
  lr_fits : s.lr.toNat ≤ 4096
  /-- bits 7:2 of `STATUS` read as 0 (R28) -/
  status_reserved : s.statusReserved = 0
  /-- `LASTERR` is 0x01 exactly in the FAULTED state (R284, R285) -/
  faulted_code : s.faulted = true ↔ s.lastErr = 0x01
  /-- the reserved codes, `Halted` and the codes from 0x10 on are never recorded (R281, R285) -/
  code_legal : s.lastErr ≠ 0x03 ∧ s.lastErr ≠ 0x04 ∧ s.lastErr.toNat < 0x0F
  /-- `SEQLEN` is 0 whenever `SEQ_VALID` is 0 (R26) -/
  seqlen_invalid : s.seqValid = false → s.seqlen = 0
  /-- when `SEQ_VALID` is 1 the block is configured, and `SEQ` and `SEQLEN` hold the sequence for the current `SIZE` and
  `RSV` (R28, R38, R206) -/
  seq_current : s.seqValid = true →
    s.ver ≠ 0 ∧ s.seq = placementSequence s.size.toNat (rsvBit s.rsv) ∧ s.seqlen.toNat = s.seq.length
  /-- `CW` is in its canonical form (R31) -/
  cw_wf : Memory.wf s.cw = true
  /-- `RSV` is in its canonical form and has no cell outside `SIZE` (R34) -/
  rsv_wf : rsvWf s.size.toNat s.rsv = true
  /-- `GRID` is in its canonical form and has no cell outside `SIZE` (R35) -/
  grid_wf : gridWf s.size.toNat s.grid = true

/-! ### The ends of a command, from R99, R283, R284 and R285 -/

/-- Success: one response, the value zero-extended, so its status byte is 0x00 (R11, R99). -/
def answered (s : State) (v : Half) : State := { s with responses := s.responses ++ [v.setWidth 32] }

/-- Refusal with a code: `LASTERR`, bits 15:8 of `STATUS`, takes it; the response is `code << 24`; nothing else changes
(R283). -/
def refusedWith (s : State) (code : Byte) : State :=
  { s with
    status := (code.setWidth 16 <<< 8) ||| (s.status &&& 0x00FF)
    responses := s.responses ++ [code.setWidth 32 <<< 24] }

/-- The fatal fault: `LASTERR` 0x01, `FAULTED` 1, response 0x01000000; nothing else changes (R284). -/
def fatalAfter (s : State) : State :=
  { s with
    status := 0x0101 ||| (s.status &&& 0x00FE)
    responses := s.responses ++ [0x01000000] }

/-- The `Halted` refusal: response 0x0F000000, no state change at all (R285). -/
def haltedAfter (s : State) : State := { s with responses := s.responses ++ [0x0F000000] }

/-- `STATUS` with `SEQ_VALID`, bit 1, at a value and every other bit kept (R28). -/
def statusWithSeqValid (st : Half) (b : Bool) : Half := (st &&& 0xFFFD) ||| (if b then 0x0002 else 0x0000)

/-- The effect of a successful PMUL, PREM, GENP or ECGEN: the bytes stand at `DA`, every other byte of `CW` reads as
before, `LR` and the response are their number, nothing else changes (R23, R32, R100). -/
def storedAtDest (s t : State) (bytes : List Byte) : Prop :=
  t = { answered s (BitVec.ofNat 16 bytes.length) with cw := t.cw, lr := BitVec.ofNat 16 bytes.length } ∧
  ∀ a, cwByte t a =
    if s.da.toNat ≤ a ∧ a < s.da.toNat + bytes.length then bytes.getD (a - s.da.toNat) 0 else cwByte s a

end Sys2Proof.Machine
end

