-- ==== Sys2Proof/Certificates/Slice0/Obligations.lean ====
section
/-! DEFINITION. The statements about GF256_mul, each from the numbered rules its docstring names. `answered`,
`refusedWith`, `fatalAfter`, `haltedAfter`, `statusWithSeqValid` and `storedAtDest` (Safety.lean) are the ends of a
command written from R11, R28, R99, R283, R284 and R285. A state that is `running` is not FAULTED. A command's statement
opens with its encoding, the fields put together as R91 and R94 lay them out. -/

open Sys2Proof Sys2Proof.Machine

/-! ### Encoding -/

/-- Every command is what the decoder reads from its own word (R91 to R94). -/
def Obligations.DecodeOfEncodeIsTheCommand : Prop := ∀ i : Instr, decode (encode i) = .ok i

/-- A word that decodes is the word of the command it decodes to: no bit is dropped (R91 to R94, R96). -/
def Obligations.EncodeOfDecodeIsTheWord : Prop := ∀ (w : Word) (i : Instr), decode w = .ok i → encode i = w

/-- A word that decodes selects exactly the row of its mnemonic; a word that does not decode selects no row (R94). -/
def Obligations.DecoderFollowsTheOpcodeMap : Prop :=
  ∀ w : Word,
    (∀ i, decode w = .ok i → ∀ r ∈ opTable, (r.selects w = true ↔ r.mnemonic = mnemonicOf i)) ∧
    (∀ e, decode w = .error e → ∀ r ∈ opTable, r.selects w = false)

/-- The reserved opcodes of R95. -/
def Sys2Proof.reservedOpcode (op : Nat) : Prop :=
  (0x05 ≤ op ∧ op ≤ 0x0F) ∨ (0x14 ≤ op ∧ op ≤ 0x1F) ∨ (0x24 ≤ op ∧ op ≤ 0x2F) ∨ (0x32 ≤ op ∧ op ≤ 0x3F) ∨
  (0x45 ≤ op ∧ op ≤ 0x4F) ∨ (0x54 ≤ op ∧ op ≤ 0xFF)

/-- R95: a reserved opcode is refused with `IllegalCommand` and changes nothing but `LASTERR`. -/
def Obligations.ReservedOpcodeIsRefused : Prop :=
  ∀ (s : State) (w : Word) (rest : List HostInput),
    s.inReset = false → s.running → s.inputs = .command w :: rest → reservedOpcode (w.toNat / 0x1000000) →
    step s = .next (refusedWith { s with inputs := rest } 0x05)

/-- R96: a listed opcode with a non-zero must-be-zero bit is refused with `IllegalCommand` in the same way. -/
def Obligations.MustBeZeroViolationIsRefused : Prop :=
  ∀ (s : State) (w : Word) (rest : List HostInput) (r : OpRow),
    s.inReset = false → s.running → s.inputs = .command w :: rest → r ∈ opTable →
    w &&& 0xFF000000 = r.pattern &&& 0xFF000000 → w &&& r.mask ≠ r.pattern →
    step s = .next (refusedWith { s with inputs := rest } 0x05)

/-- Words the spec writes out in its examples, one or more for each unit (R96, R122 to R127, R146 to R149, R163, R164,
R182, R183, R203 to R207, R223 to R226). -/
def Obligations.SpecWordsDecode : Prop :=
  decode 0x01010010 = .ok (.setq 1 16) ∧ decode 0x020B0000 = .ok (.getq 11) ∧ decode 0x04000029 = .ok (.setver 41) ∧
  decode 0x1100021D = .ok (.gfdiv 0x1D 0x02) ∧ decode 0x1300001D = .ok (.gflog 0x1D) ∧
  decode 0x21000000 = .ok .prem ∧ decode 0x23000004 = .ok (.ecgen 4) ∧
  decode 0x30100000 = .ok (.cwwr 0x1000 0) ∧ decode 0x31000200 = .ok (.cwrd 2) ∧
  decode 0x41060A01 = .ok (.rsvwr 6 10 1) ∧ decode 0x440001A4 = .ok (.seqrd 420) ∧
  decode 0x51000003 = .ok (.gridwr 0 0 3) ∧ decode 0x52141400 = .ok (.gridrd 20 20) ∧
  decode 0x53000008 = .ok (.mplace 8) ∧
  decode 0x00000001 = .error .mustBeZero ∧ decode 0x10010000 = .error .mustBeZero ∧
  decode 0x02000001 = .error .mustBeZero ∧ decode 0xFF000000 = .error .reservedOpcode

/-- The words of the assembler's table (R101), for every operand that fits its field. -/
def Obligations.AssemblerLinesEncodeByTheTable : Prop :=
  assemble .nop = some [0x00000000] ∧ assemble .clrerr = some [0x03000000] ∧ assemble .pmul = some [0x20000000] ∧
  assemble .prem = some [0x21000000] ∧ assemble .rsvclr = some [0x40000000] ∧ assemble .seqgen = some [0x43000000] ∧
  assemble .gridclr = some [0x50000000] ∧
  (∀ r imm, regIndex r < 16 → imm < 65536 →
    assemble (.setq r imm) = some [BitVec.ofNat 32 (0x01000000 + regIndex r * 0x10000 + imm)]) ∧
  (∀ r, regIndex r < 16 → assemble (.getq r) = some [BitVec.ofNat 32 (0x02000000 + regIndex r * 0x10000)]) ∧
  (∀ n, n < 65536 →
    assemble (.setver n) = some [BitVec.ofNat 32 (0x04000000 + n)] ∧
    assemble (.genp n) = some [BitVec.ofNat 32 (0x22000000 + n)] ∧
    assemble (.ecgen n) = some [BitVec.ofNat 32 (0x23000000 + n)] ∧
    assemble (.seqrd n) = some [BitVec.ofNat 32 (0x44000000 + n)] ∧
    assemble (.mplace n) = some [BitVec.ofNat 32 (0x53000000 + n)]) ∧
  (∀ a b, a < 256 → b < 256 →
    assemble (.gfmul a b) = some [BitVec.ofNat 32 (0x10000000 + b * 0x100 + a)] ∧
    assemble (.gfdiv a b) = some [BitVec.ofNat 32 (0x11000000 + b * 0x100 + a)] ∧
    assemble (.gfexp a) = some [BitVec.ofNat 32 (0x12000000 + a)] ∧
    assemble (.gflog a) = some [BitVec.ofNat 32 (0x13000000 + a)]) ∧
  (∀ addr data, addr < 65536 → data < 256 →
    assemble (.cwwr addr data) = some [BitVec.ofNat 32 (0x30000000 + addr * 0x100 + data)] ∧
    assemble (.cwrd addr) = some [BitVec.ofNat 32 (0x31000000 + addr * 0x100)]) ∧
  (∀ row col val, row < 256 → col < 256 → val < 256 →
    assemble (.rsvwr row col val) = some [BitVec.ofNat 32 (0x41000000 + row * 0x10000 + col * 0x100 + val)] ∧
    assemble (.rsvrd row col) = some [BitVec.ofNat 32 (0x42000000 + row * 0x10000 + col * 0x100)] ∧
    assemble (.gridrd row col) = some [BitVec.ofNat 32 (0x52000000 + row * 0x10000 + col * 0x100)]) ∧
  (∀ (row col : Nat) (val : CellOperand), row < 256 → col < 256 → cellNumber val < 256 →
    assemble (.gridwr row col val) =
      some [BitVec.ofNat 32 (0x51000000 + row * 0x10000 + col * 0x100 + cellNumber val)]) ∧
  (cellNumber .unset = 0 ∧ cellNumber .light = 2 ∧ cellNumber .dark = 3 ∧ ∀ n, cellNumber (.num n) = n) ∧
  (regIndex (.name .sa) = 0 ∧ regIndex (.name .la) = 1 ∧ regIndex (.name .sb) = 2 ∧ regIndex (.name .lb) = 3 ∧
    regIndex (.name .da) = 4 ∧ regIndex (.name .lr) = 8 ∧ regIndex (.name .res) = 9 ∧ regIndex (.name .ver) = 10 ∧
    regIndex (.name .size) = 11 ∧ regIndex (.name .seqlen) = 12 ∧ regIndex (.name .status) = 13 ∧
    ∀ i, regIndex (.q i) = i)

/-! ### Steps, reset, responses, refusals -/

/-- When the command word next on the port decodes to `i`, the step is `exec i` on the state without that word (R7,
R93). -/
def Obligations.StepRunsTheDecodedCommand : Prop :=
  ∀ (s : State) (w : Word) (rest : List HostInput) (i : Instr),
    s.inReset = false → s.inputs = .command w :: rest → decode w = .ok i →
    step s = exec i { s with inputs := rest }

/-- The model's own steps (log 1, log 3): nothing presented, nothing happens (R7); reset is asserted; while it is
asserted a command is not accepted and has no response (R320). -/
def Obligations.IdleAndAssertedResetSteps : Prop :=
  (∀ s : State, s.inputs = [] → step s = .next s) ∧
  (∀ (s : State) (rest : List HostInput), s.inputs = .resetAsserted :: rest →
    step s = .next { s with inputs := rest, inReset := true }) ∧
  (∀ (s : State) (w : Word) (rest : List HostInput), s.inReset = true → s.inputs = .command w :: rest →
    step s = .next { s with inputs := rest })

/-- Releasing reset gives the state of R40: all registers 0, `STATUS` 0x0000, no cell set, no sequence; every byte of
`CW` is a free value of the new epoch (R33, R320; log 5). -/
def Obligations.ResetReleaseGivesTheResetState : Prop :=
  ∀ (s : State) (rest : List HostInput), s.inReset = true → s.inputs = .resetReleased :: rest →
    ∃ t, step s = .next t ∧
      t.sa = 0 ∧ t.la = 0 ∧ t.sb = 0 ∧ t.lb = 0 ∧ t.da = 0 ∧ t.lr = 0 ∧ t.res = 0 ∧ t.ver = 0 ∧ t.size = 0 ∧
      t.seqlen = 0 ∧ t.status = 0x0000 ∧ t.seq = [] ∧
      (∀ c, rsvBit t.rsv c = false) ∧ (∀ c, gridCell t.grid c = .unset) ∧
      (∀ a, cwByte t a = Config.freeCwByte (s.epoch + 1) a) ∧
      t.inReset = false ∧ t.inputs = rest ∧ t.responses = s.responses

/-- The state right after reset holds the values R40 states; `CW` is unspecified, a free value (R33; log 5), and the
ports are empty by the model's choice (log 1, log 2). -/
def Obligations.ResetStateHoldsTheStatedValues : Prop :=
  (∀ r : BitVec 4, readRegister State.reset r = none ∨ readRegister State.reset r = some 0) ∧
  State.reset.status = 0x0000 ∧ State.reset.faulted = false ∧ State.reset.seqValid = false ∧
  State.reset.lastErr = 0x00 ∧ State.reset.size = 0 ∧ State.reset.seq = [] ∧
  (∀ a, cwByte State.reset a = Config.freeCwByte State.reset.epoch a) ∧
  State.reset.inReset = false ∧ State.reset.inputs = [] ∧ State.reset.responses = []

/-- R285: in the FAULTED state every command word, of any opcode, legal or not, is refused with `Halted` and no state
changes, not even `LASTERR`; only reset leaves the FAULTED state. -/
def Obligations.FaultedRefusesEveryWord : Prop :=
  (∀ (i : Instr) (s : State), s.faulted = true → exec i s = .next (haltedAfter s)) ∧
  (∀ (s : State) (w : Word) (rest : List HostInput), s.inReset = false → s.faulted = true →
    s.inputs = .command w :: rest → step s = .next (haltedAfter { s with inputs := rest })) ∧
  (∀ s t : State, s.faulted = true → step s = .next t → t.faulted = false →
    s.inReset = true ∧ ∃ rest, s.inputs = .resetReleased :: rest)

/-- The machine is a total function (R7): no step of it stops with a fault or a refusal of the model. -/
def Obligations.EveryStepHasANextState : Prop := ∀ s : State, ∃ t, step s = .next t

/-- R99: every command word, accepted or refused, produces exactly one response word, after the earlier ones: a status
code of R281 in bits 31:24, 0 in bits 23:16, the value in bits 15:0, which is 0 when the status is not 0x00. -/
def Obligations.EveryCommandGivesOneResponse : Prop :=
  ∀ (s : State) (w : Word) (rest : List HostInput), s.inReset = false → s.inputs = .command w :: rest →
    ∃ t r c, step s = .next t ∧ t.responses = s.responses ++ [r] ∧
      r.extractLsb' 24 8 = statusByte c ∧ c ≠ .capacityExceeded ∧ c ≠ .invalidCharacter ∧
      r.extractLsb' 16 8 = 0 ∧ (c ≠ .ok → r.extractLsb' 0 16 = 0)

/-- R283: a command refused with a code other than `Halted` (and not fatal) leaves exactly the state before it plus the
new `LASTERR`. -/
def Obligations.RefusalChangesOnlyLastErr : Prop :=
  ∀ (s t : State) (w r : Word) (rest : List HostInput), s.inReset = false → s.inputs = .command w :: rest →
    step s = .next t → t.responses = s.responses ++ [r] →
    r.extractLsb' 24 8 ≠ 0x00 → r.extractLsb' 24 8 ≠ 0x01 → r.extractLsb' 24 8 ≠ 0x0F →
    t = refusedWith { s with inputs := rest } (r.extractLsb' 24 8)

/-- A successful command other than CLRERR clears neither `LASTERR` nor `FAULTED` and sets neither (R28). -/
def Obligations.SuccessKeepsTheErrorRecord : Prop :=
  ∀ (i : Instr) (s t : State) (v : Half), exec i s = .next t → t.responses = s.responses ++ [v.setWidth 32] →
    i ≠ .clrerr → t.lastErr = s.lastErr ∧ t.faulted = s.faulted

/-- `FAULTED` is set only by a GFDIV with divisor 0 and by a PREM whose divisor has leading byte 0, and then nothing but
`STATUS` changes (R28, R284). -/
def Obligations.FaultedComesOnlyFromDivisionByZero : Prop :=
  ∀ (i : Instr) (s t : State), s.running → exec i s = .next t → t.faulted = true →
    ((∃ a, i = .gfdiv a 0) ∨ (i = .prem ∧ cwByte s s.sb.toNat = 0)) ∧ t = fatalAfter s

/-- R76: a successful RSVWR, RSVCLR or SETVER clears `SEQ_VALID` and zeroes `SEQLEN`; no other command clears it; only
SEQGEN sets it, and only SEQGEN writes `SEQ`. -/
def Obligations.SeqValidFollowsTheCacheRule : Prop :=
  ∀ (i : Instr) (s t : State), exec i s = .next t →
    (((∃ n, i = .setver n) ∨ i = .rsvclr ∨ ∃ r c v, i = .rsvwr r c v) →
      (∃ v : Half, t.responses = s.responses ++ [v.setWidth 32]) → t.seqValid = false ∧ t.seqlen = 0) ∧
    (s.seqValid = true → t.seqValid = false → (∃ n, i = .setver n) ∨ i = .rsvclr ∨ ∃ r c v, i = .rsvwr r c v) ∧
    (s.seqValid = false → t.seqValid = true → i = .seqgen) ∧
    (t.seq ≠ s.seq → i = .seqgen)

/-- Each register changes only in the commands R21 lists for it (R22 to R26, R28): no other command writes it. `STATUS`
is kept by every success but that of CLRERR, SEQGEN, SETVER, RSVWR and RSVCLR, and in the FAULTED state by all. -/
def Obligations.RegistersChangeOnlyInTheirCommands : Prop :=
  ∀ (i : Instr) (s t : State), exec i s = .next t →
    ((∀ r imm, i ≠ .setq r imm) → t.sa = s.sa ∧ t.la = s.la ∧ t.sb = s.sb ∧ t.lb = s.lb ∧ t.da = s.da) ∧
    (i ≠ .pmul → i ≠ .prem → (∀ n, i ≠ .genp n) → (∀ n, i ≠ .ecgen n) → t.lr = s.lr) ∧
    ((∀ a b, i ≠ .gfmul a b) → (∀ a b, i ≠ .gfdiv a b) → (∀ a, i ≠ .gfexp a) → (∀ a, i ≠ .gflog a) →
      t.res = s.res) ∧
    ((∀ n, i ≠ .setver n) → t.ver = s.ver ∧ t.size = s.size) ∧
    ((∀ n, i ≠ .setver n) → i ≠ .rsvclr → (∀ r c v, i ≠ .rsvwr r c v) → i ≠ .seqgen → t.seqlen = s.seqlen) ∧
    (i ≠ .clrerr → (∀ n, i ≠ .setver n) → i ≠ .rsvclr → (∀ r c v, i ≠ .rsvwr r c v) → i ≠ .seqgen →
      (∃ v : Half, t.responses = s.responses ++ [v.setWidth 32]) → t.status = s.status) ∧
    (s.faulted = true → t.status = s.status)

/-- Each memory changes only in the commands the spec lists for it: `CW` (R32), `RSV` (R34), `GRID` (R35), `SEQ` (R37).
Every byte and every cell reads as before any other command. -/
def Obligations.MemoriesChangeOnlyInTheirCommands : Prop :=
  ∀ (i : Instr) (s t : State), exec i s = .next t →
    ((∀ a d, i ≠ .cwwr a d) → i ≠ .pmul → i ≠ .prem → (∀ n, i ≠ .genp n) → (∀ n, i ≠ .ecgen n) →
      ∀ a, cwByte t a = cwByte s a) ∧
    ((∀ n, i ≠ .setver n) → i ≠ .rsvclr → (∀ r c v, i ≠ .rsvwr r c v) → ∀ c, rsvBit t.rsv c = rsvBit s.rsv c) ∧
    ((∀ n, i ≠ .setver n) → i ≠ .gridclr → (∀ r c v, i ≠ .gridwr r c v) → (∀ n, i ≠ .mplace n) →
      ∀ c, gridCell t.grid c = gridCell s.grid c) ∧
    (i ≠ .seqgen → t.seq = s.seq)

/-- The invariant holds right after reset. -/
def Obligations.InvariantHoldsAtReset : Prop := State.reset.Inv

/-- Every step keeps the invariant, from every state that meets it, whatever the host presents. -/
def Obligations.InvariantIsKeptByEveryStep : Prop := ∀ s t : State, s.Inv → step s = .next t → t.Inv

/-! ### The Galois-field unit -/

/-- R146: GFMUL writes `RES` and answers the product; an operand 0 gives 0, and the operands may be swapped. -/
def Obligations.GfmulResult : Prop :=
  ∀ (a b : Byte) (s : State), s.running →
    decode (0x10#8 ++ 0#8 ++ b ++ a) = .ok (.gfmul a b) ∧
    exec (.gfmul a b) s = .next { answered s ((gfMul a b).setWidth 16) with res := (gfMul a b).setWidth 16 } ∧
    (a = 0 ∨ b = 0 → gfMul a b = 0) ∧ gfMul a b = gfMul b a

/-- R147: GFDIV by 0 is fatal, and every later command is refused with `Halted`; else it writes `RES` and answers the
quotient. -/
def Obligations.GfdivResult : Prop :=
  ∀ (a b : Byte) (s : State), s.running →
    decode (0x11#8 ++ 0#8 ++ b ++ a) = .ok (.gfdiv a b) ∧
    (b = 0 → exec (.gfdiv a b) s = .next (fatalAfter s) ∧
      ∀ j, exec j (fatalAfter s) = .next (haltedAfter (fatalAfter s))) ∧
    (b ≠ 0 →
      exec (.gfdiv a b) s = .next { answered s ((gfDiv a b).setWidth 16) with res := (gfDiv a b).setWidth 16 })

/-- R148, R149: GFEXP and GFLOG write `RES` and answer the table entry; the two unspecified entries are refused with
`TableIndex`; the entry 0 of `EXP` is 1 and no entry is 0; the entry 1 of `LOG` is 0 and no entry is 255. -/
def Obligations.GfexpAndGflogResult : Prop :=
  ∀ (a : Byte) (s : State), s.running →
    decode (0x12#8 ++ 0#8 ++ 0#8 ++ a) = .ok (.gfexp a) ∧
    decode (0x13#8 ++ 0#8 ++ 0#8 ++ a) = .ok (.gflog a) ∧
    (a = 255 → exec (.gfexp a) s = .next (refusedWith s 0x0C)) ∧
    (a ≠ 255 →
      exec (.gfexp a) s = .next { answered s ((gfExp a).setWidth 16) with res := (gfExp a).setWidth 16 } ∧
      gfExp a ≠ 0 ∧ (a = 0 → gfExp a = 1)) ∧
    (a = 0 → exec (.gflog a) s = .next (refusedWith s 0x0C)) ∧
    (a ≠ 0 →
      exec (.gflog a) s = .next { answered s ((gfLog a).setWidth 16) with res := (gfLog a).setWidth 16 } ∧
      gfLog a ≠ 255 ∧ (a = 1 → gfLog a = 0))

/-- `gf_mul` by the tables equals the product of the two polynomials over GF(2) reduced modulo 0x11D (R150). -/
def Obligations.GfMulIsTheReducedProduct : Prop := ∀ a b : Byte, gfMul a b = gfMulBits a b

/-- `EXP` follows its construction, with alpha = 2 (R141; log 7): its 255 entries are distinct and not 0, the next power
is 1 again; `LOG` is its inverse (R142). -/
def Obligations.GaloisTablesAsConstructed : Prop :=
  (∀ e : Nat, e < 255 → (expMod e).toNat = expConstructed e ∧ expMod e ≠ 0) ∧
  (∀ e f : Nat, e < 255 → f < 255 → expMod e = expMod f → e = f) ∧ expConstructed 255 = 1 ∧
  (∀ v : Byte, v ≠ 0 → gfExp (gfLog v) = v) ∧ (∀ e : Byte, e ≠ 255 → gfLog (gfExp e) = e)

/-- The laws of multiply and divide (R145). -/
def Obligations.GfLawsHold : Prop :=
  (∀ a : Byte, gfMul a 0 = 0 ∧ gfMul 0 a = 0 ∧ gfMul a 1 = a ∧ gfDiv a 1 = a) ∧
  (∀ a b : Byte, gfMul a b = 0 → a = 0 ∨ b = 0) ∧
  (∀ a b : Byte, gfMul a b = gfMul b a) ∧
  (∀ a b c : Byte, gfMul (gfMul a b) c = gfMul a (gfMul b c)) ∧
  (∀ a b c : Byte, gfMul a (b ^^^ c) = gfMul a b ^^^ gfMul a c) ∧
  (∀ a b : Byte, b ≠ 0 → gfMul (gfDiv a b) b = a ∧ gfDiv (gfMul a b) b = a ∧ gfDiv b b = 1 ∧ gfDiv 0 b = 0) ∧
  gfMul 2 0x80 = 0x1D

/-! ### The polynomial unit -/

/-- R160: `poly_mul` is the convolution its two loops compute; its length is `len(p) + len(q) - 1`, its leading
coefficient the product of the leading coefficients, and it is commutative. -/
def Obligations.PolyMulIsTheConvolution : Prop :=
  ∀ p q : List Byte, p ≠ [] → q ≠ [] →
    polyMul p q = polyMulLoop p q ∧ (polyMul p q).length = p.length + q.length - 1 ∧
    (polyMul p q).head? = some (gfMul (p.headD 0) (q.headD 0)) ∧ polyMul p q = polyMul q p

/-- R161: `poly_rem` is the synthetic division its two loops compute, with `len(g) - 1` bytes for a result; the scale
`gf_div(x, g[0])` is the one that eliminates the leading coefficient `x`, is `x` itself for a monic divisor, and for
`x = 0` a step changes nothing. -/
def Obligations.PolyRemIsSyntheticDivision : Prop :=
  ∀ d g : List Byte, 1 ≤ g.length → g.length ≤ d.length → g.headD 0 ≠ 0 →
    polyRem d g = polyRemLoop d g ∧ (polyRem d g).length = g.length - 1 ∧
    (∀ x f : Byte, x ^^^ gfMul (g.headD 0) f = 0 ↔ f = gfDiv x (g.headD 0)) ∧
    (g.headD 0 = 1 → ∀ x : Byte, gfDiv x (g.headD 0) = x) ∧ ∀ b : Byte, gfMul b (gfDiv 0 (g.headD 0)) = 0

/-- `poly_rem` is the remainder of polynomial division: the dividend is a multiple of the divisor plus it (R162 items
(a) and (d)). -/
def Obligations.PolyRemIsTheRemainder : Prop :=
  ∀ d g : List Byte, 1 ≤ g.length → g.length ≤ d.length → g.headD 0 ≠ 0 →
    ∃ quo : List Byte, quo.length = d.length - g.length + 1 ∧
      d = xorSeq (polyMul quo g) (List.replicate (d.length - g.length + 1) 0 ++ polyRem d g)

/-- `poly_rem` is linear in the dividend (R162 item (e)). -/
def Obligations.PolyRemIsLinear : Prop :=
  ∀ d e g : List Byte, 1 ≤ g.length → g.length ≤ d.length → d.length = e.length → g.headD 0 ≠ 0 →
    polyRem (xorSeq d e) g = xorSeq (polyRem d g) (polyRem e g)

/-- `gen_poly(n)` is monic, has `n + 1` bytes, and its last byte is `EXP[(0 + 1 + ... + (n-1)) mod 255]`, not 0 (R184
items (a) to (c); log 7). -/
def Obligations.GenPolyIsMonic : Prop :=
  ∀ n : Nat, n ≤ 255 →
    (genPoly n).head? = some 1 ∧ (genPoly n).length = n + 1 ∧
    (genPoly n).getLast? = some (expMod (n * (n - 1) / 2)) ∧ (genPoly n).getLast? ≠ some 0

/-- The data followed by its error-correction codewords is a multiple of the generator polynomial (R181, R162). -/
def Obligations.EcCodewordsMakeAMultiple : Prop :=
  ∀ (data : List Byte) (total : Nat), 1 ≤ data.length → data.length ≤ total → total - data.length ≤ 255 →
    (ecCodewords data total).length = total - data.length ∧
    polyRem (data ++ ecCodewords data total) (genPoly (total - data.length)) =
      List.replicate (total - data.length) 0

/-- R163: PMUL, its refusals in order and its effect. -/
def Obligations.PmulResult : Prop :=
  ∀ s : State, s.running →
    decode 0x20000000 = .ok .pmul ∧
    (s.la = 0 ∨ s.lb = 0 → exec .pmul s = .next (refusedWith s 0x06)) ∧
    (s.la ≠ 0 → s.lb ≠ 0 →
      (s.sa.toNat + s.la.toNat > 4096 ∨ s.sb.toNat + s.lb.toNat > 4096 ∨
        s.da.toNat + (s.la.toNat + s.lb.toNat - 1) > 4096 → exec .pmul s = .next (refusedWith s 0x07)) ∧
      (s.sa.toNat + s.la.toNat ≤ 4096 → s.sb.toNat + s.lb.toNat ≤ 4096 →
        s.da.toNat + (s.la.toNat + s.lb.toNat - 1) ≤ 4096 →
        ∃ t, exec .pmul s = .next t ∧
          (polyMul (cwRead s s.sa.toNat s.la.toNat) (cwRead s s.sb.toNat s.lb.toNat)).length =
            s.la.toNat + s.lb.toNat - 1 ∧
          storedAtDest s t (polyMul (cwRead s s.sa.toNat s.la.toNat) (cwRead s s.sb.toNat s.lb.toNat))))

/-- R164: PREM, its refusals in order, the fatal zero divisor after them, and its effect. -/
def Obligations.PremResult : Prop :=
  ∀ s : State, s.running →
    decode 0x21000000 = .ok .prem ∧
    (s.la = 0 ∨ s.lb = 0 ∨ s.la.toNat < s.lb.toNat → exec .prem s = .next (refusedWith s 0x06)) ∧
    (s.lb ≠ 0 → s.lb.toNat ≤ s.la.toNat →
      (s.sa.toNat + s.la.toNat > 4096 ∨ s.sb.toNat + s.lb.toNat > 4096 ∨ s.da.toNat + (s.lb.toNat - 1) > 4096 →
        exec .prem s = .next (refusedWith s 0x07)) ∧
      (s.sa.toNat + s.la.toNat ≤ 4096 → s.sb.toNat + s.lb.toNat ≤ 4096 → s.da.toNat + (s.lb.toNat - 1) ≤ 4096 →
        (cwByte s s.sb.toNat = 0 → exec .prem s = .next (fatalAfter s)) ∧
        (cwByte s s.sb.toNat ≠ 0 →
          ∃ t, exec .prem s = .next t ∧
            (polyRem (cwRead s s.sa.toNat s.la.toNat) (cwRead s s.sb.toNat s.lb.toNat)).length = s.lb.toNat - 1 ∧
            storedAtDest s t (polyRem (cwRead s s.sa.toNat s.la.toNat) (cwRead s s.sb.toNat s.lb.toNat)))))

/-- R182: GENP, its refusals in order and its effect. -/
def Obligations.GenpResult : Prop :=
  ∀ (n : Half) (s : State), s.running →
    decode (0x22#8 ++ 0#8 ++ n) = .ok (.genp n) ∧
    (n.toNat > 255 → exec (.genp n) s = .next (refusedWith s 0x06)) ∧
    (n.toNat ≤ 255 →
      (s.da.toNat + (n.toNat + 1) > 4096 → exec (.genp n) s = .next (refusedWith s 0x07)) ∧
      (s.da.toNat + (n.toNat + 1) ≤ 4096 →
        ∃ t, exec (.genp n) s = .next t ∧ (genPoly n.toNat).length = n.toNat + 1 ∧
          storedAtDest s t (genPoly n.toNat)))

/-- R183: ECGEN, its refusals in order and its effect; it is never fatal. -/
def Obligations.EcgenResult : Prop :=
  ∀ (n : Half) (s : State), s.running →
    decode (0x23#8 ++ 0#8 ++ n) = .ok (.ecgen n) ∧
    (s.la = 0 ∨ n.toNat < s.la.toNat ∨ n.toNat > s.la.toNat + 255 ∨ n.toNat > 4096 →
      exec (.ecgen n) s = .next (refusedWith s 0x06)) ∧
    (s.la ≠ 0 → s.la.toNat ≤ n.toNat → n.toNat ≤ s.la.toNat + 255 → n.toNat ≤ 4096 →
      (s.sa.toNat + s.la.toNat > 4096 ∨ s.da.toNat + (n.toNat - s.la.toNat) > 4096 →
        exec (.ecgen n) s = .next (refusedWith s 0x07)) ∧
      (s.sa.toNat + s.la.toNat ≤ 4096 → s.da.toNat + (n.toNat - s.la.toNat) ≤ 4096 →
        ∃ t, exec (.ecgen n) s = .next t ∧
          (ecCodewords (cwRead s s.sa.toNat s.la.toNat) n.toNat).length = n.toNat - s.la.toNat ∧
          storedAtDest s t (ecCodewords (cwRead s s.sa.toNat s.la.toNat) n.toNat)))

/-! ### Control and buffer commands -/

/-- R121, R124: NOP changes nothing; CLRERR zeroes `LASTERR` and keeps the rest of `STATUS`. -/
def Obligations.NopAndClrerrResult : Prop :=
  ∀ s : State, s.running →
    decode 0x00000000 = .ok .nop ∧
    decode 0x03000000 = .ok .clrerr ∧
    exec .nop s = .next (answered s 0) ∧
    exec .clrerr s = .next { answered s 0 with status := s.status &&& 0x00FF }

/-- R122: SETQ writes one of `SA LA SB LB DA`, any value; every other index is refused with `BadIndex`. -/
def Obligations.SetqResult : Prop :=
  ∀ (imm : Half) (s : State), s.running →
    (∀ r : BitVec 4, decode (0x01#8 ++ 0#4 ++ r ++ imm) = .ok (.setq r imm)) ∧
    exec (.setq 0 imm) s = .next { answered s 0 with sa := imm } ∧
    exec (.setq 1 imm) s = .next { answered s 0 with la := imm } ∧
    exec (.setq 2 imm) s = .next { answered s 0 with sb := imm } ∧
    exec (.setq 3 imm) s = .next { answered s 0 with lb := imm } ∧
    exec (.setq 4 imm) s = .next { answered s 0 with da := imm } ∧
    ∀ r : BitVec 4, r.toNat > 4 → exec (.setq r imm) s = .next (refusedWith s 0x0D)

/-- R123: GETQ answers the register; a reserved index is refused with `BadIndex`. -/
def Obligations.GetqResult : Prop :=
  ∀ s : State, s.running →
    (∀ r : BitVec 4, decode (0x02#8 ++ 0#4 ++ r ++ 0#16) = .ok (.getq r)) ∧
    exec (.getq 0) s = .next (answered s s.sa) ∧ exec (.getq 1) s = .next (answered s s.la) ∧
    exec (.getq 2) s = .next (answered s s.sb) ∧ exec (.getq 3) s = .next (answered s s.lb) ∧
    exec (.getq 4) s = .next (answered s s.da) ∧ exec (.getq 8) s = .next (answered s s.lr) ∧
    exec (.getq 9) s = .next (answered s s.res) ∧ exec (.getq 10) s = .next (answered s s.ver) ∧
    exec (.getq 11) s = .next (answered s s.size) ∧ exec (.getq 12) s = .next (answered s s.seqlen) ∧
    exec (.getq 13) s = .next (answered s s.status) ∧
    ∀ r : BitVec 4, r ∈ [5, 6, 7, 14, 15] → exec (.getq r) s = .next (refusedWith s 0x0D)

/-- R125: SETVER writes `VER` and `SIZE`, clears `RSV`, `GRID`, `SEQ_VALID` and `SEQLEN`, and nothing else; version 0 and
versions above 40 are refused with `BadVersion`. -/
def Obligations.SetverResult : Prop :=
  ∀ (n : Half) (s : State), s.running →
    decode (0x04#8 ++ 0#8 ++ n) = .ok (.setver n) ∧
    (n = 0 ∨ n.toNat > 40 → exec (.setver n) s = .next (refusedWith s 0x08)) ∧
    (n ≠ 0 → n.toNat ≤ 40 →
      ∃ t, exec (.setver n) s = .next t ∧ t.size.toNat = 4 * n.toNat + 17 ∧
        t = { answered s t.size with
              ver := n, size := t.size, seqlen := 0, status := statusWithSeqValid s.status false,
              rsv := t.rsv, grid := t.grid } ∧
        (∀ c, rsvBit t.rsv c = false) ∧ ∀ c, gridCell t.grid c = .unset)

/-- R126: CWWR writes one byte of `CW`, every other byte reads as before; an address above 4095 is refused with
`AddressRange`. -/
def Obligations.CwwrResult : Prop :=
  ∀ (addr : Half) (data : Byte) (s : State), s.running →
    decode (0x30#8 ++ addr ++ data) = .ok (.cwwr addr data) ∧
    (addr.toNat ≥ 4096 → exec (.cwwr addr data) s = .next (refusedWith s 0x07)) ∧
    (addr.toNat < 4096 →
      ∃ t, exec (.cwwr addr data) s = .next t ∧ t = { answered s 0 with cw := t.cw } ∧
        ∀ a, cwByte t a = if a = addr.toNat then data else cwByte s a)

/-- R127: CWRD answers the byte and changes nothing; an address above 4095 is refused with `AddressRange`. A byte that no
command wrote since reset is the free value of its epoch and address (R33; the form of the free value is the model's,
log 5). -/
def Obligations.CwrdResult : Prop :=
  ∀ (addr : Half) (s : State), s.running →
    decode (0x31#8 ++ addr ++ 0#8) = .ok (.cwrd addr) ∧
    (addr.toNat ≥ 4096 → exec (.cwrd addr) s = .next (refusedWith s 0x07)) ∧
    (addr.toNat < 4096 → exec (.cwrd addr) s = .next (answered s ((cwByte s addr.toNat).setWidth 16))) ∧
    (addr.toNat < 4096 → cellsFind addr.toNat s.cw = none →
      exec (.cwrd addr) s = .next (answered s ((Config.freeCwByte s.epoch addr.toNat).setWidth 16)))

/-! ### The placement sequencer -/

/-- R203: RSVCLR clears every cell of `RSV`, `SEQ_VALID` and `SEQLEN`; an unconfigured block refuses with `BadVersion`. -/
def Obligations.RsvclrResult : Prop :=
  ∀ s : State, s.running →
    decode 0x40000000 = .ok .rsvclr ∧
    (s.ver = 0 → exec .rsvclr s = .next (refusedWith s 0x08)) ∧
    (s.ver ≠ 0 →
      ∃ t, exec .rsvclr s = .next t ∧
        t = { answered s 0 with rsv := t.rsv, seqlen := 0, status := statusWithSeqValid s.status false } ∧
        ∀ c, rsvBit t.rsv c = false)

/-- R204: RSVWR writes one cell of `RSV` and clears `SEQ_VALID` and `SEQLEN`; a coordinate outside the grid, then a value
above 1, is refused. -/
def Obligations.RsvwrResult : Prop :=
  ∀ (row col val : Byte) (s : State), s.running →
    decode (0x41#8 ++ row ++ col ++ val) = .ok (.rsvwr row col val) ∧
    (row.toNat ≥ s.size.toNat ∨ col.toNat ≥ s.size.toNat →
      exec (.rsvwr row col val) s = .next (refusedWith s 0x09)) ∧
    (row.toNat < s.size.toNat → col.toNat < s.size.toNat →
      (val.toNat > 1 → exec (.rsvwr row col val) s = .next (refusedWith s 0x0E)) ∧
      (val.toNat ≤ 1 →
        ∃ t, exec (.rsvwr row col val) s = .next t ∧
          t = { answered s 0 with rsv := t.rsv, seqlen := 0, status := statusWithSeqValid s.status false } ∧
          ∀ c, rsvBit t.rsv c = if c = ⟨row.toNat, col.toNat⟩ then val.toNat == 1 else rsvBit s.rsv c))

/-- R205: RSVRD answers the bit and changes nothing; a coordinate outside the grid is refused. -/
def Obligations.RsvrdResult : Prop :=
  ∀ (row col : Byte) (s : State), s.running →
    decode (0x42#8 ++ row ++ col ++ 0#8) = .ok (.rsvrd row col) ∧
    (row.toNat ≥ s.size.toNat ∨ col.toNat ≥ s.size.toNat → exec (.rsvrd row col) s = .next (refusedWith s 0x09)) ∧
    (row.toNat < s.size.toNat → col.toNat < s.size.toNat →
      exec (.rsvrd row col) s =
        .next (answered s (if rsvBit s.rsv ⟨row.toNat, col.toNat⟩ = true then 1 else 0)))

/-- R206: SEQGEN writes `SEQ` and `SEQLEN` from `SIZE` and `RSV` and sets `SEQ_VALID`; an unconfigured block refuses with
`BadVersion`. -/
def Obligations.SeqgenResult : Prop :=
  ∀ s : State, s.running →
    decode 0x43000000 = .ok .seqgen ∧
    (s.ver = 0 → exec .seqgen s = .next (refusedWith s 0x08)) ∧
    (s.ver ≠ 0 →
      exec .seqgen s =
        .next { answered s (BitVec.ofNat 16 (placementSequence s.size.toNat (rsvBit s.rsv)).length) with
                seq := placementSequence s.size.toNat (rsvBit s.rsv)
                seqlen := BitVec.ofNat 16 (placementSequence s.size.toNat (rsvBit s.rsv)).length
                status := statusWithSeqValid s.status true })

/-- R207: SEQRD answers `row * 256 + col` of the entry and changes nothing; without a valid sequence, then for an index
not below `SEQLEN`, it is refused. -/
def Obligations.SeqrdResult : Prop :=
  ∀ (n : Half) (s : State), s.running →
    decode (0x44#8 ++ 0#8 ++ n) = .ok (.seqrd n) ∧
    (s.seqValid = false → exec (.seqrd n) s = .next (refusedWith s 0x0A)) ∧
    (s.seqValid = true →
      (n.toNat ≥ s.seqlen.toNat → exec (.seqrd n) s = .next (refusedWith s 0x0D)) ∧
      (n.toNat < s.seqlen.toNat → ∀ c, s.seq[n.toNat]? = some c →
        exec (.seqrd n) s = .next (answered s (BitVec.ofNat 16 (c.row * 256 + c.col)))))

/-- The sequence visits exactly the unreserved cells outside column 6, each once (R202 item (b)). -/
def Obligations.PlacementVisitsEveryFreeCellOnce : Prop :=
  ∀ (side : Nat) (rsv : Coord → Bool), side % 2 = 1 → 21 ≤ side →
    (placementSequence side rsv).Nodup ∧ (placementSequence side rsv).length ≤ side * (side - 1) ∧
    ∀ c : Coord, c ∈ placementSequence side rsv ↔
      c.row < side ∧ c.col < side ∧ c.col ≠ 6 ∧ rsv c = false

/-- The loop of R201 runs through the column pairs of R202 item (a), in number, place and direction; inside a pair the
row falls on the way up and rises on the way down, and the right-hand cell comes before the left-hand one; the first
entries are those of R202 item (c) (log 8). -/
def Obligations.PlacementRunsByPairs : Prop :=
  ∀ (side : Nat) (rsv : Coord → Bool), side % 2 = 1 → 21 ≤ side →
    placementSequence side rsv = placementByPairs side rsv ∧
    (∀ (right k : Nat) (up : Bool), k < side →
      (pairCells side (fun _ => false) right up)[2 * k]? = some ⟨if up = true then side - 1 - k else k, right⟩ ∧
      (pairCells side (fun _ => false) right up)[2 * k + 1]? =
        some ⟨if up = true then side - 1 - k else k, right - 1⟩ ∧
      pairCells side rsv right up = (pairCells side (fun _ => false) right up).filter fun c => !rsv c) ∧
    (rsv ⟨side - 1, side - 1⟩ = false → (placementSequence side rsv)[0]? = some ⟨side - 1, side - 1⟩) ∧
    (rsv ⟨side - 1, side - 1⟩ = false → rsv ⟨side - 1, side - 2⟩ = false → rsv ⟨side - 2, side - 1⟩ = false →
      rsv ⟨side - 2, side - 2⟩ = false →
      (placementSequence side rsv).take 4 =
        [⟨side - 1, side - 1⟩, ⟨side - 1, side - 2⟩, ⟨side - 2, side - 1⟩, ⟨side - 2, side - 2⟩])

/-! ### The mask pipeline -/

/-- R223: GRIDCLR makes every cell `unset` and keeps everything else; an unconfigured block refuses with `BadVersion`. -/
def Obligations.GridclrResult : Prop :=
  ∀ s : State, s.running →
    decode 0x50000000 = .ok .gridclr ∧
    (s.ver = 0 → exec .gridclr s = .next (refusedWith s 0x08)) ∧
    (s.ver ≠ 0 →
      ∃ t, exec .gridclr s = .next t ∧ t = { answered s 0 with grid := t.grid } ∧ ∀ c, gridCell t.grid c = .unset)

/-- R224: GRIDWR writes one cell of `GRID`; a coordinate outside the grid, then a code other than 0, 2 and 3, is
refused. -/
def Obligations.GridwrResult : Prop :=
  ∀ (row col val : Byte) (s : State), s.running →
    decode (0x51#8 ++ row ++ col ++ val) = .ok (.gridwr row col val) ∧
    (row.toNat ≥ s.size.toNat ∨ col.toNat ≥ s.size.toNat →
      exec (.gridwr row col val) s = .next (refusedWith s 0x09)) ∧
    (row.toNat < s.size.toNat → col.toNat < s.size.toNat →
      (val ≠ 0 → val ≠ 2 → val ≠ 3 → exec (.gridwr row col val) s = .next (refusedWith s 0x0E)) ∧
      (val = 0 ∨ val = 2 ∨ val = 3 →
        ∃ t, exec (.gridwr row col val) s = .next t ∧ t = { answered s 0 with grid := t.grid } ∧
          ∀ c, gridCell t.grid c =
            if c = ⟨row.toNat, col.toNat⟩ then
              (if val = 0 then .unset else if val = 2 then .light else .dark)
            else gridCell s.grid c))

/-- R225: GRIDRD answers the cell's code and changes nothing; a coordinate outside the grid is refused. -/
def Obligations.GridrdResult : Prop :=
  ∀ (row col : Byte) (s : State), s.running →
    decode (0x52#8 ++ row ++ col ++ 0#8) = .ok (.gridrd row col) ∧
    (row.toNat ≥ s.size.toNat ∨ col.toNat ≥ s.size.toNat → exec (.gridrd row col) s = .next (refusedWith s 0x09)) ∧
    (row.toNat < s.size.toNat → col.toNat < s.size.toNat →
      (gridCell s.grid ⟨row.toNat, col.toNat⟩ = .unset → exec (.gridrd row col) s = .next (answered s 0)) ∧
      (gridCell s.grid ⟨row.toNat, col.toNat⟩ = .light → exec (.gridrd row col) s = .next (answered s 2)) ∧
      (gridCell s.grid ⟨row.toNat, col.toNat⟩ = .dark → exec (.gridrd row col) s = .next (answered s 3)))

/-- R226: MPLACE, its refusals in order and its effect: the cell of entry `k` is `dark` when bit `k` of the sequence XOR
the machine's `MASKFN` (log 6) is 1, else `light`; a cell that is no entry keeps its value; nothing else changes. -/
def Obligations.MplaceResult : Prop :=
  ∀ (n : Half) (s : State), s.running →
    decode (0x53#8 ++ 0#8 ++ n) = .ok (.mplace n) ∧
    (n.toNat > 7 → exec (.mplace n) s = .next (refusedWith s 0x02)) ∧
    (n.toNat ≤ 7 →
      (s.seqValid = false → exec (.mplace n) s = .next (refusedWith s 0x0A)) ∧
      (s.seqValid = true →
        (s.sa.toNat + s.la.toNat > 4096 → exec (.mplace n) s = .next (refusedWith s 0x07)) ∧
        (s.sa.toNat + s.la.toNat ≤ 4096 →
          (8 * s.la.toNat < s.seqlen.toNat → exec (.mplace n) s = .next (refusedWith s 0x0B)) ∧
          (s.seqlen.toNat ≤ 8 * s.la.toNat →
            ∃ t, exec (.mplace n) s = .next t ∧ t = { answered s s.seqlen with grid := t.grid } ∧
              (∀ c, c ∉ s.seq.take s.seqlen.toNat → gridCell t.grid c = gridCell s.grid c) ∧
              ((s.seq.take s.seqlen.toNat).Nodup →
                ∀ (k : Nat) (c : Coord), k < s.seqlen.toNat → s.seq[k]? = some c →
                  gridCell t.grid c =
                    if (seqBit (cwRead s s.sa.toNat s.la.toNat) k ^^ maskFn n.toNat c.row c.col) = true then .dark
                    else .light)))))

/-- R222: placing, for every mask predicate: over a sequence without repeats, for which there are bits enough (R221), each
cell of it gets its own bit XOR the mask, 1 being `dark`; every cell not in the sequence keeps its value. -/
def Obligations.PlaceWritesTheMaskedBits : Prop :=
  ∀ (mask : Nat → Nat → Bool) (g : Grid) (seq : List Coord) (bytes : List Byte),
    (∀ c, c ∉ seq → gridCell (place mask g seq bytes) c = gridCell g c) ∧
    (seq.Nodup → seq.length ≤ 8 * bytes.length → ∀ (k : Nat) (c : Coord), seq[k]? = some c →
      gridCell (place mask g seq bytes) c =
        if ((bytes.getD (k / 8) 0).getLsbD (7 - k % 8) ^^ mask c.row c.col) = true then .dark else .light)

/-- Placing the complemented bits complements every placed cell; an all-zero sequence shows the mask itself (R229). -/
def Obligations.PlaceOfComplementedBits : Prop :=
  ∀ (mask : Nat → Nat → Bool) (g : Grid) (seq : List Coord) (bytes : List Byte),
    seq.Nodup → seq.length ≤ 8 * bytes.length →
    ∀ c ∈ seq,
      (gridCell (place mask g seq (bytes.map (~~~ ·))) c = .dark ↔ gridCell (place mask g seq bytes) c = .light) ∧
      (gridCell (place mask g seq (List.replicate bytes.length 0)) c = .dark ↔ mask c.row c.col = true)

/-! ### The host's software -/

/-- The byte-mode encoder fails exactly on a character above 255 and on a payload that does not fit, and else answers
exactly `D` codewords (R244 to R246; the parameters are arguments, log 15). -/
def Obligations.EncoderFillsTheDataCodewords : Prop :=
  ∀ (text : List Nat) (D L : Nat),
    ((∃ c ∈ text, c > 255) → byteModeEncode text D L = .error .invalidCharacter) ∧
    ((∀ c ∈ text, c ≤ 255) →
      (text.length ≥ 2 ^ L ∨ 4 + L + 8 * text.length > 8 * D →
        byteModeEncode text D L = .error .capacityExceeded) ∧
      (text.length < 2 ^ L → 4 + L + 8 * text.length ≤ 8 * D →
        ∃ cw, byteModeEncode text D L = .ok cw ∧ cw.length = D))

/-- R254: the overlay applied twice leaves the grid that it leaves applied once. -/
def Obligations.OverlayIsIdempotent : Prop :=
  ∀ (side : Nat) (align : Option Coord) (g : Grid) (c : Coord),
    gridCell (applyStamps (applyStamps g (overlayStamps side align)) (overlayStamps side align)) c =
      gridCell (applyStamps g (overlayStamps side align)) c

/-- Assembly on the block (R256, R258; log 20). What one command comes to: its value after a success, the error of its
status otherwise. The abort: after the first command, or the first line, that fails, nothing of the rest is issued. A run
of lines that ends without an error had a success for every command of every line, and its values are theirs. A read-out
that ends without an error gives every cell of the block's grid. For the whole assembly: a failed encoding issues no
command; a mask index above 7 and an illegal version end in an error; with an error, every response but the last was a
success, and a last one that was none gives the error; with a result, every response was a success and the result is the
code of every cell of the block's grid, row by row. -/
def Obligations.AssemblyAbortsOnTheFirstFailure : Prop :=
  (∀ (w : Word) (s t : State) (r : Word), step (s.present w) = .next t → t.responses.getLast? = some r →
    (r.extractLsb' 24 8 = 0x00 → issue w s = (t, .ok (r.extractLsb' 0 16))) ∧
    (r.extractLsb' 24 8 = 0x02 → issue w s = (t, .error .invalidMaskIndex)) ∧
    (r.extractLsb' 24 8 ≠ 0x00 → r.extractLsb' 24 8 ≠ 0x02 →
      issue w s = (t, .error (.refused (r.extractLsb' 24 8))))) ∧
  (∀ (ws : List Word) (w : Word) (rest : List Word) (s t : State) (vs : List Half) (e : HostError),
    issueAll ws s = (t, .ok vs) → (issue w t).2 = .error e →
      issueAll (ws ++ w :: rest) s = ((issue w t).1, .error e)) ∧
  (∀ (lines : List AsmLine) (l : AsmLine) (rest : List AsmLine) (s t : State) (vs : List Half),
    runLines lines s = (t, .ok vs) →
      (assemble l = none → runLines (lines ++ l :: rest) s = (t, .error (lineError l))) ∧
      ∀ ws e, assemble l = some ws → (issueAll ws t).2 = .error e →
        runLines (lines ++ l :: rest) s = ((issueAll ws t).1, .error e)) ∧
  (∀ (lines : List AsmLine) (s t : State) (vs : List Half), runLines lines s = (t, .ok vs) →
    ∃ rs : List Word, t.responses = s.responses ++ rs ∧ rs.map (·.extractLsb' 0 16) = vs ∧
      (∀ l ∈ lines, asmWellFormed l = true) ∧ vs.length = (lines.flatMap expand).length ∧
      ∀ r ∈ rs, r.extractLsb' 24 8 = 0x00) ∧
  (∀ (side : Nat) (s t : State) (g : List Half), runLines (readOutLines side) s = (t, .ok g) →
    t.grid = s.grid ∧ g = (rectCells 0 0 side side).map fun d => codeOfCell (gridCell s.grid d)) ∧
  (∀ (c : SymbolConfig) (text : List Nat) (m : Nat) (s : State) (e : HostError),
    byteModeEncode text c.dataCodewords c.lengthBits = .error e → assembleSymbol c text m s = (s, .error e)) ∧
  (∀ (c : SymbolConfig) (text : List Nat) (m : Nat) (s : State),
    m > 7 ∨ c.version = 0 ∨ c.version > 40 → ∃ e, (assembleSymbol c text m s).2 = .error e) ∧
  (∀ (c : SymbolConfig) (text : List Nat) (m : Nat) (s t : State) (e : HostError),
    assembleSymbol c text m s = (t, .error e) →
      ∃ rs : List Word, t.responses = s.responses ++ rs ∧ (∀ r ∈ rs.dropLast, r.extractLsb' 24 8 = 0x00) ∧
        ∀ r, rs.getLast? = some r → r.extractLsb' 24 8 ≠ 0x00 → e = hostErrorOf (r.extractLsb' 24 8)) ∧
  (∀ (c : SymbolConfig) (text : List Nat) (m : Nat) (s t : State) (g : List Half),
    assembleSymbol c text m s = (t, .ok g) →
      (∃ rs : List Word, t.responses = s.responses ++ rs ∧ ∀ r ∈ rs, r.extractLsb' 24 8 = 0x00) ∧
        g = (rectCells 0 0 c.side c.side).map fun d => codeOfCell (gridCell t.grid d))
end

