-- ==== Sys2Proof/Laws/State.lean ====
section
/-! SUPPORT. One lemma per field for each update of the state, so that no proof unfolds a record update. -/

namespace Sys2Proof.Machine.State

variable (s : State)

section
variable (v : Half)
@[simp] theorem withSa_sa : (s.withSa v).sa = v := rfl
@[simp] theorem withSa_la : (s.withSa v).la = s.la := rfl
@[simp] theorem withSa_sb : (s.withSa v).sb = s.sb := rfl
@[simp] theorem withSa_lb : (s.withSa v).lb = s.lb := rfl
@[simp] theorem withSa_da : (s.withSa v).da = s.da := rfl
@[simp] theorem withSa_lr : (s.withSa v).lr = s.lr := rfl
@[simp] theorem withSa_res : (s.withSa v).res = s.res := rfl
@[simp] theorem withSa_ver : (s.withSa v).ver = s.ver := rfl
@[simp] theorem withSa_size : (s.withSa v).size = s.size := rfl
@[simp] theorem withSa_seqlen : (s.withSa v).seqlen = s.seqlen := rfl
@[simp] theorem withSa_status : (s.withSa v).status = s.status := rfl
@[simp] theorem withSa_cw : (s.withSa v).cw = s.cw := rfl
@[simp] theorem withSa_rsv : (s.withSa v).rsv = s.rsv := rfl
@[simp] theorem withSa_grid : (s.withSa v).grid = s.grid := rfl
@[simp] theorem withSa_seq : (s.withSa v).seq = s.seq := rfl
@[simp] theorem withSa_inputs : (s.withSa v).inputs = s.inputs := rfl
@[simp] theorem withSa_responses : (s.withSa v).responses = s.responses := rfl
@[simp] theorem withSa_inReset : (s.withSa v).inReset = s.inReset := rfl
@[simp] theorem withSa_epoch : (s.withSa v).epoch = s.epoch := rfl
end

section
variable (v : Half)
@[simp] theorem withLa_sa : (s.withLa v).sa = s.sa := rfl
@[simp] theorem withLa_la : (s.withLa v).la = v := rfl
@[simp] theorem withLa_sb : (s.withLa v).sb = s.sb := rfl
@[simp] theorem withLa_lb : (s.withLa v).lb = s.lb := rfl
@[simp] theorem withLa_da : (s.withLa v).da = s.da := rfl
@[simp] theorem withLa_lr : (s.withLa v).lr = s.lr := rfl
@[simp] theorem withLa_res : (s.withLa v).res = s.res := rfl
@[simp] theorem withLa_ver : (s.withLa v).ver = s.ver := rfl
@[simp] theorem withLa_size : (s.withLa v).size = s.size := rfl
@[simp] theorem withLa_seqlen : (s.withLa v).seqlen = s.seqlen := rfl
@[simp] theorem withLa_status : (s.withLa v).status = s.status := rfl
@[simp] theorem withLa_cw : (s.withLa v).cw = s.cw := rfl
@[simp] theorem withLa_rsv : (s.withLa v).rsv = s.rsv := rfl
@[simp] theorem withLa_grid : (s.withLa v).grid = s.grid := rfl
@[simp] theorem withLa_seq : (s.withLa v).seq = s.seq := rfl
@[simp] theorem withLa_inputs : (s.withLa v).inputs = s.inputs := rfl
@[simp] theorem withLa_responses : (s.withLa v).responses = s.responses := rfl
@[simp] theorem withLa_inReset : (s.withLa v).inReset = s.inReset := rfl
@[simp] theorem withLa_epoch : (s.withLa v).epoch = s.epoch := rfl
end

section
variable (v : Half)
@[simp] theorem withSb_sa : (s.withSb v).sa = s.sa := rfl
@[simp] theorem withSb_la : (s.withSb v).la = s.la := rfl
@[simp] theorem withSb_sb : (s.withSb v).sb = v := rfl
@[simp] theorem withSb_lb : (s.withSb v).lb = s.lb := rfl
@[simp] theorem withSb_da : (s.withSb v).da = s.da := rfl
@[simp] theorem withSb_lr : (s.withSb v).lr = s.lr := rfl
@[simp] theorem withSb_res : (s.withSb v).res = s.res := rfl
@[simp] theorem withSb_ver : (s.withSb v).ver = s.ver := rfl
@[simp] theorem withSb_size : (s.withSb v).size = s.size := rfl
@[simp] theorem withSb_seqlen : (s.withSb v).seqlen = s.seqlen := rfl
@[simp] theorem withSb_status : (s.withSb v).status = s.status := rfl
@[simp] theorem withSb_cw : (s.withSb v).cw = s.cw := rfl
@[simp] theorem withSb_rsv : (s.withSb v).rsv = s.rsv := rfl
@[simp] theorem withSb_grid : (s.withSb v).grid = s.grid := rfl
@[simp] theorem withSb_seq : (s.withSb v).seq = s.seq := rfl
@[simp] theorem withSb_inputs : (s.withSb v).inputs = s.inputs := rfl
@[simp] theorem withSb_responses : (s.withSb v).responses = s.responses := rfl
@[simp] theorem withSb_inReset : (s.withSb v).inReset = s.inReset := rfl
@[simp] theorem withSb_epoch : (s.withSb v).epoch = s.epoch := rfl
end

section
variable (v : Half)
@[simp] theorem withLb_sa : (s.withLb v).sa = s.sa := rfl
@[simp] theorem withLb_la : (s.withLb v).la = s.la := rfl
@[simp] theorem withLb_sb : (s.withLb v).sb = s.sb := rfl
@[simp] theorem withLb_lb : (s.withLb v).lb = v := rfl
@[simp] theorem withLb_da : (s.withLb v).da = s.da := rfl
@[simp] theorem withLb_lr : (s.withLb v).lr = s.lr := rfl
@[simp] theorem withLb_res : (s.withLb v).res = s.res := rfl
@[simp] theorem withLb_ver : (s.withLb v).ver = s.ver := rfl
@[simp] theorem withLb_size : (s.withLb v).size = s.size := rfl
@[simp] theorem withLb_seqlen : (s.withLb v).seqlen = s.seqlen := rfl
@[simp] theorem withLb_status : (s.withLb v).status = s.status := rfl
@[simp] theorem withLb_cw : (s.withLb v).cw = s.cw := rfl
@[simp] theorem withLb_rsv : (s.withLb v).rsv = s.rsv := rfl
@[simp] theorem withLb_grid : (s.withLb v).grid = s.grid := rfl
@[simp] theorem withLb_seq : (s.withLb v).seq = s.seq := rfl
@[simp] theorem withLb_inputs : (s.withLb v).inputs = s.inputs := rfl
@[simp] theorem withLb_responses : (s.withLb v).responses = s.responses := rfl
@[simp] theorem withLb_inReset : (s.withLb v).inReset = s.inReset := rfl
@[simp] theorem withLb_epoch : (s.withLb v).epoch = s.epoch := rfl
end

section
variable (v : Half)
@[simp] theorem withDa_sa : (s.withDa v).sa = s.sa := rfl
@[simp] theorem withDa_la : (s.withDa v).la = s.la := rfl
@[simp] theorem withDa_sb : (s.withDa v).sb = s.sb := rfl
@[simp] theorem withDa_lb : (s.withDa v).lb = s.lb := rfl
@[simp] theorem withDa_da : (s.withDa v).da = v := rfl
@[simp] theorem withDa_lr : (s.withDa v).lr = s.lr := rfl
@[simp] theorem withDa_res : (s.withDa v).res = s.res := rfl
@[simp] theorem withDa_ver : (s.withDa v).ver = s.ver := rfl
@[simp] theorem withDa_size : (s.withDa v).size = s.size := rfl
@[simp] theorem withDa_seqlen : (s.withDa v).seqlen = s.seqlen := rfl
@[simp] theorem withDa_status : (s.withDa v).status = s.status := rfl
@[simp] theorem withDa_cw : (s.withDa v).cw = s.cw := rfl
@[simp] theorem withDa_rsv : (s.withDa v).rsv = s.rsv := rfl
@[simp] theorem withDa_grid : (s.withDa v).grid = s.grid := rfl
@[simp] theorem withDa_seq : (s.withDa v).seq = s.seq := rfl
@[simp] theorem withDa_inputs : (s.withDa v).inputs = s.inputs := rfl
@[simp] theorem withDa_responses : (s.withDa v).responses = s.responses := rfl
@[simp] theorem withDa_inReset : (s.withDa v).inReset = s.inReset := rfl
@[simp] theorem withDa_epoch : (s.withDa v).epoch = s.epoch := rfl
end

section
variable (v : Half)
@[simp] theorem withLr_sa : (s.withLr v).sa = s.sa := rfl
@[simp] theorem withLr_la : (s.withLr v).la = s.la := rfl
@[simp] theorem withLr_sb : (s.withLr v).sb = s.sb := rfl
@[simp] theorem withLr_lb : (s.withLr v).lb = s.lb := rfl
@[simp] theorem withLr_da : (s.withLr v).da = s.da := rfl
@[simp] theorem withLr_lr : (s.withLr v).lr = v := rfl
@[simp] theorem withLr_res : (s.withLr v).res = s.res := rfl
@[simp] theorem withLr_ver : (s.withLr v).ver = s.ver := rfl
@[simp] theorem withLr_size : (s.withLr v).size = s.size := rfl
@[simp] theorem withLr_seqlen : (s.withLr v).seqlen = s.seqlen := rfl
@[simp] theorem withLr_status : (s.withLr v).status = s.status := rfl
@[simp] theorem withLr_cw : (s.withLr v).cw = s.cw := rfl
@[simp] theorem withLr_rsv : (s.withLr v).rsv = s.rsv := rfl
@[simp] theorem withLr_grid : (s.withLr v).grid = s.grid := rfl
@[simp] theorem withLr_seq : (s.withLr v).seq = s.seq := rfl
@[simp] theorem withLr_inputs : (s.withLr v).inputs = s.inputs := rfl
@[simp] theorem withLr_responses : (s.withLr v).responses = s.responses := rfl
@[simp] theorem withLr_inReset : (s.withLr v).inReset = s.inReset := rfl
@[simp] theorem withLr_epoch : (s.withLr v).epoch = s.epoch := rfl
end

section
variable (v : Half)
@[simp] theorem withRes_sa : (s.withRes v).sa = s.sa := rfl
@[simp] theorem withRes_la : (s.withRes v).la = s.la := rfl
@[simp] theorem withRes_sb : (s.withRes v).sb = s.sb := rfl
@[simp] theorem withRes_lb : (s.withRes v).lb = s.lb := rfl
@[simp] theorem withRes_da : (s.withRes v).da = s.da := rfl
@[simp] theorem withRes_lr : (s.withRes v).lr = s.lr := rfl
@[simp] theorem withRes_res : (s.withRes v).res = v := rfl
@[simp] theorem withRes_ver : (s.withRes v).ver = s.ver := rfl
@[simp] theorem withRes_size : (s.withRes v).size = s.size := rfl
@[simp] theorem withRes_seqlen : (s.withRes v).seqlen = s.seqlen := rfl
@[simp] theorem withRes_status : (s.withRes v).status = s.status := rfl
@[simp] theorem withRes_cw : (s.withRes v).cw = s.cw := rfl
@[simp] theorem withRes_rsv : (s.withRes v).rsv = s.rsv := rfl
@[simp] theorem withRes_grid : (s.withRes v).grid = s.grid := rfl
@[simp] theorem withRes_seq : (s.withRes v).seq = s.seq := rfl
@[simp] theorem withRes_inputs : (s.withRes v).inputs = s.inputs := rfl
@[simp] theorem withRes_responses : (s.withRes v).responses = s.responses := rfl
@[simp] theorem withRes_inReset : (s.withRes v).inReset = s.inReset := rfl
@[simp] theorem withRes_epoch : (s.withRes v).epoch = s.epoch := rfl
end

section
variable (v : Half)
@[simp] theorem withSeqlen_sa : (s.withSeqlen v).sa = s.sa := rfl
@[simp] theorem withSeqlen_la : (s.withSeqlen v).la = s.la := rfl
@[simp] theorem withSeqlen_sb : (s.withSeqlen v).sb = s.sb := rfl
@[simp] theorem withSeqlen_lb : (s.withSeqlen v).lb = s.lb := rfl
@[simp] theorem withSeqlen_da : (s.withSeqlen v).da = s.da := rfl
@[simp] theorem withSeqlen_lr : (s.withSeqlen v).lr = s.lr := rfl
@[simp] theorem withSeqlen_res : (s.withSeqlen v).res = s.res := rfl
@[simp] theorem withSeqlen_ver : (s.withSeqlen v).ver = s.ver := rfl
@[simp] theorem withSeqlen_size : (s.withSeqlen v).size = s.size := rfl
@[simp] theorem withSeqlen_seqlen : (s.withSeqlen v).seqlen = v := rfl
@[simp] theorem withSeqlen_status : (s.withSeqlen v).status = s.status := rfl
@[simp] theorem withSeqlen_cw : (s.withSeqlen v).cw = s.cw := rfl
@[simp] theorem withSeqlen_rsv : (s.withSeqlen v).rsv = s.rsv := rfl
@[simp] theorem withSeqlen_grid : (s.withSeqlen v).grid = s.grid := rfl
@[simp] theorem withSeqlen_seq : (s.withSeqlen v).seq = s.seq := rfl
@[simp] theorem withSeqlen_inputs : (s.withSeqlen v).inputs = s.inputs := rfl
@[simp] theorem withSeqlen_responses : (s.withSeqlen v).responses = s.responses := rfl
@[simp] theorem withSeqlen_inReset : (s.withSeqlen v).inReset = s.inReset := rfl
@[simp] theorem withSeqlen_epoch : (s.withSeqlen v).epoch = s.epoch := rfl
end

section
variable (v : Half)
@[simp] theorem withStatus_sa : (s.withStatus v).sa = s.sa := rfl
@[simp] theorem withStatus_la : (s.withStatus v).la = s.la := rfl
@[simp] theorem withStatus_sb : (s.withStatus v).sb = s.sb := rfl
@[simp] theorem withStatus_lb : (s.withStatus v).lb = s.lb := rfl
@[simp] theorem withStatus_da : (s.withStatus v).da = s.da := rfl
@[simp] theorem withStatus_lr : (s.withStatus v).lr = s.lr := rfl
@[simp] theorem withStatus_res : (s.withStatus v).res = s.res := rfl
@[simp] theorem withStatus_ver : (s.withStatus v).ver = s.ver := rfl
@[simp] theorem withStatus_size : (s.withStatus v).size = s.size := rfl
@[simp] theorem withStatus_seqlen : (s.withStatus v).seqlen = s.seqlen := rfl
@[simp] theorem withStatus_status : (s.withStatus v).status = v := rfl
@[simp] theorem withStatus_cw : (s.withStatus v).cw = s.cw := rfl
@[simp] theorem withStatus_rsv : (s.withStatus v).rsv = s.rsv := rfl
@[simp] theorem withStatus_grid : (s.withStatus v).grid = s.grid := rfl
@[simp] theorem withStatus_seq : (s.withStatus v).seq = s.seq := rfl
@[simp] theorem withStatus_inputs : (s.withStatus v).inputs = s.inputs := rfl
@[simp] theorem withStatus_responses : (s.withStatus v).responses = s.responses := rfl
@[simp] theorem withStatus_inReset : (s.withStatus v).inReset = s.inReset := rfl
@[simp] theorem withStatus_epoch : (s.withStatus v).epoch = s.epoch := rfl
end

section
variable (v : Memory)
@[simp] theorem withCw_sa : (s.withCw v).sa = s.sa := rfl
@[simp] theorem withCw_la : (s.withCw v).la = s.la := rfl
@[simp] theorem withCw_sb : (s.withCw v).sb = s.sb := rfl
@[simp] theorem withCw_lb : (s.withCw v).lb = s.lb := rfl
@[simp] theorem withCw_da : (s.withCw v).da = s.da := rfl
@[simp] theorem withCw_lr : (s.withCw v).lr = s.lr := rfl
@[simp] theorem withCw_res : (s.withCw v).res = s.res := rfl
@[simp] theorem withCw_ver : (s.withCw v).ver = s.ver := rfl
@[simp] theorem withCw_size : (s.withCw v).size = s.size := rfl
@[simp] theorem withCw_seqlen : (s.withCw v).seqlen = s.seqlen := rfl
@[simp] theorem withCw_status : (s.withCw v).status = s.status := rfl
@[simp] theorem withCw_cw : (s.withCw v).cw = v := rfl
@[simp] theorem withCw_rsv : (s.withCw v).rsv = s.rsv := rfl
@[simp] theorem withCw_grid : (s.withCw v).grid = s.grid := rfl
@[simp] theorem withCw_seq : (s.withCw v).seq = s.seq := rfl
@[simp] theorem withCw_inputs : (s.withCw v).inputs = s.inputs := rfl
@[simp] theorem withCw_responses : (s.withCw v).responses = s.responses := rfl
@[simp] theorem withCw_inReset : (s.withCw v).inReset = s.inReset := rfl
@[simp] theorem withCw_epoch : (s.withCw v).epoch = s.epoch := rfl
end

section
variable (v : ReservedMap)
@[simp] theorem withRsv_sa : (s.withRsv v).sa = s.sa := rfl
@[simp] theorem withRsv_la : (s.withRsv v).la = s.la := rfl
@[simp] theorem withRsv_sb : (s.withRsv v).sb = s.sb := rfl
@[simp] theorem withRsv_lb : (s.withRsv v).lb = s.lb := rfl
@[simp] theorem withRsv_da : (s.withRsv v).da = s.da := rfl
@[simp] theorem withRsv_lr : (s.withRsv v).lr = s.lr := rfl
@[simp] theorem withRsv_res : (s.withRsv v).res = s.res := rfl
@[simp] theorem withRsv_ver : (s.withRsv v).ver = s.ver := rfl
@[simp] theorem withRsv_size : (s.withRsv v).size = s.size := rfl
@[simp] theorem withRsv_seqlen : (s.withRsv v).seqlen = s.seqlen := rfl
@[simp] theorem withRsv_status : (s.withRsv v).status = s.status := rfl
@[simp] theorem withRsv_cw : (s.withRsv v).cw = s.cw := rfl
@[simp] theorem withRsv_rsv : (s.withRsv v).rsv = v := rfl
@[simp] theorem withRsv_grid : (s.withRsv v).grid = s.grid := rfl
@[simp] theorem withRsv_seq : (s.withRsv v).seq = s.seq := rfl
@[simp] theorem withRsv_inputs : (s.withRsv v).inputs = s.inputs := rfl
@[simp] theorem withRsv_responses : (s.withRsv v).responses = s.responses := rfl
@[simp] theorem withRsv_inReset : (s.withRsv v).inReset = s.inReset := rfl
@[simp] theorem withRsv_epoch : (s.withRsv v).epoch = s.epoch := rfl
end

section
variable (v : Grid)
@[simp] theorem withGrid_sa : (s.withGrid v).sa = s.sa := rfl
@[simp] theorem withGrid_la : (s.withGrid v).la = s.la := rfl
@[simp] theorem withGrid_sb : (s.withGrid v).sb = s.sb := rfl
@[simp] theorem withGrid_lb : (s.withGrid v).lb = s.lb := rfl
@[simp] theorem withGrid_da : (s.withGrid v).da = s.da := rfl
@[simp] theorem withGrid_lr : (s.withGrid v).lr = s.lr := rfl
@[simp] theorem withGrid_res : (s.withGrid v).res = s.res := rfl
@[simp] theorem withGrid_ver : (s.withGrid v).ver = s.ver := rfl
@[simp] theorem withGrid_size : (s.withGrid v).size = s.size := rfl
@[simp] theorem withGrid_seqlen : (s.withGrid v).seqlen = s.seqlen := rfl
@[simp] theorem withGrid_status : (s.withGrid v).status = s.status := rfl
@[simp] theorem withGrid_cw : (s.withGrid v).cw = s.cw := rfl
@[simp] theorem withGrid_rsv : (s.withGrid v).rsv = s.rsv := rfl
@[simp] theorem withGrid_grid : (s.withGrid v).grid = v := rfl
@[simp] theorem withGrid_seq : (s.withGrid v).seq = s.seq := rfl
@[simp] theorem withGrid_inputs : (s.withGrid v).inputs = s.inputs := rfl
@[simp] theorem withGrid_responses : (s.withGrid v).responses = s.responses := rfl
@[simp] theorem withGrid_inReset : (s.withGrid v).inReset = s.inReset := rfl
@[simp] theorem withGrid_epoch : (s.withGrid v).epoch = s.epoch := rfl
end

section
variable (v : List Coord)
@[simp] theorem withSeq_sa : (s.withSeq v).sa = s.sa := rfl
@[simp] theorem withSeq_la : (s.withSeq v).la = s.la := rfl
@[simp] theorem withSeq_sb : (s.withSeq v).sb = s.sb := rfl
@[simp] theorem withSeq_lb : (s.withSeq v).lb = s.lb := rfl
@[simp] theorem withSeq_da : (s.withSeq v).da = s.da := rfl
@[simp] theorem withSeq_lr : (s.withSeq v).lr = s.lr := rfl
@[simp] theorem withSeq_res : (s.withSeq v).res = s.res := rfl
@[simp] theorem withSeq_ver : (s.withSeq v).ver = s.ver := rfl
@[simp] theorem withSeq_size : (s.withSeq v).size = s.size := rfl
@[simp] theorem withSeq_seqlen : (s.withSeq v).seqlen = s.seqlen := rfl
@[simp] theorem withSeq_status : (s.withSeq v).status = s.status := rfl
@[simp] theorem withSeq_cw : (s.withSeq v).cw = s.cw := rfl
@[simp] theorem withSeq_rsv : (s.withSeq v).rsv = s.rsv := rfl
@[simp] theorem withSeq_grid : (s.withSeq v).grid = s.grid := rfl
@[simp] theorem withSeq_seq : (s.withSeq v).seq = v := rfl
@[simp] theorem withSeq_inputs : (s.withSeq v).inputs = s.inputs := rfl
@[simp] theorem withSeq_responses : (s.withSeq v).responses = s.responses := rfl
@[simp] theorem withSeq_inReset : (s.withSeq v).inReset = s.inReset := rfl
@[simp] theorem withSeq_epoch : (s.withSeq v).epoch = s.epoch := rfl
end

section
variable (v : List HostInput)
@[simp] theorem withInputs_sa : (s.withInputs v).sa = s.sa := rfl
@[simp] theorem withInputs_la : (s.withInputs v).la = s.la := rfl
@[simp] theorem withInputs_sb : (s.withInputs v).sb = s.sb := rfl
@[simp] theorem withInputs_lb : (s.withInputs v).lb = s.lb := rfl
@[simp] theorem withInputs_da : (s.withInputs v).da = s.da := rfl
@[simp] theorem withInputs_lr : (s.withInputs v).lr = s.lr := rfl
@[simp] theorem withInputs_res : (s.withInputs v).res = s.res := rfl
@[simp] theorem withInputs_ver : (s.withInputs v).ver = s.ver := rfl
@[simp] theorem withInputs_size : (s.withInputs v).size = s.size := rfl
@[simp] theorem withInputs_seqlen : (s.withInputs v).seqlen = s.seqlen := rfl
@[simp] theorem withInputs_status : (s.withInputs v).status = s.status := rfl
@[simp] theorem withInputs_cw : (s.withInputs v).cw = s.cw := rfl
@[simp] theorem withInputs_rsv : (s.withInputs v).rsv = s.rsv := rfl
@[simp] theorem withInputs_grid : (s.withInputs v).grid = s.grid := rfl
@[simp] theorem withInputs_seq : (s.withInputs v).seq = s.seq := rfl
@[simp] theorem withInputs_inputs : (s.withInputs v).inputs = v := rfl
@[simp] theorem withInputs_responses : (s.withInputs v).responses = s.responses := rfl
@[simp] theorem withInputs_inReset : (s.withInputs v).inReset = s.inReset := rfl
@[simp] theorem withInputs_epoch : (s.withInputs v).epoch = s.epoch := rfl
end

section
variable (v : Bool)
@[simp] theorem withInReset_sa : (s.withInReset v).sa = s.sa := rfl
@[simp] theorem withInReset_la : (s.withInReset v).la = s.la := rfl
@[simp] theorem withInReset_sb : (s.withInReset v).sb = s.sb := rfl
@[simp] theorem withInReset_lb : (s.withInReset v).lb = s.lb := rfl
@[simp] theorem withInReset_da : (s.withInReset v).da = s.da := rfl
@[simp] theorem withInReset_lr : (s.withInReset v).lr = s.lr := rfl
@[simp] theorem withInReset_res : (s.withInReset v).res = s.res := rfl
@[simp] theorem withInReset_ver : (s.withInReset v).ver = s.ver := rfl
@[simp] theorem withInReset_size : (s.withInReset v).size = s.size := rfl
@[simp] theorem withInReset_seqlen : (s.withInReset v).seqlen = s.seqlen := rfl
@[simp] theorem withInReset_status : (s.withInReset v).status = s.status := rfl
@[simp] theorem withInReset_cw : (s.withInReset v).cw = s.cw := rfl
@[simp] theorem withInReset_rsv : (s.withInReset v).rsv = s.rsv := rfl
@[simp] theorem withInReset_grid : (s.withInReset v).grid = s.grid := rfl
@[simp] theorem withInReset_seq : (s.withInReset v).seq = s.seq := rfl
@[simp] theorem withInReset_inputs : (s.withInReset v).inputs = s.inputs := rfl
@[simp] theorem withInReset_responses : (s.withInReset v).responses = s.responses := rfl
@[simp] theorem withInReset_inReset : (s.withInReset v).inReset = v := rfl
@[simp] theorem withInReset_epoch : (s.withInReset v).epoch = s.epoch := rfl
end

section
variable (v side : Half)
@[simp] theorem withVersion_sa : (s.withVersion v side).sa = s.sa := rfl
@[simp] theorem withVersion_la : (s.withVersion v side).la = s.la := rfl
@[simp] theorem withVersion_sb : (s.withVersion v side).sb = s.sb := rfl
@[simp] theorem withVersion_lb : (s.withVersion v side).lb = s.lb := rfl
@[simp] theorem withVersion_da : (s.withVersion v side).da = s.da := rfl
@[simp] theorem withVersion_lr : (s.withVersion v side).lr = s.lr := rfl
@[simp] theorem withVersion_res : (s.withVersion v side).res = s.res := rfl
@[simp] theorem withVersion_ver : (s.withVersion v side).ver = v := rfl
@[simp] theorem withVersion_size : (s.withVersion v side).size = side := rfl
@[simp] theorem withVersion_seqlen : (s.withVersion v side).seqlen = s.seqlen := rfl
@[simp] theorem withVersion_status : (s.withVersion v side).status = s.status := rfl
@[simp] theorem withVersion_cw : (s.withVersion v side).cw = s.cw := rfl
@[simp] theorem withVersion_rsv : (s.withVersion v side).rsv = s.rsv := rfl
@[simp] theorem withVersion_grid : (s.withVersion v side).grid = s.grid := rfl
@[simp] theorem withVersion_seq : (s.withVersion v side).seq = s.seq := rfl
@[simp] theorem withVersion_inputs : (s.withVersion v side).inputs = s.inputs := rfl
@[simp] theorem withVersion_responses : (s.withVersion v side).responses = s.responses := rfl
@[simp] theorem withVersion_inReset : (s.withVersion v side).inReset = s.inReset := rfl
@[simp] theorem withVersion_epoch : (s.withVersion v side).epoch = s.epoch := rfl
end

section
variable (w : Word)
@[simp] theorem emit_sa : (s.emit w).sa = s.sa := rfl
@[simp] theorem emit_la : (s.emit w).la = s.la := rfl
@[simp] theorem emit_sb : (s.emit w).sb = s.sb := rfl
@[simp] theorem emit_lb : (s.emit w).lb = s.lb := rfl
@[simp] theorem emit_da : (s.emit w).da = s.da := rfl
@[simp] theorem emit_lr : (s.emit w).lr = s.lr := rfl
@[simp] theorem emit_res : (s.emit w).res = s.res := rfl
@[simp] theorem emit_ver : (s.emit w).ver = s.ver := rfl
@[simp] theorem emit_size : (s.emit w).size = s.size := rfl
@[simp] theorem emit_seqlen : (s.emit w).seqlen = s.seqlen := rfl
@[simp] theorem emit_status : (s.emit w).status = s.status := rfl
@[simp] theorem emit_cw : (s.emit w).cw = s.cw := rfl
@[simp] theorem emit_rsv : (s.emit w).rsv = s.rsv := rfl
@[simp] theorem emit_grid : (s.emit w).grid = s.grid := rfl
@[simp] theorem emit_seq : (s.emit w).seq = s.seq := rfl
@[simp] theorem emit_inputs : (s.emit w).inputs = s.inputs := rfl
@[simp] theorem emit_responses : (s.emit w).responses = s.responses ++ [w] := rfl
@[simp] theorem emit_inReset : (s.emit w).inReset = s.inReset := rfl
@[simp] theorem emit_epoch : (s.emit w).epoch = s.epoch := rfl
end

@[simp] theorem afterReset_sa : s.afterReset.sa = 0 := rfl
@[simp] theorem afterReset_la : s.afterReset.la = 0 := rfl
@[simp] theorem afterReset_sb : s.afterReset.sb = 0 := rfl
@[simp] theorem afterReset_lb : s.afterReset.lb = 0 := rfl
@[simp] theorem afterReset_da : s.afterReset.da = 0 := rfl
@[simp] theorem afterReset_lr : s.afterReset.lr = 0 := rfl
@[simp] theorem afterReset_res : s.afterReset.res = 0 := rfl
@[simp] theorem afterReset_ver : s.afterReset.ver = 0 := rfl
@[simp] theorem afterReset_size : s.afterReset.size = 0 := rfl
@[simp] theorem afterReset_seqlen : s.afterReset.seqlen = 0 := rfl
@[simp] theorem afterReset_status : s.afterReset.status = 0 := rfl
@[simp] theorem afterReset_cw : s.afterReset.cw = [] := rfl
@[simp] theorem afterReset_rsv : s.afterReset.rsv = [] := rfl
@[simp] theorem afterReset_grid : s.afterReset.grid = [] := rfl
@[simp] theorem afterReset_seq : s.afterReset.seq = [] := rfl
@[simp] theorem afterReset_inputs : s.afterReset.inputs = s.inputs := rfl
@[simp] theorem afterReset_responses : s.afterReset.responses = s.responses := rfl
@[simp] theorem afterReset_inReset : s.afterReset.inReset = false := rfl
@[simp] theorem afterReset_epoch : s.afterReset.epoch = s.epoch + 1 := rfl

end Sys2Proof.Machine.State
end

