-- ==== Sys2Proof/Laws/Cells.lean ====
section
/-! SUPPORT. Laws of the cell lists behind `CW`, `RSV` and `GRID`: reading after writing, and that every operation keeps
the canonical form. -/

namespace Sys2Proof.Machine

section
variable {κ α : Type} [DecidableEq κ] (lt : κ → κ → Bool)

@[simp] theorem cellsFind_put_same (k : κ) (v : α) (l : List (κ × α)) : cellsFind k (cellsPut lt k v l) = some v := by
  induction l with
  | nil => simp [cellsPut, cellsFind]
  | cons e l ih =>
    obtain ⟨j, u⟩ := e
    simp only [cellsPut]
    split
    · simp [cellsFind]
    · split <;> simp [cellsFind, *]

theorem cellsFind_put_other {k j : κ} (h : j ≠ k) (v : α) (l : List (κ × α)) :
    cellsFind j (cellsPut lt k v l) = cellsFind j l := by
  induction l with
  | nil => simp [cellsPut, cellsFind, Ne.symm h]
  | cons e l ih =>
    obtain ⟨i, u⟩ := e
    simp only [cellsPut]
    split
    · subst i; simp [cellsFind, Ne.symm h]
    · split <;> simp [cellsFind, Ne.symm h, ih]

@[simp] theorem cellsFind_drop_same (k : κ) (l : List (κ × α)) : cellsFind k (cellsDrop k l) = none := by
  induction l with
  | nil => simp [cellsDrop, cellsFind]
  | cons e l ih =>
    obtain ⟨j, u⟩ := e
    simp only [cellsDrop]
    split <;> simp [cellsFind, *]

theorem cellsFind_drop_other {k j : κ} (h : j ≠ k) (l : List (κ × α)) :
    cellsFind j (cellsDrop k l) = cellsFind j l := by
  induction l with
  | nil => simp [cellsDrop]
  | cons e l ih =>
    obtain ⟨i, u⟩ := e
    simp only [cellsDrop]
    split
    · subst i; simp [cellsFind, Ne.symm h, ih]
    · simp [cellsFind, ih]

/-- A cell reads as written, every other cell as before. -/
theorem cellsFind_write [DecidableEq α] (dflt v : α) (k j : κ) (l : List (κ × α)) :
    (cellsFind j (cellsWrite lt dflt k v l)).getD dflt = if j = k then v else (cellsFind j l).getD dflt := by
  unfold cellsWrite
  by_cases hv : v = dflt <;> by_cases hj : j = k
  · subst hj; simp [hv]
  · simp [hv, hj, cellsFind_drop_other hj]
  · subst hj; simp [hv]
  · simp [hv, hj, cellsFind_put_other lt hj]

/-- What holds of every listed pair still holds after a pair with that property is put. -/
theorem cellsPut_all (p : κ × α → Bool) {k : κ} {v : α} {l : List (κ × α)} (hk : p (k, v) = true) (hl : l.all p = true) :
    (cellsPut lt k v l).all p = true := by
  induction l with
  | nil => simpa [cellsPut] using hk
  | cons e l ih =>
    obtain ⟨j, u⟩ := e
    simp only [List.all_cons, Bool.and_eq_true] at hl
    simp only [cellsPut]
    split
    · simp [hk, hl.2]
    · split
      · simp [hk, hl.1, hl.2]
      · simp [hl.1, ih hl.2]

theorem cellsDrop_all (p : κ × α → Bool) (k : κ) {l : List (κ × α)} (hl : l.all p = true) :
    (cellsDrop k l).all p = true := by
  induction l with
  | nil => rfl
  | cons e l ih =>
    obtain ⟨j, u⟩ := e
    simp only [List.all_cons, Bool.and_eq_true] at hl
    simp only [cellsDrop]
    split
    · exact ih hl.2
    · simp [hl.1, ih hl.2]

/-- Dropping a key keeps the order. -/
theorem cellsDrop_ordered (k : κ) {l : List (κ × α)} (hl : cellsOrdered lt l = true) :
    cellsOrdered lt (cellsDrop k l) = true := by
  induction l with
  | nil => rfl
  | cons e l ih =>
    obtain ⟨j, u⟩ := e
    simp only [cellsOrdered, Bool.and_eq_true] at hl
    simp only [cellsDrop]
    split
    · exact ih hl.2
    · simp only [cellsOrdered, ih hl.2, cellsDrop_all _ k hl.1, Bool.and_self]

/-- Putting a pair keeps the order, for a transitive and total order of keys. -/
theorem cellsPut_ordered (trans : ∀ a b c, lt a b = true → lt b c = true → lt a c = true)
    (total : ∀ a b, a ≠ b → lt a b = false → lt b a = true) (k : κ) (v : α) {l : List (κ × α)}
    (hl : cellsOrdered lt l = true) : cellsOrdered lt (cellsPut lt k v l) = true := by
  induction l with
  | nil => rfl
  | cons e l ih =>
    obtain ⟨j, u⟩ := e
    have hl' := hl
    simp only [cellsOrdered, Bool.and_eq_true] at hl
    simp only [cellsPut]
    split
    · subst j; simp [cellsOrdered, hl.1, hl.2]
    · rename_i hjk
      split
      · rename_i hlt
        have : l.all (fun e => lt k e.1) = true := by
          rw [List.all_eq_true] at hl ⊢
          exact fun e he => trans _ _ _ hlt (hl.1 e he)
        simp only [cellsOrdered, List.all_cons, hlt, this, hl.1, hl.2, Bool.and_self]
      · rename_i hlt
        have hj : lt j k = true := total k j (fun h => hjk h.symm) (by simpa using hlt)
        simp only [cellsOrdered, Bool.and_eq_true]
        exact ⟨cellsPut_all lt (fun e => lt j e.1) hj hl.1, ih hl.2⟩

end

theorem addrLt_trans (a b c : Nat) (h : addrLt a b = true) (h' : addrLt b c = true) : addrLt a c = true := by
  simp only [addrLt, decide_eq_true_eq] at *; omega

theorem addrLt_total (a b : Nat) (h : a ≠ b) (h' : addrLt a b = false) : addrLt b a = true := by
  simp only [addrLt, decide_eq_true_eq, decide_eq_false_iff_not] at *; omega

theorem coordLt_trans (a b c : Coord) (h : coordLt a b = true) (h' : coordLt b c = true) : coordLt a c = true := by
  simp only [coordLt, Bool.or_eq_true, Bool.and_eq_true, decide_eq_true_eq] at *; omega

theorem coordLt_total (a b : Coord) (h : a ≠ b) (h' : coordLt a b = false) : coordLt b a = true := by
  obtain ⟨r, c⟩ := a
  obtain ⟨r', c'⟩ := b
  simp only [coordLt, Coord.mk.injEq, ne_eq, Bool.or_eq_true, Bool.and_eq_true, decide_eq_true_eq,
    Bool.or_eq_false_iff, Bool.and_eq_false_iff, decide_eq_false_iff_not] at *
  omega

/-! ### `CW` -/

/-- A write of a sequence is read back, and every other address reads as before. -/
theorem cellsFind_memWrite (bytes : List Byte) (m : Memory) (b a : Nat) :
    cellsFind a (memWrite m b bytes) =
      if b ≤ a ∧ a < b + bytes.length then bytes[a - b]? else cellsFind a m := by
  induction bytes generalizing m b with
  | nil => simp [memWrite]
  | cons x rest ih =>
    rw [memWrite, ih]
    by_cases hab : a = b
    · subst hab; simp
    · by_cases h : b + 1 ≤ a ∧ a < b + 1 + rest.length
      · have hb : b ≤ a ∧ a < b + (x :: rest).length := by simp only [List.length_cons]; omega
        have hi : a - b = (a - (b + 1)) + 1 := by omega
        rw [if_pos h, if_pos hb, hi, List.getElem?_cons_succ]
      · have hb : ¬(b ≤ a ∧ a < b + (x :: rest).length) := by simp only [List.length_cons]; omega
        rw [if_neg h, if_neg hb, cellsFind_put_other _ hab]

/-- `CW` after a write, byte by byte, when the epoch stays. -/
theorem cwByte_of_memWrite {s t : State} {b : Nat} {bytes : List Byte} (hcw : t.cw = memWrite s.cw b bytes)
    (he : t.epoch = s.epoch) (a : Nat) :
    cwByte t a = if b ≤ a ∧ a < b + bytes.length then bytes.getD (a - b) 0 else cwByte s a := by
  unfold cwByte
  rw [hcw, cellsFind_memWrite, he]
  split
  · have : a - b < bytes.length := by omega
    simp [List.getD, this]
  · rfl

/-- The same bytes and the same epoch read the same. -/
theorem cwByte_congr {s t : State} (hcw : t.cw = s.cw) (he : t.epoch = s.epoch) (a : Nat) : cwByte t a = cwByte s a := by
  simp [cwByte, hcw, he]

@[simp] theorem cwRead_length (s : State) (a n : Nat) : (cwRead s a n).length = n := by simp [cwRead]

@[simp] theorem sourceA_length (s : State) : (sourceA s).length = s.la.toNat := by simp [sourceA]

@[simp] theorem sourceB_length (s : State) : (sourceB s).length = s.lb.toNat := by simp [sourceB]

/-- A write inside `CW` keeps its canonical form. -/
theorem memWrite_wf (bytes : List Byte) {m : Memory} {b : Nat} (hm : Memory.wf m = true) (hb : b + bytes.length ≤ 4096) :
    Memory.wf (memWrite m b bytes) = true := by
  induction bytes generalizing m b with
  | nil => exact hm
  | cons x rest ih =>
    simp only [List.length_cons] at hb
    refine ih ?_ (by omega)
    simp only [Memory.wf, Bool.and_eq_true] at hm ⊢
    exact ⟨cellsPut_ordered _ addrLt_trans addrLt_total _ _ hm.1,
      cellsPut_all _ _ (decide_eq_true (show b < 4096 by omega)) hm.2⟩

/-! ### `RSV` and `GRID` -/

/-- `RSV` after a write, cell by cell. -/
theorem rsvBit_write (m : ReservedMap) (c d : Coord) (b : Bool) :
    rsvBit (rsvWrite m c b) d = if d = c then b else rsvBit m d := cellsFind_write coordLt false b c d m

/-- `GRID` after a write, cell by cell. -/
theorem gridCell_write (g : Grid) (c d : Coord) (v : ModuleState) :
    gridCell (gridWrite g c v) d = if d = c then v else gridCell g d := cellsFind_write coordLt ModuleState.unset v c d g

@[simp] theorem rsvBit_nil (c : Coord) : rsvBit [] c = false := rfl

@[simp] theorem gridCell_nil (c : Coord) : gridCell [] c = .unset := rfl

/-- A write inside the grid keeps the canonical form of `RSV`. -/
theorem rsvWrite_wf {side : Nat} {m : ReservedMap} {c : Coord} {b : Bool} (hm : rsvWf side m = true)
    (hr : c.row < side) (hc : c.col < side) : rsvWf side (rsvWrite m c b) = true := by
  simp only [rsvWf, Bool.and_eq_true] at hm ⊢
  unfold rsvWrite cellsWrite
  split
  · exact ⟨cellsDrop_ordered _ _ hm.1, cellsDrop_all _ _ hm.2⟩
  · rename_i hb
    exact ⟨cellsPut_ordered _ coordLt_trans coordLt_total _ _ hm.1,
      cellsPut_all _ _ (by cases b <;> simp_all) hm.2⟩

/-- A write inside the grid keeps the canonical form of `GRID`. -/
theorem gridWrite_wf {side : Nat} {g : Grid} {c : Coord} {v : ModuleState} (hg : gridWf side g = true)
    (hr : c.row < side) (hc : c.col < side) : gridWf side (gridWrite g c v) = true := by
  simp only [gridWf, Bool.and_eq_true] at hg ⊢
  unfold gridWrite cellsWrite
  split
  · exact ⟨cellsDrop_ordered _ _ hg.1, cellsDrop_all _ _ hg.2⟩
  · rename_i hv
    exact ⟨cellsPut_ordered _ coordLt_trans coordLt_total _ _ hg.1,
      cellsPut_all _ _ (by simp [hr, hc, hv]) hg.2⟩

end Sys2Proof.Machine
end

