-- ==== Sys2Proof/Laws/Encoding.lean ====
section
/-! SUPPORT. The fields of an encoded word are what was put there (R91, R92). -/

namespace Sys2Proof

/-- The bits of a field at its place. -/
theorem fieldAt_bit {n : Nat} (pos : Nat) (x : BitVec n) (i : Nat) (hi : i < 32) :
    (fieldAt pos x).getLsbD i = (decide (pos ≤ i) && x.getLsbD (i - pos)) := by
  by_cases hp : pos ≤ i
  · simp [fieldAt, hi, hp, Nat.not_lt.mpr hp]
  · simp [fieldAt, hi, hp, Nat.lt_of_not_le hp]

@[simp] theorem fieldOp_encodeZ (op : Byte) : fieldOp (encodeZ op) = op := by
  apply BitVec.eq_of_getLsbD_eq
  intro i hi
  rw [fieldOp, BitVec.getLsbD_extractLsb', encodeZ]
  interval_cases i <;> simp [fieldAt]

@[simp] theorem fieldZ_encodeZ (op : Byte) : fieldZ (encodeZ op) = 0 := by
  apply BitVec.eq_of_getLsbD_eq
  intro i hi
  rw [fieldZ, BitVec.getLsbD_extractLsb', encodeZ]
  interval_cases i <;> simp [fieldAt]

@[simp] theorem fieldOp_encodeQ (op : Byte) (r : BitVec 4) (imm : Half) : fieldOp (encodeQ op r imm) = op := by
  apply BitVec.eq_of_getLsbD_eq
  intro i hi
  rw [fieldOp, BitVec.getLsbD_extractLsb', encodeQ]
  interval_cases i <;> simp [fieldAt]

@[simp] theorem fieldQHigh_encodeQ (op : Byte) (r : BitVec 4) (imm : Half) : fieldQHigh (encodeQ op r imm) = 0 := by
  apply BitVec.eq_of_getLsbD_eq
  intro i hi
  rw [fieldQHigh, BitVec.getLsbD_extractLsb', encodeQ]
  interval_cases i <;> simp [fieldAt]

@[simp] theorem fieldR_encodeQ (op : Byte) (r : BitVec 4) (imm : Half) : fieldR (encodeQ op r imm) = r := by
  apply BitVec.eq_of_getLsbD_eq
  intro i hi
  rw [fieldR, BitVec.getLsbD_extractLsb', encodeQ]
  interval_cases i <;> simp [fieldAt]

@[simp] theorem fieldN_encodeQ (op : Byte) (r : BitVec 4) (imm : Half) : fieldN (encodeQ op r imm) = imm := by
  apply BitVec.eq_of_getLsbD_eq
  intro i hi
  rw [fieldN, BitVec.getLsbD_extractLsb', encodeQ]
  interval_cases i <;> simp [fieldAt]

@[simp] theorem fieldOp_encodeX (op : Byte) (n : Half) : fieldOp (encodeX op n) = op := by
  apply BitVec.eq_of_getLsbD_eq
  intro i hi
  rw [fieldOp, BitVec.getLsbD_extractLsb', encodeX]
  interval_cases i <;> simp [fieldAt]

@[simp] theorem fieldRow_encodeX (op : Byte) (n : Half) : fieldRow (encodeX op n) = 0 := by
  apply BitVec.eq_of_getLsbD_eq
  intro i hi
  rw [fieldRow, BitVec.getLsbD_extractLsb', encodeX]
  interval_cases i <;> simp [fieldAt]

@[simp] theorem fieldN_encodeX (op : Byte) (n : Half) : fieldN (encodeX op n) = n := by
  apply BitVec.eq_of_getLsbD_eq
  intro i hi
  rw [fieldN, BitVec.getLsbD_extractLsb', encodeX]
  interval_cases i <;> simp [fieldAt]

@[simp] theorem fieldOp_encodeS (op b a : Byte) : fieldOp (encodeS op b a) = op := by
  apply BitVec.eq_of_getLsbD_eq
  intro i hi
  rw [fieldOp, BitVec.getLsbD_extractLsb', encodeS]
  interval_cases i <;> simp [fieldAt]

@[simp] theorem fieldRow_encodeS (op b a : Byte) : fieldRow (encodeS op b a) = 0 := by
  apply BitVec.eq_of_getLsbD_eq
  intro i hi
  rw [fieldRow, BitVec.getLsbD_extractLsb', encodeS]
  interval_cases i <;> simp [fieldAt]

@[simp] theorem fieldB_encodeS (op b a : Byte) : fieldB (encodeS op b a) = b := by
  apply BitVec.eq_of_getLsbD_eq
  intro i hi
  rw [fieldB, BitVec.getLsbD_extractLsb', encodeS]
  interval_cases i <;> simp [fieldAt]

@[simp] theorem fieldA_encodeS (op b a : Byte) : fieldA (encodeS op b a) = a := by
  apply BitVec.eq_of_getLsbD_eq
  intro i hi
  rw [fieldA, BitVec.getLsbD_extractLsb', encodeS]
  interval_cases i <;> simp [fieldAt]

@[simp] theorem fieldOp_encodeM (op : Byte) (addr : Half) (data : Byte) : fieldOp (encodeM op addr data) = op := by
  apply BitVec.eq_of_getLsbD_eq
  intro i hi
  rw [fieldOp, BitVec.getLsbD_extractLsb', encodeM]
  interval_cases i <;> simp [fieldAt]

@[simp] theorem fieldAddr_encodeM (op : Byte) (addr : Half) (data : Byte) : fieldAddr (encodeM op addr data) = addr := by
  apply BitVec.eq_of_getLsbD_eq
  intro i hi
  rw [fieldAddr, BitVec.getLsbD_extractLsb', encodeM]
  interval_cases i <;> simp [fieldAt]

@[simp] theorem fieldA_encodeM (op : Byte) (addr : Half) (data : Byte) : fieldA (encodeM op addr data) = data := by
  apply BitVec.eq_of_getLsbD_eq
  intro i hi
  rw [fieldA, BitVec.getLsbD_extractLsb', encodeM]
  interval_cases i <;> simp [fieldAt]

@[simp] theorem fieldOp_encodeC (op row col val : Byte) : fieldOp (encodeC op row col val) = op := by
  apply BitVec.eq_of_getLsbD_eq
  intro i hi
  rw [fieldOp, BitVec.getLsbD_extractLsb', encodeC]
  interval_cases i <;> simp [fieldAt]

@[simp] theorem fieldRow_encodeC (op row col val : Byte) : fieldRow (encodeC op row col val) = row := by
  apply BitVec.eq_of_getLsbD_eq
  intro i hi
  rw [fieldRow, BitVec.getLsbD_extractLsb', encodeC]
  interval_cases i <;> simp [fieldAt]

@[simp] theorem fieldB_encodeC (op row col val : Byte) : fieldB (encodeC op row col val) = col := by
  apply BitVec.eq_of_getLsbD_eq
  intro i hi
  rw [fieldB, BitVec.getLsbD_extractLsb', encodeC]
  interval_cases i <;> simp [fieldAt]

@[simp] theorem fieldA_encodeC (op row col val : Byte) : fieldA (encodeC op row col val) = val := by
  apply BitVec.eq_of_getLsbD_eq
  intro i hi
  rw [fieldA, BitVec.getLsbD_extractLsb', encodeC]
  interval_cases i <;> simp [fieldAt]

/-! ### An encoded word is its fields in a row (R91) -/

theorem encodeZ_eq_append (op : Byte) : encodeZ op = op ++ (0 : BitVec 24) := by
  apply BitVec.eq_of_getLsbD_eq
  intro i hi
  simp only [encodeZ, fieldAt_bit _ _ i hi, BitVec.getLsbD_append]
  interval_cases i <;> simp

theorem encodeQ_eq_append (op : Byte) (r : BitVec 4) (imm : Half) : encodeQ op r imm = op ++ (0 : BitVec 4) ++ r ++ imm := by
  apply BitVec.eq_of_getLsbD_eq
  intro i hi
  simp only [encodeQ, BitVec.getLsbD_or, fieldAt_bit _ _ i hi, BitVec.getLsbD_append]
  interval_cases i <;> simp

theorem encodeX_eq_append (op : Byte) (n : Half) : encodeX op n = op ++ (0 : Byte) ++ n := by
  apply BitVec.eq_of_getLsbD_eq
  intro i hi
  simp only [encodeX, BitVec.getLsbD_or, fieldAt_bit _ _ i hi, BitVec.getLsbD_append]
  interval_cases i <;> simp

theorem encodeS_eq_append (op b a : Byte) : encodeS op b a = op ++ (0 : Byte) ++ b ++ a := by
  apply BitVec.eq_of_getLsbD_eq
  intro i hi
  simp only [encodeS, BitVec.getLsbD_or, fieldAt_bit _ _ i hi, BitVec.getLsbD_append]
  interval_cases i <;> simp

theorem encodeM_eq_append (op : Byte) (addr : Half) (data : Byte) : encodeM op addr data = op ++ addr ++ data := by
  apply BitVec.eq_of_getLsbD_eq
  intro i hi
  simp only [encodeM, BitVec.getLsbD_or, fieldAt_bit _ _ i hi, BitVec.getLsbD_append]
  interval_cases i <;> simp

theorem encodeC_eq_append (op row col val : Byte) : encodeC op row col val = op ++ row ++ col ++ val := by
  apply BitVec.eq_of_getLsbD_eq
  intro i hi
  simp only [encodeC, BitVec.getLsbD_or, fieldAt_bit _ _ i hi, BitVec.getLsbD_append]
  interval_cases i <;> simp

end Sys2Proof
end

