-- ==== Sys2Proof/Laws/Ops.lean ====
section
/-! SUPPORT. What each shared operation can do, said once: the fields of `STATUS` after each write of it, the response
word, the ends of a command, the check for the FAULTED state. -/

namespace Sys2Proof.Machine

/-! ### Fields of `STATUS` (R28) -/

/-- A 16-bit word is known by its bits. -/
theorem half_ext {x y : Half} (h : ∀ i : Nat, i < 16 → x.getLsbD i = y.getLsbD i) : x = y := BitVec.eq_of_getLsbD_eq h

/-- The bits of `STATUS` after a new `LASTERR`. -/
theorem lastErrWrite_bit (st : Half) (c : Byte) (i : Nat) (hi : i < 16) :
    (lastErrWrite st c).getLsbD i = if i < 8 then st.getLsbD i else c.getLsbD (i - 8) := by
  interval_cases i <;> simp [lastErrWrite]

/-- The bits of `STATUS` after setting `FAULTED`. -/
theorem faultedSet_bit (st : Half) (i : Nat) (hi : i < 16) :
    (faultedSet st).getLsbD i = if i = 0 then true else st.getLsbD i := by
  interval_cases i <;> simp [faultedSet]

/-- The bits of `STATUS` after a new `SEQ_VALID`. -/
theorem statusWithSeqValid_bit (st : Half) (b : Bool) (i : Nat) (hi : i < 16) :
    (statusWithSeqValid st b).getLsbD i = if i = 1 then b else st.getLsbD i := by
  cases b <;> interval_cases i <;> simp [statusWithSeqValid]

@[simp] theorem lastErrWrite_faulted (st : Half) (c : Byte) : (lastErrWrite st c)[0] = st[0] := by
  simpa using lastErrWrite_bit st c 0 (by decide)

@[simp] theorem lastErrWrite_seqValid (st : Half) (c : Byte) : (lastErrWrite st c)[1] = st[1] := by
  simpa using lastErrWrite_bit st c 1 (by decide)

@[simp] theorem lastErrWrite_code (st : Half) (c : Byte) : (lastErrWrite st c).extractLsb' 8 8 = c := by
  apply BitVec.eq_of_getLsbD_eq
  intro i hi
  rw [BitVec.getLsbD_extractLsb', lastErrWrite_bit _ _ _ (by omega)]
  simp [hi]

@[simp] theorem lastErrWrite_reserved (st : Half) (c : Byte) :
    (lastErrWrite st c).extractLsb' 2 6 = st.extractLsb' 2 6 := by
  apply BitVec.eq_of_getLsbD_eq
  intro i hi
  rw [BitVec.getLsbD_extractLsb', BitVec.getLsbD_extractLsb', lastErrWrite_bit _ _ _ (by omega), if_pos (by omega)]

@[simp] theorem faultedSet_faulted (st : Half) : (faultedSet st)[0] = true := by
  simpa using faultedSet_bit st 0 (by decide)

@[simp] theorem faultedSet_seqValid (st : Half) : (faultedSet st)[1] = st[1] := by
  simpa using faultedSet_bit st 1 (by decide)

@[simp] theorem faultedSet_code (st : Half) : (faultedSet st).extractLsb' 8 8 = st.extractLsb' 8 8 := by
  apply BitVec.eq_of_getLsbD_eq
  intro i hi
  rw [BitVec.getLsbD_extractLsb', BitVec.getLsbD_extractLsb', faultedSet_bit _ _ (by omega), if_neg (by omega)]

@[simp] theorem faultedSet_reserved (st : Half) : (faultedSet st).extractLsb' 2 6 = st.extractLsb' 2 6 := by
  apply BitVec.eq_of_getLsbD_eq
  intro i hi
  rw [BitVec.getLsbD_extractLsb', BitVec.getLsbD_extractLsb', faultedSet_bit _ _ (by omega), if_neg (by omega)]

@[simp] theorem statusWithSeqValid_faulted (st : Half) (b : Bool) :
    (statusWithSeqValid st b)[0] = st[0] := by
  simpa using statusWithSeqValid_bit st b 0 (by decide)

@[simp] theorem statusWithSeqValid_seqValid (st : Half) (b : Bool) : (statusWithSeqValid st b)[1] = b := by
  simpa using statusWithSeqValid_bit st b 1 (by decide)

@[simp] theorem statusWithSeqValid_code (st : Half) (b : Bool) :
    (statusWithSeqValid st b).extractLsb' 8 8 = st.extractLsb' 8 8 := by
  apply BitVec.eq_of_getLsbD_eq
  intro i hi
  rw [BitVec.getLsbD_extractLsb', BitVec.getLsbD_extractLsb', statusWithSeqValid_bit _ _ _ (by omega), if_neg (by omega)]

@[simp] theorem statusWithSeqValid_reserved (st : Half) (b : Bool) :
    (statusWithSeqValid st b).extractLsb' 2 6 = st.extractLsb' 2 6 := by
  apply BitVec.eq_of_getLsbD_eq
  intro i hi
  rw [BitVec.getLsbD_extractLsb', BitVec.getLsbD_extractLsb', statusWithSeqValid_bit _ _ _ (by omega), if_neg (by omega)]

/-- `FAULTED` follows `STATUS` only. -/
theorem faulted_of_status {s t : State} (h : t.status = s.status) : t.faulted = s.faulted := by
  simp [State.faulted, h]

/-- Invalidating the sequence writes `SEQ_VALID` 0 and keeps the other bits of `STATUS`. -/
theorem invalidateSeq_status (s : State) : s.invalidateSeq.status = statusWithSeqValid s.status false := by
  simp [State.invalidateSeq, statusWithSeqValid]

/-- Validating the sequence writes `SEQ_VALID` 1 and keeps the other bits of `STATUS`. -/
theorem validateSeq_status (s : State) : s.validateSeq.status = statusWithSeqValid s.status true := by
  apply half_ext
  intro i hi
  simp only [State.validateSeq, State.withStatus_status]
  interval_cases i <;> simp [statusWithSeqValid]

@[simp] theorem invalidateSeq_seqlen (s : State) : s.invalidateSeq.seqlen = 0 := rfl

/-- Invalidating the sequence changes `STATUS` and `SEQLEN` only. -/
theorem invalidateSeq_eq (s : State) :
    s.invalidateSeq = { s with status := statusWithSeqValid s.status false, seqlen := 0 } := by
  rw [← invalidateSeq_status]; rfl

/-- Validating the sequence changes `STATUS` only. -/
theorem validateSeq_eq (s : State) : s.validateSeq = { s with status := statusWithSeqValid s.status true } := by
  rw [← validateSeq_status]; rfl

/-! ### The response word (R99) -/

/-- The status byte of a success response. -/
@[simp] theorem value_status (v : Half) : (v.setWidth 32 : Word).extractLsb' 24 8 = (0 : Byte) := by
  ext k hk
  simp only [BitVec.getElem_extractLsb', BitVec.getLsbD_setWidth]
  rw [BitVec.getLsbD_of_ge _ _ (by omega)]
  simp

/-- The reserved byte of a success response. -/
@[simp] theorem value_reserved (v : Half) : (v.setWidth 32 : Word).extractLsb' 16 8 = (0 : Byte) := by
  ext k hk
  simp only [BitVec.getElem_extractLsb', BitVec.getLsbD_setWidth]
  rw [BitVec.getLsbD_of_ge _ _ (by omega)]
  simp

/-- The value of a success response. -/
@[simp] theorem value_low (v : Half) : (v.setWidth 32 : Word).extractLsb' 0 16 = v := by
  ext k hk
  have : k < 32 := by omega
  simp [this, BitVec.getLsbD_eq_getElem hk]

/-- The status byte of a refusal's response. -/
@[simp] theorem code_status (c : Byte) : (c.setWidth 32 <<< 24 : Word).extractLsb' 24 8 = c := by
  ext k hk
  have : 24 + k < 32 ∧ k < 32 := by omega
  simp [this, BitVec.getLsbD_eq_getElem hk]

/-! ### The ends of a command -/

/-- A success appends one response and changes nothing else. -/
theorem respond_eq (v : Half) (s : State) : respond v s = .next (answered s v) := by
  simp [respond, answered, State.emit, responseWord, statusByte]

/-- A refusal other than `Halted` is the refusal of R283. -/
theorem raise_eq {c : StatusCode} (h : c ≠ .halted) (s : State) : raise c s = .next (refusedWith s (statusByte c)) := by
  cases c <;> first | exact absurd rfl h | simp [raise, State.record, refusedWith, State.emit, responseWord,
    State.withStatus, lastErrWrite]

/-- The `Halted` refusal changes nothing but the responses. -/
theorem raise_halted (s : State) : raise .halted s = .next (haltedAfter s) := rfl

/-- The fatal fault is that of R284. -/
theorem fatalDivideByZero_eq (s : State) : fatalDivideByZero s = .next (fatalAfter s) := by
  have h : faultedSet (lastErrWrite s.status 0x01) = 0x0101 ||| (s.status &&& 0x00FE) := by
    apply half_ext
    intro i hi
    rw [faultedSet_bit _ _ hi, lastErrWrite_bit _ _ _ hi]
    interval_cases i <;> simp
  simp only [fatalDivideByZero, statusByte, h]
  rfl

/-- A command that is not FAULTED is its body. -/
@[simp] theorem command_running {s : State} (h : s.faulted = false) (body : Result) : command s body = body := by
  simp [command, h]

/-- In the FAULTED state every command is the `Halted` refusal. -/
@[simp] theorem command_faulted {s : State} (h : s.faulted = true) (body : Result) :
    command s body = .next (haltedAfter s) := by
  simp [command, h, raise_halted]

/-- What a command answers, it answers as the `Halted` refusal or as its body. -/
theorem command_next {s t : State} {body : Result} (h : command s body = .next t) :
    (s.faulted = true ∧ t = haltedAfter s) ∨ (s.faulted = false ∧ body = .next t) := by
  unfold command at h
  split at h
  · rw [raise_halted] at h; injection h with h; exact .inl ⟨‹_›, h.symm⟩
  · exact .inr ⟨by simpa using ‹¬s.faulted = true›, h⟩

/-- The end of a polynomial command stores its bytes and nothing else. -/
theorem respondPoly_stored (bytes : List Byte) (s : State) :
    ∃ t, respondPoly bytes s = .next t ∧ storedAtDest s t bytes :=
  by
  refine ⟨_, respond_eq _ _, rfl, fun a => ?_⟩
  exact cwByte_of_memWrite (t := (s.writeDest bytes).withLr (BitVec.ofNat 16 bytes.length)) rfl rfl a

end Sys2Proof.Machine
end

