-- ==== Sys2Proof/Laws/Exec.lean ====
section
/-! SUPPORT. For each meaning, once: what it can answer. Whoever needs to know how a command changes the state cites
these and does not unfold the command. -/

namespace Sys2Proof.Machine

/-- A refusal by a command's own checks, or of an illegal word: `LASTERR` takes one of the codes the block records. -/
def Refused (s t : State) : Prop :=
  ∃ c : StatusCode, c ≠ .ok ∧ c ≠ .divideByZero ∧ c ≠ .capacityExceeded ∧ c ≠ .invalidCharacter ∧ c ≠ .halted ∧
    t = refusedWith s (statusByte c)

/-- The `Halted` refusal, in the FAULTED state only. -/
def Halted (s t : State) : Prop := s.faulted = true ∧ t = haltedAfter s

/-- The success of a polynomial command with its result. -/
def polyAnswered (s : State) (bytes : List Byte) : State :=
  answered ((s.writeDest bytes).withLr (BitVec.ofNat 16 bytes.length)) (BitVec.ofNat 16 bytes.length)

/-- The success of a scalar command with its result. -/
def scalarAnswered (s : State) (v : Byte) : State := answered (s.withRes (v.setWidth 16)) (v.setWidth 16)

theorem refused_of_raise {c : StatusCode} {s t : State} (h : raise c s = .next t)
    (hc : c ≠ .ok ∧ c ≠ .divideByZero ∧ c ≠ .capacityExceeded ∧ c ≠ .invalidCharacter ∧ c ≠ .halted) : Refused s t := by
  rw [raise_eq hc.2.2.2.2] at h
  injection h with h
  exact ⟨c, hc.1, hc.2.1, hc.2.2.1, hc.2.2.2.1, hc.2.2.2.2, h.symm⟩

theorem answered_of_respond {v : Half} {s t : State} (h : respond v s = .next t) : t = answered s v := by
  rw [respond_eq] at h
  injection h with h
  exact h.symm

theorem fatal_of_fatal {s t : State} (h : fatalDivideByZero s = .next t) : t = fatalAfter s := by
  rw [fatalDivideByZero_eq] at h
  injection h with h
  exact h.symm

variable {s t : State}

theorem illegalCommand_next (h : illegalCommand s = .next t) : Halted s t ∨ s.faulted = false ∧ Refused s t := by
  obtain h | ⟨hf, h⟩ := command_next h
  · exact .inl h
  · exact .inr ⟨hf, refused_of_raise h (by decide)⟩

theorem execNop_next (h : execNop s = .next t) :
    Halted s t ∨ s.faulted = false ∧ (t = answered s 0) := by
  obtain h | ⟨hf, h⟩ := command_next h
  · exact .inl h
  refine .inr ⟨hf, ?_⟩
  exact answered_of_respond h

theorem execClrerr_next (h : execClrerr s = .next t) :
    Halted s t ∨ s.faulted = false ∧ (t = answered s.clearLastErr 0) := by
  obtain h | ⟨hf, h⟩ := command_next h
  · exact .inl h
  refine .inr ⟨hf, ?_⟩
  exact answered_of_respond h

theorem execSetver_next (n : Half) (h : execSetver n s = .next t) :
    Halted s t ∨ s.faulted = false ∧ (Refused s t ∨ (n ≠ 0 ∧ n.toNat ≤ 40 ∧ t =
      answered ((((s.withVersion n (sideOf n)).withRsv []).withGrid []).invalidateSeq) (sideOf n))) := by
  obtain h | ⟨hf, h⟩ := command_next h
  · exact .inl h
  refine .inr ⟨hf, ?_⟩
  split at h
  · exact .inl (refused_of_raise h (by decide))
  rename_i h0
  exact .inr ⟨fun h => h0 (.inl h), Nat.le_of_not_lt fun h => h0 (.inr h), answered_of_respond h⟩

theorem execCwwr_next (addr : Half) (data : Byte) (h : execCwwr addr data s = .next t) :
    Halted s t ∨ s.faulted = false ∧ (Refused s t ∨ (addr.toNat < 4096 ∧ t =
      answered (s.withCw (memWrite s.cw addr.toNat [data])) 0)) := by
  obtain h | ⟨hf, h⟩ := command_next h
  · exact .inl h
  refine .inr ⟨hf, ?_⟩
  split at h
  · exact .inl (refused_of_raise h (by decide))
  rename_i h0
  exact .inr ⟨Nat.lt_of_not_le h0, answered_of_respond h⟩

theorem execCwrd_next (addr : Half) (h : execCwrd addr s = .next t) :
    Halted s t ∨ s.faulted = false ∧ (Refused s t ∨ (addr.toNat < 4096 ∧ t =
      answered s ((cwByte s addr.toNat).setWidth 16))) := by
  obtain h | ⟨hf, h⟩ := command_next h
  · exact .inl h
  refine .inr ⟨hf, ?_⟩
  split at h
  · exact .inl (refused_of_raise h (by decide))
  rename_i h0
  exact .inr ⟨Nat.lt_of_not_le h0, answered_of_respond h⟩

theorem execGfmul_next (a b : Byte) (h : execGfmul a b s = .next t) :
    Halted s t ∨ s.faulted = false ∧ (t = scalarAnswered s (gfMul a b)) := by
  obtain h | ⟨hf, h⟩ := command_next h
  · exact .inl h
  refine .inr ⟨hf, ?_⟩
  exact answered_of_respond h

theorem execGfdiv_next (a b : Byte) (h : execGfdiv a b s = .next t) :
    Halted s t ∨ s.faulted = false ∧ (Refused s t ∨ (b = 0 ∧ t = fatalAfter s) ∨ (b ≠ 0 ∧ t =
      scalarAnswered s (gfDiv a b))) := by
  obtain h | ⟨hf, h⟩ := command_next h
  · exact .inl h
  refine .inr ⟨hf, ?_⟩
  split at h
  · exact .inr (.inl ⟨‹_›, fatal_of_fatal h⟩)
  rename_i h0
  exact .inr (.inr ⟨h0, answered_of_respond h⟩)

theorem execGfexp_next (a : Byte) (h : execGfexp a s = .next t) :
    Halted s t ∨ s.faulted = false ∧ (Refused s t ∨ (a ≠ 255 ∧ t = scalarAnswered s (gfExp a))) := by
  obtain h | ⟨hf, h⟩ := command_next h
  · exact .inl h
  refine .inr ⟨hf, ?_⟩
  split at h
  · exact .inl (refused_of_raise h (by decide))
  rename_i h0
  exact .inr ⟨h0, answered_of_respond h⟩

theorem execGflog_next (a : Byte) (h : execGflog a s = .next t) :
    Halted s t ∨ s.faulted = false ∧ (Refused s t ∨ (a ≠ 0 ∧ t = scalarAnswered s (gfLog a))) := by
  obtain h | ⟨hf, h⟩ := command_next h
  · exact .inl h
  refine .inr ⟨hf, ?_⟩
  split at h
  · exact .inl (refused_of_raise h (by decide))
  rename_i h0
  exact .inr ⟨h0, answered_of_respond h⟩

theorem execPmul_next (h : execPmul s = .next t) :
    Halted s t ∨ s.faulted = false ∧ (Refused s t ∨ (s.la ≠ 0 ∧ s.lb ≠ 0 ∧
      s.da.toNat + (s.la.toNat + s.lb.toNat - 1) ≤ 4096 ∧ t = polyAnswered s (polyMul (sourceA s) (sourceB s)))) := by
  obtain h | ⟨hf, h⟩ := command_next h
  · exact .inl h
  refine .inr ⟨hf, ?_⟩
  split at h
  · exact .inl (refused_of_raise h (by decide))
  split at h
  · exact .inl (refused_of_raise h (by decide))
  split at h
  · exact .inl (refused_of_raise h (by decide))
  rename_i h0 h1 h2
  exact .inr ⟨fun h => h0 (.inl h), fun h => h0 (.inr h), by simpa [destIllegal, rangeIllegal,
      Config.cwBytes] using h2, answered_of_respond h⟩

theorem execPrem_next (h : execPrem s = .next t) :
    Halted s t ∨ s.faulted = false ∧ (Refused s t ∨ (cwByte s s.sb.toNat = 0 ∧ t = fatalAfter s) ∨ (s.lb ≠ 0 ∧
      s.lb.toNat ≤ s.la.toNat ∧ s.da.toNat + (s.lb.toNat - 1) ≤ 4096 ∧ cwByte s s.sb.toNat ≠ 0 ∧ t =
        polyAnswered s (polyRem (sourceA s) (sourceB s)))) := by
  obtain h | ⟨hf, h⟩ := command_next h
  · exact .inl h
  refine .inr ⟨hf, ?_⟩
  split at h
  · exact .inl (refused_of_raise h (by decide))
  split at h
  · exact .inl (refused_of_raise h (by decide))
  split at h
  · exact .inl (refused_of_raise h (by decide))
  split at h
  · exact .inr (.inl ⟨‹_›, fatal_of_fatal h⟩)
  rename_i h0 h1 h2 h3
  exact .inr (.inr ⟨fun h => h0 (.inr (.inl h)), by
    have : ¬s.la < s.lb := fun h => h0 (.inr (.inr h))
    simpa [BitVec.lt_def] using this, by simpa [destIllegal, rangeIllegal, Config.cwBytes] using h2, h3,
      answered_of_respond h⟩)

theorem execGenp_next (n : Half) (h : execGenp n s = .next t) :
    Halted s t ∨ s.faulted = false ∧ (Refused s t ∨ (n.toNat ≤ 255 ∧ s.da.toNat + (n.toNat + 1) ≤ 4096 ∧ t =
      polyAnswered s (genPoly n.toNat))) := by
  obtain h | ⟨hf, h⟩ := command_next h
  · exact .inl h
  refine .inr ⟨hf, ?_⟩
  split at h
  · exact .inl (refused_of_raise h (by decide))
  split at h
  · exact .inl (refused_of_raise h (by decide))
  rename_i h0 h1
  exact .inr ⟨Nat.le_of_not_lt h0, by simpa [destIllegal, rangeIllegal, Config.cwBytes] using h1, answered_of_respond h⟩

theorem execEcgen_next (n : Half) (h : execEcgen n s = .next t) :
    Halted s t ∨ s.faulted = false ∧ (Refused s t ∨ (s.la ≠ 0 ∧ s.la.toNat ≤ n.toNat ∧ n.toNat - s.la.toNat ≤ 255 ∧
      s.da.toNat + (n.toNat - s.la.toNat) ≤ 4096 ∧ t = polyAnswered s (ecCodewords (sourceA s) n.toNat))) := by
  obtain h | ⟨hf, h⟩ := command_next h
  · exact .inl h
  refine .inr ⟨hf, ?_⟩
  split at h
  · exact .inl (refused_of_raise h (by decide))
  split at h
  · exact .inl (refused_of_raise h (by decide))
  split at h
  · exact .inl (refused_of_raise h (by decide))
  rename_i h0 h1 h2
  rw [not_or, not_or, not_or] at h0
  exact .inr ⟨h0.1, by simpa [BitVec.lt_def] using h0.2.1, Nat.le_of_not_lt h0.2.2.1, by simpa [destIllegal,
      rangeIllegal, Config.cwBytes] using h2, answered_of_respond h⟩

theorem execRsvclr_next (h : execRsvclr s = .next t) :
    Halted s t ∨ s.faulted = false ∧ (Refused s t ∨ (s.ver ≠ 0 ∧ t = answered ((s.withRsv []).invalidateSeq) 0)) := by
  obtain h | ⟨hf, h⟩ := command_next h
  · exact .inl h
  refine .inr ⟨hf, ?_⟩
  split at h
  · exact .inl (refused_of_raise h (by decide))
  rename_i h0
  exact .inr ⟨h0, answered_of_respond h⟩

theorem execRsvwr_next (row col val : Byte) (h : execRsvwr row col val s = .next t) :
    Halted s t ∨ s.faulted = false ∧ (Refused s t ∨ (row.toNat < s.size.toNat ∧ col.toNat < s.size.toNat ∧ t =
      answered ((s.withRsv (rsvWrite s.rsv (coordOf row col) (val == 1))).invalidateSeq) 0)) := by
  obtain h | ⟨hf, h⟩ := command_next h
  · exact .inl h
  refine .inr ⟨hf, ?_⟩
  split at h
  · exact .inl (refused_of_raise h (by decide))
  split at h
  · exact .inl (refused_of_raise h (by decide))
  rename_i h0 h1
  simp only [coordOutside, coordOf, Bool.or_eq_true, decide_eq_true_eq, not_or, ge_iff_le, Nat.not_le] at h0
  exact .inr ⟨h0.1, h0.2, answered_of_respond h⟩

theorem execRsvrd_next (row col : Byte) (h : execRsvrd row col s = .next t) :
    Halted s t ∨ s.faulted = false ∧ (Refused s t ∨ (row.toNat < s.size.toNat ∧ col.toNat < s.size.toNat ∧ t =
      answered s (if rsvBit s.rsv (coordOf row col) then 1 else 0))) := by
  obtain h | ⟨hf, h⟩ := command_next h
  · exact .inl h
  refine .inr ⟨hf, ?_⟩
  split at h
  · exact .inl (refused_of_raise h (by decide))
  rename_i h0
  simp only [coordOutside, coordOf, Bool.or_eq_true, decide_eq_true_eq, not_or, ge_iff_le, Nat.not_le] at h0
  exact .inr ⟨h0.1, h0.2, answered_of_respond h⟩

theorem execSeqgen_next (h : execSeqgen s = .next t) :
    Halted s t ∨ s.faulted = false ∧ (Refused s t ∨ (s.ver ≠ 0 ∧ t =
      answered (((s.withSeq (currentSequence s)).withSeqlen (BitVec.ofNat 16 (currentSequence s).length)).validateSeq) (BitVec.ofNat 16 (currentSequence s).length))) := by
  obtain h | ⟨hf, h⟩ := command_next h
  · exact .inl h
  refine .inr ⟨hf, ?_⟩
  split at h
  · exact .inl (refused_of_raise h (by decide))
  rename_i h0
  exact .inr ⟨h0, answered_of_respond h⟩

theorem execSeqrd_next (n : Half) (h : execSeqrd n s = .next t) :
    Halted s t ∨ s.faulted = false ∧ (Refused s t ∨ (s.seqValid = true ∧ n.toNat < s.seqlen.toNat ∧ t =
      answered s (packCoord (s.seq.getD n.toNat ⟨0, 0⟩)))) := by
  obtain h | ⟨hf, h⟩ := command_next h
  · exact .inl h
  refine .inr ⟨hf, ?_⟩
  split at h
  · exact .inl (refused_of_raise h (by decide))
  split at h
  · exact .inl (refused_of_raise h (by decide))
  rename_i h0 h1
  exact .inr ⟨by simpa using h0, by simpa [BitVec.le_def] using h1, answered_of_respond h⟩

theorem execGridclr_next (h : execGridclr s = .next t) :
    Halted s t ∨ s.faulted = false ∧ (Refused s t ∨ (s.ver ≠ 0 ∧ t = answered (s.withGrid []) 0)) := by
  obtain h | ⟨hf, h⟩ := command_next h
  · exact .inl h
  refine .inr ⟨hf, ?_⟩
  split at h
  · exact .inl (refused_of_raise h (by decide))
  rename_i h0
  exact .inr ⟨h0, answered_of_respond h⟩

theorem execGridrd_next (row col : Byte) (h : execGridrd row col s = .next t) :
    Halted s t ∨ s.faulted = false ∧ (Refused s t ∨ (row.toNat < s.size.toNat ∧ col.toNat < s.size.toNat ∧ t =
      answered s (codeOfCell (gridCell s.grid (coordOf row col))))) := by
  obtain h | ⟨hf, h⟩ := command_next h
  · exact .inl h
  refine .inr ⟨hf, ?_⟩
  split at h
  · exact .inl (refused_of_raise h (by decide))
  rename_i h0
  simp only [coordOutside, coordOf, Bool.or_eq_true, decide_eq_true_eq, not_or, ge_iff_le, Nat.not_le] at h0
  exact .inr ⟨h0.1, h0.2, answered_of_respond h⟩

theorem execMplace_next (n : Half) (h : execMplace n s = .next t) :
    Halted s t ∨ s.faulted = false ∧ (Refused s t ∨ (n.toNat ≤ 7 ∧ s.seqValid = true ∧
      s.sa.toNat + s.la.toNat ≤ 4096 ∧ s.seqlen.toNat ≤ 8 * s.la.toNat ∧ t =
        answered (s.withGrid (place (maskFn n.toNat) s.grid (validSequence s) (sourceA s))) s.seqlen)) := by
  obtain h | ⟨hf, h⟩ := command_next h
  · exact .inl h
  refine .inr ⟨hf, ?_⟩
  split at h
  · exact .inl (refused_of_raise h (by decide))
  split at h
  · exact .inl (refused_of_raise h (by decide))
  split at h
  · exact .inl (refused_of_raise h (by decide))
  split at h
  · exact .inl (refused_of_raise h (by decide))
  rename_i h0 h1 h2 h3
  exact .inr ⟨by simpa [BitVec.lt_def] using h0, by simpa using h1, by simpa [sourceAIllegal, rangeIllegal,
      Config.cwBytes] using h2, Nat.le_of_not_lt h3, answered_of_respond h⟩

theorem execSetq_next (r : BitVec 4) (imm : Half) (h : execSetq r imm s = .next t) :
    Halted s t ∨ s.faulted = false ∧ (Refused s t ∨ ∃ u, writeRegister s r imm = some u ∧ t = answered u 0) := by
  obtain h | ⟨hf, h⟩ := command_next h
  · exact .inl h
  refine .inr ⟨hf, ?_⟩
  split at h
  · exact .inr ⟨_, ‹_›, answered_of_respond h⟩
  · exact .inl (refused_of_raise h (by decide))

theorem execGetq_next (r : BitVec 4) (h : execGetq r s = .next t) :
    Halted s t ∨ s.faulted = false ∧ (Refused s t ∨ ∃ v, readRegister s r = some v ∧ t = answered s v) := by
  obtain h | ⟨hf, h⟩ := command_next h
  · exact .inl h
  refine .inr ⟨hf, ?_⟩
  split at h
  · exact .inr ⟨_, ‹_›, answered_of_respond h⟩
  · exact .inl (refused_of_raise h (by decide))

theorem execGridwr_next (row col val : Byte) (h : execGridwr row col val s = .next t) :
    Halted s t ∨ s.faulted = false ∧ (Refused s t ∨ ∃ v, cellOfCode val = some v ∧ row.toNat < s.size.toNat ∧
      col.toNat < s.size.toNat ∧ t = answered (s.withGrid (gridWrite s.grid (coordOf row col) v)) 0) := by
  obtain h | ⟨hf, h⟩ := command_next h
  · exact .inl h
  refine .inr ⟨hf, ?_⟩
  split at h
  · exact .inl (refused_of_raise h (by decide))
  rename_i h0
  simp only [coordOutside, coordOf, Bool.or_eq_true, decide_eq_true_eq, not_or, ge_iff_le, Nat.not_le] at h0
  split at h
  · exact .inr ⟨_, ‹_›, h0.1, h0.2, answered_of_respond h⟩
  · exact .inl (refused_of_raise h (by decide))

/-! ### All commands at once -/

/-- The commands and states in which the block divides by zero (R284). -/
def DividesByZero (i : Instr) (s : State) : Prop :=
  (∃ a, i = .gfdiv a 0) ∨ (i = .prem ∧ cwByte s s.sb.toNat = 0)

/-- What a command leaves when it succeeds, with the conditions it checked. -/
def Success (i : Instr) (s t : State) : Prop :=
  match i with
  | .nop => t = answered s 0
  | .setq r imm => ∃ u, writeRegister s r imm = some u ∧ t = answered u 0
  | .getq r => ∃ v, readRegister s r = some v ∧ t = answered s v
  | .clrerr => t = answered s.clearLastErr 0
  | .setver n =>
    n ≠ 0 ∧ n.toNat ≤ 40 ∧
      t = answered ((((s.withVersion n (sideOf n)).withRsv []).withGrid []).invalidateSeq) (sideOf n)
  | .gfmul a b => t = scalarAnswered s (gfMul a b)
  | .gfdiv a b => b ≠ 0 ∧ t = scalarAnswered s (gfDiv a b)
  | .gfexp a => a ≠ 255 ∧ t = scalarAnswered s (gfExp a)
  | .gflog a => a ≠ 0 ∧ t = scalarAnswered s (gfLog a)
  | .pmul =>
    s.la ≠ 0 ∧ s.lb ≠ 0 ∧ s.da.toNat + (s.la.toNat + s.lb.toNat - 1) ≤ 4096 ∧
      t = polyAnswered s (polyMul (sourceA s) (sourceB s))
  | .prem =>
    s.lb ≠ 0 ∧ s.lb.toNat ≤ s.la.toNat ∧ s.da.toNat + (s.lb.toNat - 1) ≤ 4096 ∧ cwByte s s.sb.toNat ≠ 0 ∧
      t = polyAnswered s (polyRem (sourceA s) (sourceB s))
  | .genp n =>
    n.toNat ≤ 255 ∧ s.da.toNat + (n.toNat + 1) ≤ 4096 ∧
      t = polyAnswered s (genPoly n.toNat)
  | .ecgen n =>
    s.la ≠ 0 ∧ s.la.toNat ≤ n.toNat ∧ n.toNat - s.la.toNat ≤ 255 ∧ s.da.toNat + (n.toNat - s.la.toNat) ≤ 4096 ∧
      t = polyAnswered s (ecCodewords (sourceA s) n.toNat)
  | .cwwr addr data => addr.toNat < 4096 ∧ t = answered (s.withCw (memWrite s.cw addr.toNat [data])) 0
  | .cwrd addr => addr.toNat < 4096 ∧ t = answered s ((cwByte s addr.toNat).setWidth 16)
  | .rsvclr => s.ver ≠ 0 ∧ t = answered ((s.withRsv []).invalidateSeq) 0
  | .rsvwr row col val =>
    row.toNat < s.size.toNat ∧ col.toNat < s.size.toNat ∧
      t = answered ((s.withRsv (rsvWrite s.rsv (coordOf row col) (val == 1))).invalidateSeq) 0
  | .rsvrd row col =>
    row.toNat < s.size.toNat ∧ col.toNat < s.size.toNat ∧
      t = answered s (if rsvBit s.rsv (coordOf row col) then 1 else 0)
  | .seqgen =>
    s.ver ≠ 0 ∧
      t = answered (((s.withSeq (currentSequence s)).withSeqlen
        (BitVec.ofNat 16 (currentSequence s).length)).validateSeq) (BitVec.ofNat 16 (currentSequence s).length)
  | .seqrd n => s.seqValid = true ∧ n.toNat < s.seqlen.toNat ∧ t = answered s (packCoord (s.seq.getD n.toNat ⟨0, 0⟩))
  | .gridclr => s.ver ≠ 0 ∧ t = answered (s.withGrid []) 0
  | .gridwr row col val =>
    ∃ v, cellOfCode val = some v ∧ row.toNat < s.size.toNat ∧ col.toNat < s.size.toNat ∧
      t = answered (s.withGrid (gridWrite s.grid (coordOf row col) v)) 0
  | .gridrd row col =>
    row.toNat < s.size.toNat ∧ col.toNat < s.size.toNat ∧
      t = answered s (codeOfCell (gridCell s.grid (coordOf row col)))
  | .mplace n =>
    n.toNat ≤ 7 ∧ s.seqValid = true ∧ s.sa.toNat + s.la.toNat ≤ 4096 ∧ s.seqlen.toNat ≤ 8 * s.la.toNat ∧
      t = answered (s.withGrid (place (maskFn n.toNat) s.grid (validSequence s) (sourceA s))) s.seqlen

/-- What a command can answer: the `Halted` refusal, a refusal by its own checks, the fatal fault, or success. -/
theorem exec_next (i : Instr) (h : exec i s = .next t) :
    Halted s t ∨ s.faulted = false ∧ (Refused s t ∨ (DividesByZero i s ∧ t = fatalAfter s) ∨ Success i s t) := by
  cases i with
  | nop =>
    exact (execNop_next h).imp_right fun h => ⟨h.1, .inr (.inr h.2)⟩
  | setq r imm =>
    exact (execSetq_next r imm h).imp_right fun h => ⟨h.1, h.2.imp_right .inr⟩
  | getq r =>
    exact (execGetq_next r h).imp_right fun h => ⟨h.1, h.2.imp_right .inr⟩
  | clrerr =>
    exact (execClrerr_next h).imp_right fun h => ⟨h.1, .inr (.inr h.2)⟩
  | setver n =>
    exact (execSetver_next n h).imp_right fun h => ⟨h.1, h.2.imp_right .inr⟩
  | gfmul a b =>
    exact (execGfmul_next a b h).imp_right fun h => ⟨h.1, .inr (.inr h.2)⟩
  | gfdiv a b =>
    obtain h | ⟨hf, h | h | h⟩ := execGfdiv_next a b h
    · exact .inl h
    · exact .inr ⟨hf, .inl h⟩
    · exact .inr ⟨hf, .inr (.inl ⟨.inl ⟨a, by rw [h.1]⟩, h.2⟩)⟩
    · exact .inr ⟨hf, .inr (.inr h)⟩
  | gfexp a =>
    exact (execGfexp_next a h).imp_right fun h => ⟨h.1, h.2.imp_right .inr⟩
  | gflog a =>
    exact (execGflog_next a h).imp_right fun h => ⟨h.1, h.2.imp_right .inr⟩
  | pmul =>
    exact (execPmul_next h).imp_right fun h => ⟨h.1, h.2.imp_right .inr⟩
  | prem =>
    obtain h | ⟨hf, h | h | h⟩ := execPrem_next h
    · exact .inl h
    · exact .inr ⟨hf, .inl h⟩
    · exact .inr ⟨hf, .inr (.inl ⟨.inr ⟨rfl, h.1⟩, h.2⟩)⟩
    · exact .inr ⟨hf, .inr (.inr h)⟩
  | genp n =>
    exact (execGenp_next n h).imp_right fun h => ⟨h.1, h.2.imp_right .inr⟩
  | ecgen n =>
    exact (execEcgen_next n h).imp_right fun h => ⟨h.1, h.2.imp_right .inr⟩
  | cwwr addr data =>
    exact (execCwwr_next addr data h).imp_right fun h => ⟨h.1, h.2.imp_right .inr⟩
  | cwrd addr =>
    exact (execCwrd_next addr h).imp_right fun h => ⟨h.1, h.2.imp_right .inr⟩
  | rsvclr =>
    exact (execRsvclr_next h).imp_right fun h => ⟨h.1, h.2.imp_right .inr⟩
  | rsvwr row col val =>
    exact (execRsvwr_next row col val h).imp_right fun h => ⟨h.1, h.2.imp_right .inr⟩
  | rsvrd row col =>
    exact (execRsvrd_next row col h).imp_right fun h => ⟨h.1, h.2.imp_right .inr⟩
  | seqgen =>
    exact (execSeqgen_next h).imp_right fun h => ⟨h.1, h.2.imp_right .inr⟩
  | seqrd n =>
    exact (execSeqrd_next n h).imp_right fun h => ⟨h.1, h.2.imp_right .inr⟩
  | gridclr =>
    exact (execGridclr_next h).imp_right fun h => ⟨h.1, h.2.imp_right .inr⟩
  | gridwr row col val =>
    exact (execGridwr_next row col val h).imp_right fun h => ⟨h.1, h.2.imp_right .inr⟩
  | gridrd row col =>
    exact (execGridrd_next row col h).imp_right fun h => ⟨h.1, h.2.imp_right .inr⟩
  | mplace n =>
    exact (execMplace_next n h).imp_right fun h => ⟨h.1, h.2.imp_right .inr⟩

/-- What SETQ can write. -/
theorem writeRegister_cases {u : State} {r : BitVec 4} {v : Half} (h : writeRegister s r v = some u) :
    u = s.withSa v ∨ u = s.withLa v ∨ u = s.withSb v ∨ u = s.withLb v ∨ u = s.withDa v := by
  unfold writeRegister at h
  split at h <;> simp_all

/-- A success appends one response word, a value. -/
theorem success_responses {i : Instr} (h : Success i s t) : ∃ v : Half, t.responses =
    s.responses ++ [v.setWidth 32] := by
  cases i <;> simp only [Success] at h
  case setq r imm =>
    obtain ⟨u, hu, rfl⟩ := h
    obtain rfl | rfl | rfl | rfl | rfl := writeRegister_cases hu <;> exact ⟨_, rfl⟩
  all_goals obtain ⟨_, _, _, _, rfl⟩ := h; exact ⟨_, rfl⟩

/-- Every command answers a next state. -/
theorem exec_total (i : Instr) (s : State) : ∃ t, exec i s = .next t := by
  have main : ∀ body : Result, (∃ t, body = .next t) → ∃ t, command s body = .next t := fun body hb => by
    unfold command
    split
    · exact ⟨_, raise_halted s⟩
    · exact hb
  cases i <;> apply main <;> (repeat' split) <;> exact ⟨_, rfl⟩

/-- A step that takes a command word, when reset is not asserted: a decoded command,
    or the refusal of an illegal word. -/
theorem step_command {w : Word} {rest : List HostInput} (hr : s.inReset = false) (hi : s.inputs = .command w :: rest) :
    step s = match decode w with
      | .ok i => exec i (s.withInputs rest)
      | .error _ => illegalCommand (s.withInputs rest) := by
  have h : step s = runWord w (s.withInputs rest) := by simp [step, stepOnce, hi, accept, hr]
  rw [h]
  unfold runWord
  cases decode w <;> rfl

/-- What a step that takes a command word can answer, when reset is not asserted. -/
theorem step_command_next {w : Word} {rest : List HostInput} (hr : s.inReset = false)
    (hi : s.inputs = .command w :: rest) (h : step s = .next t) :
    Halted (s.withInputs rest) t ∨ s.faulted = false ∧ (Refused (s.withInputs rest) t ∨
      t = fatalAfter (s.withInputs rest) ∨ ∃ i, decode w = .ok i ∧ Success i (s.withInputs rest) t) := by
  rw [step_command hr hi] at h
  split at h
  · obtain h | ⟨hf, h | h | h⟩ := exec_next _ h
    · exact .inl h
    · exact .inr ⟨hf, .inl h⟩
    · exact .inr ⟨hf, .inr (.inl h.2)⟩
    · exact .inr ⟨hf, .inr (.inr ⟨_, ‹_›, h⟩)⟩
  · exact (illegalCommand_next h).imp_right fun h => ⟨h.1, .inl h.2⟩

/-- What a step can do: nothing; drop a command while reset is asserted; assert reset; release it; run a command; refuse
an illegal word. -/
theorem step_next (h : step s = .next t) :
    (s.inputs = [] ∧ t = s) ∨
    (∃ x rest, s.inputs = x :: rest ∧
      ((t = s.withInputs rest) ∨ (x = .resetAsserted ∧ t = (s.withInputs rest).withInReset true) ∨
        (x = .resetReleased ∧ s.inReset = true ∧ t = (s.withInputs rest).afterReset) ∨
        (∃ w i, x = .command w ∧ decode w = .ok i ∧ exec i (s.withInputs rest) = .next t) ∨
        (∃ w e, x = .command w ∧ decode w = .error e ∧ illegalCommand (s.withInputs rest) = .next t))) := by
  unfold step stepOnce at h
  split at h
  · injection h with h; exact .inl ⟨‹_›, h.symm⟩
  · rename_i x rest hi
    refine .inr ⟨x, rest, hi, ?_⟩
    unfold accept at h
    split at h
    · rename_i w
      split at h
      · injection h with h; exact .inl h.symm
      · unfold runWord at h
        split at h
        · rename_i i hd; exact .inr (.inr (.inr (.inl ⟨w, i, rfl, hd, h⟩)))
        · rename_i e hd; exact .inr (.inr (.inr (.inr ⟨w, e, rfl, hd, h⟩)))
    · injection h with h; exact .inr (.inl ⟨rfl, h.symm⟩)
    · split at h
      · injection h with h; exact .inr (.inr (.inl ⟨rfl, ‹_›, h.symm⟩))
      · injection h with h; exact .inl h.symm

end Sys2Proof.Machine
end

