-- ==== Sys2Proof/Laws/HostReference.lean ====
section
/-! SUPPORT. What the host's software can end with when it drives the block (R256, R258): a result means that every part
before it had one. -/

namespace Sys2Proof.Machine

section
variable {α β : Type} {r : HostResult α} {f : α → State → HostResult β}

/-- A result comes from the result of each part. -/
theorem andThen_ok {t : State} {b : β} (h : r.andThen f = (t, .ok b)) : ∃ a, r.2 = .ok a ∧ f a r.1 = (t, .ok b) := by
  unfold HostResult.andThen at h
  split at h
  · exact ⟨_, ‹_›, h⟩
  · cases h

/-- An error is final. -/
theorem andThen_error {e : HostError} (h : r.2 = .error e) : r.andThen f = (r.1, .error e) := by
  simp [HostResult.andThen, h]

/-- If what follows always ends in an error, so does the whole. -/
theorem andThen_fails (h : ∀ a s, ∃ e, (f a s).2 = .error e) : ∃ e, (r.andThen f).2 = .error e := by
  unfold HostResult.andThen
  split
  · exact h _ _
  · exact ⟨_, rfl⟩

end

/-- A success gives its value. -/
theorem replyValue_ok {r : Word} (h : r.extractLsb' 24 8 = 0x00) : replyValue r = .ok (r.extractLsb' 0 16) := if_pos h

/-- Any other status gives its error. -/
theorem replyValue_error {r : Word} (h : r.extractLsb' 24 8 ≠ 0x00) :
    replyValue r = .error (hostErrorOf (r.extractLsb' 24 8)) := if_neg h

/-- A value was the response to the word, the last one given. -/
theorem issue_ok {w : Word} {s t : State} {v : Half} (h : issue w s = (t, .ok v)) :
    step (s.present w) = .next t ∧
      ∃ r, t.responses.getLast? = some r ∧ r.extractLsb' 24 8 = 0x00 ∧ v = r.extractLsb' 0 16 := by
  unfold issue at h
  split at h
  · rename_i u hu
    injection h with h1 h2
    subst h1
    refine ⟨hu, ?_⟩
    generalize u.responses.getLast? = o at h2
    cases o with
    | none => cases h2
    | some r =>
      simp only [Option.elim, replyValue] at h2
      split at h2
      · injection h2 with h2
        exact ⟨r, rfl, by assumption, h2.symm⟩
      · cases h2
  · cases h

/-- The values of a run of lines are those of the first line, then those of the others. -/
theorem runLines_cons_ok {l : AsmLine} {rest : List AsmLine} {s t : State} {vs : List Half}
    (h : runLines (l :: rest) s = (t, .ok vs)) :
    ∃ ws u us us', assemble l = some ws ∧ issueAll ws s = (u, .ok us) ∧ runLines rest u = (t, .ok us') ∧
      vs = us ++ us' := by
  simp only [runLines] at h
  split at h
  · cases h
  · rename_i ws hw
    obtain ⟨us, h1, h⟩ := andThen_ok h
    obtain ⟨us', h2, h⟩ := andThen_ok h
    injection h with h3 h4
    injection h4 with h4
    exact ⟨ws, _, us, us', hw, Prod.ext rfl h1, Prod.ext h3 h2, h4.symm⟩

/-- The values of a list of words are that of the first word, then those of the others. -/
theorem issueAll_cons_ok {w : Word} {rest : List Word} {s t : State} {vs : List Half}
    (h : issueAll (w :: rest) s = (t, .ok vs)) :
    ∃ u v us, issue w s = (u, .ok v) ∧ issueAll rest u = (t, .ok us) ∧ vs = v :: us := by
  obtain ⟨v, h1, h⟩ := andThen_ok h
  obtain ⟨us, h2, h⟩ := andThen_ok h
  injection h with h3 h4
  injection h4 with h4
  exact ⟨_, v, us, Prod.ext rfl h1, Prod.ext h3 h2, h4.symm⟩

/-- A run that holds a line which ends in an error on every block ends in an error. -/
theorem runLines_fails {l : AsmLine} (h : ∀ s, ∃ e, (runLines [l] s).2 = .error e) {lines : List AsmLine} (hl : l ∈ lines)
    (s : State) : ∃ e, (runLines lines s).2 = .error e := by
  cases hr : (runLines lines s).2 with
  | error e => exact ⟨e, rfl⟩
  | ok vs =>
    exfalso
    induction lines generalizing s vs with
    | nil => cases hl
    | cons a rest ih =>
      obtain ⟨ws, u, us, us', hw, hi, hr, -⟩ := runLines_cons_ok
        (show runLines (a :: rest) s = ((runLines (a :: rest) s).1, .ok vs) from Prod.ext rfl hr)
      obtain rfl | hl := List.mem_cons.1 hl
      · obtain ⟨e, he⟩ := h s
        simp [runLines, hw, hi, HostResult.andThen] at he
      · exact ih hl u us' (by rw [hr])

/-! ### What makes a run succeed -/

/-- A command that succeeds is issued with its value. -/
theorem issue_of_answered {i : Instr} {s t : State} {v : Half} (hd : decode (encode i) = .ok i)
    (h : exec i (s.withInReset false) = .next (answered t v)) : issue (encode i) s = (answered t v, .ok v) := by
  have hs : step (s.present (encode i)) = .next (answered t v) := by
    rw [step_command (s := s.present (encode i)) (w := encode i) (rest := s.inputs) rfl rfl, hd]
    exact h
  simp [issue, hs, answered, replyValue, statusByte]

/-- A line of one command that succeeds. -/
theorem runLines_single {l : AsmLine} {i : Instr} {s t : State} {v : Half} (hw : asmWellFormed l = true)
    (he : expand l = [i]) (h : issue (encode i) s = (t, .ok v)) : runLines [l] s = (t, .ok [v]) := by
  simp [runLines, assemble, hw, he, issueAll, h, HostResult.andThen]

/-- After a run that succeeds comes what follows. -/
theorem runLines_append {a b : List AsmLine} {s t : State} {vs : List Half} (h : runLines a s = (t, .ok vs)) :
    runLines (a ++ b) s = (runLines b t).andThen fun us u => (u, .ok (vs ++ us)) := by
  induction a generalizing s vs with
  | nil =>
    injection h with h1 h2
    injection h2 with h2
    subst h1 h2
    simp only [List.nil_append, HostResult.andThen]
    split
    · exact Prod.ext rfl ‹_›
    · exact Prod.ext rfl ‹_›
  | cons l rest ih =>
    obtain ⟨ws, u, us, us', hw, hi, hr, rfl⟩ := runLines_cons_ok h
    simp only [List.cons_append, runLines, hw, hi, HostResult.andThen]
    rw [ih hr]
    simp only [HostResult.andThen]
    cases (runLines b t).2 <;> simp

/-- Two runs that succeed, one after the other. -/
theorem runLines_append_ok {a b : List AsmLine} {s t u : State} {vs us : List Half} (h : runLines a s = (t, .ok vs))
    (h' : runLines b t = (u, .ok us)) : runLines (a ++ b) s = (u, .ok (vs ++ us)) := by
  rw [runLines_append h, h']
  rfl

/-- Lines that each succeed and keep a property succeed together and keep it. -/
theorem runLines_succeeds {P : State → Prop} {lines : List AsmLine}
    (h : ∀ l ∈ lines, ∀ s, P s → ∃ t vs, runLines [l] s = (t, .ok vs) ∧ P t) {s : State} (hs : P s) :
    ∃ t vs, runLines lines s = (t, .ok vs) ∧ P t := by
  induction lines generalizing s with
  | nil => exact ⟨s, [], rfl, hs⟩
  | cons l rest ih =>
    obtain ⟨t, vs, ht, hp⟩ := h l (by simp) s hs
    obtain ⟨u, us, hu, hq⟩ := ih (fun l hl => h l (by simp [hl])) hp
    exact ⟨u, vs ++ us, runLines_append_ok (a := [l]) ht hu, hq⟩

end Sys2Proof.Machine
end

