-- ==== Sys2Proof/Laws/PerInstr.lean ====
section
/-! SUPPORT. For every command: its word lies in the row of the opcode map (R94) that bears its mnemonic. -/

namespace Sys2Proof.Laws.EncodesInRow

/-- The word of a command selects the row of its mnemonic: opcode and must-be-zero fields are as R94 says. -/
def Statement (i : Instr) : Prop := ∃ r ∈ opTable, r.mnemonic = mnemonicOf i ∧ r.selects (encode i) = true

/-- A row is selected when every bit under the mask is the pattern's. -/
theorem selects_of_bits {r : OpRow} {w : Word}
    (h : ∀ k : Nat, k < 32 → (w.getLsbD k && r.mask.getLsbD k) = r.pattern.getLsbD k) : r.selects w = true := by
  have : w &&& r.mask = r.pattern := BitVec.eq_of_getLsbD_eq fun k hk => by simpa using h k hk
  simp [OpRow.selects, this]

theorem nop : Statement (.nop) := by
  refine ⟨⟨"NOP", 0x00000000, 0xFFFFFFFF⟩, by decide, rfl, selects_of_bits fun k hk => ?_⟩
  interval_cases k <;> simp [encode, encodeZ, fieldAt]

theorem setq (r : BitVec 4) (imm : Half) : Statement (.setq r imm) := by
  refine ⟨⟨"SETQ", 0x01000000, 0xFFF00000⟩, by decide, rfl, selects_of_bits fun k hk => ?_⟩
  interval_cases k <;> simp [encode, encodeQ, fieldAt]

theorem getq (r : BitVec 4) : Statement (.getq r) := by
  refine ⟨⟨"GETQ", 0x02000000, 0xFFF0FFFF⟩, by decide, rfl, selects_of_bits fun k hk => ?_⟩
  interval_cases k <;> simp [encode, encodeQ, fieldAt]

theorem clrerr : Statement (.clrerr) := by
  refine ⟨⟨"CLRERR", 0x03000000, 0xFFFFFFFF⟩, by decide, rfl, selects_of_bits fun k hk => ?_⟩
  interval_cases k <;> simp [encode, encodeZ, fieldAt]

theorem setver (n : Half) : Statement (.setver n) := by
  refine ⟨⟨"SETVER", 0x04000000, 0xFFFF0000⟩, by decide, rfl, selects_of_bits fun k hk => ?_⟩
  interval_cases k <;> simp [encode, encodeX, fieldAt]

theorem gfmul (a : Byte) (b : Byte) : Statement (.gfmul a b) := by
  refine ⟨⟨"GFMUL", 0x10000000, 0xFFFF0000⟩, by decide, rfl, selects_of_bits fun k hk => ?_⟩
  interval_cases k <;> simp [encode, encodeS, fieldAt]

theorem gfdiv (a : Byte) (b : Byte) : Statement (.gfdiv a b) := by
  refine ⟨⟨"GFDIV", 0x11000000, 0xFFFF0000⟩, by decide, rfl, selects_of_bits fun k hk => ?_⟩
  interval_cases k <;> simp [encode, encodeS, fieldAt]

theorem gfexp (a : Byte) : Statement (.gfexp a) := by
  refine ⟨⟨"GFEXP", 0x12000000, 0xFFFFFF00⟩, by decide, rfl, selects_of_bits fun k hk => ?_⟩
  interval_cases k <;> simp [encode, encodeS, fieldAt]

theorem gflog (a : Byte) : Statement (.gflog a) := by
  refine ⟨⟨"GFLOG", 0x13000000, 0xFFFFFF00⟩, by decide, rfl, selects_of_bits fun k hk => ?_⟩
  interval_cases k <;> simp [encode, encodeS, fieldAt]

theorem pmul : Statement (.pmul) := by
  refine ⟨⟨"PMUL", 0x20000000, 0xFFFFFFFF⟩, by decide, rfl, selects_of_bits fun k hk => ?_⟩
  interval_cases k <;> simp [encode, encodeZ, fieldAt]

theorem prem : Statement (.prem) := by
  refine ⟨⟨"PREM", 0x21000000, 0xFFFFFFFF⟩, by decide, rfl, selects_of_bits fun k hk => ?_⟩
  interval_cases k <;> simp [encode, encodeZ, fieldAt]

theorem genp (n : Half) : Statement (.genp n) := by
  refine ⟨⟨"GENP", 0x22000000, 0xFFFF0000⟩, by decide, rfl, selects_of_bits fun k hk => ?_⟩
  interval_cases k <;> simp [encode, encodeX, fieldAt]

theorem ecgen (n : Half) : Statement (.ecgen n) := by
  refine ⟨⟨"ECGEN", 0x23000000, 0xFFFF0000⟩, by decide, rfl, selects_of_bits fun k hk => ?_⟩
  interval_cases k <;> simp [encode, encodeX, fieldAt]

theorem cwwr (addr : Half) (data : Byte) : Statement (.cwwr addr data) := by
  refine ⟨⟨"CWWR", 0x30000000, 0xFF000000⟩, by decide, rfl, selects_of_bits fun k hk => ?_⟩
  interval_cases k <;> simp [encode, encodeM, fieldAt]

theorem cwrd (addr : Half) : Statement (.cwrd addr) := by
  refine ⟨⟨"CWRD", 0x31000000, 0xFF0000FF⟩, by decide, rfl, selects_of_bits fun k hk => ?_⟩
  interval_cases k <;> simp [encode, encodeM, fieldAt]

theorem rsvclr : Statement (.rsvclr) := by
  refine ⟨⟨"RSVCLR", 0x40000000, 0xFFFFFFFF⟩, by decide, rfl, selects_of_bits fun k hk => ?_⟩
  interval_cases k <;> simp [encode, encodeZ, fieldAt]

theorem rsvwr (row : Byte) (col : Byte) (val : Byte) : Statement (.rsvwr row col val) := by
  refine ⟨⟨"RSVWR", 0x41000000, 0xFF000000⟩, by decide, rfl, selects_of_bits fun k hk => ?_⟩
  interval_cases k <;> simp [encode, encodeC, fieldAt]

theorem rsvrd (row : Byte) (col : Byte) : Statement (.rsvrd row col) := by
  refine ⟨⟨"RSVRD", 0x42000000, 0xFF0000FF⟩, by decide, rfl, selects_of_bits fun k hk => ?_⟩
  interval_cases k <;> simp [encode, encodeC, fieldAt]

theorem seqgen : Statement (.seqgen) := by
  refine ⟨⟨"SEQGEN", 0x43000000, 0xFFFFFFFF⟩, by decide, rfl, selects_of_bits fun k hk => ?_⟩
  interval_cases k <;> simp [encode, encodeZ, fieldAt]

theorem seqrd (n : Half) : Statement (.seqrd n) := by
  refine ⟨⟨"SEQRD", 0x44000000, 0xFFFF0000⟩, by decide, rfl, selects_of_bits fun k hk => ?_⟩
  interval_cases k <;> simp [encode, encodeX, fieldAt]

theorem gridclr : Statement (.gridclr) := by
  refine ⟨⟨"GRIDCLR", 0x50000000, 0xFFFFFFFF⟩, by decide, rfl, selects_of_bits fun k hk => ?_⟩
  interval_cases k <;> simp [encode, encodeZ, fieldAt]

theorem gridwr (row : Byte) (col : Byte) (val : Byte) : Statement (.gridwr row col val) := by
  refine ⟨⟨"GRIDWR", 0x51000000, 0xFF000000⟩, by decide, rfl, selects_of_bits fun k hk => ?_⟩
  interval_cases k <;> simp [encode, encodeC, fieldAt]

theorem gridrd (row : Byte) (col : Byte) : Statement (.gridrd row col) := by
  refine ⟨⟨"GRIDRD", 0x52000000, 0xFF0000FF⟩, by decide, rfl, selects_of_bits fun k hk => ?_⟩
  interval_cases k <;> simp [encode, encodeC, fieldAt]

theorem mplace (n : Half) : Statement (.mplace n) := by
  refine ⟨⟨"MPLACE", 0x53000000, 0xFFFF0000⟩, by decide, rfl, selects_of_bits fun k hk => ?_⟩
  interval_cases k <;> simp [encode, encodeX, fieldAt]

end Sys2Proof.Laws.EncodesInRow
end

