-- ==== Sys2Proof/Laws/Placement.lean ====
section
/-! SUPPORT. The placement sequence stays inside the grid and is short enough for `SEQLEN` (R201); placing keeps the
canonical form of `GRID` (R222). -/

namespace Sys2Proof.Machine

theorem pairRightOf_lt {n : Nat} (h : n ≠ 0) : pairRightOf n < n := by
  unfold pairRightOf Config.timingCol
  split <;> omega

theorem pairCells_length_le (side : Nat) (rsv : Coord → Bool) (right : Nat) (up : Bool) :
    (pairCells side rsv right up).length ≤ 2 * side := by
  have main : ∀ (f : Nat → Nat) (l : List Nat), (l.flatMap fun k => pairRow rsv right (f k)).length ≤ 2 * l.length := by
    intro f l
    induction l with
    | nil => simp
    | cons a l ih =>
      have h2 : (pairRow rsv right (f a)).length ≤ 2 := List.length_filter_le _ _
      simp only [List.flatMap_cons, List.length_append, List.length_cons]
      omega
  have h := main (fun k => if up then side - 1 - k else k) (List.range side)
  rwa [List.length_range] at h

theorem pairScan_length_le (side : Nat) (rsv : Coord → Bool) (fuel next : Nat) (up : Bool) :
    (pairScan side rsv fuel next up).length ≤ (next + 1) * side := by
  induction fuel generalizing next up with
  | zero => simp [pairScan]
  | succ fuel ih =>
    simp only [pairScan]
    split
    · simp
    · rename_i h0
      have hlt := pairRightOf_lt h0
      have h1 := pairCells_length_le side rsv (pairRightOf next) up
      have h2 := ih (pairRightOf next - 1) (!up)
      simp only [List.length_append]
      generalize pairRightOf next = r at *
      by_cases hr : r = 0
      · subst hr
        have : pairScan side rsv fuel (0 - 1) (!up) = [] := by cases fuel <;> simp [pairScan]
        have : 2 * side ≤ (next + 1) * side := Nat.mul_le_mul_right _ (by omega)
        simp only [‹pairScan side rsv fuel (0 - 1) (!up) = []›, List.length_nil]
        omega
      · have : (r - 1 + 1) * side + 2 * side ≤ (next + 1) * side := by
          rw [← Nat.add_mul]; exact Nat.mul_le_mul_right _ (by omega)
        omega

/-- For a legal side length the number of positions fits `SEQLEN`. -/
theorem placementSequence_length_lt {side : Nat} (rsv : Coord → Bool) (h : side ≤ 177) :
    (placementSequence side rsv).length < 65536 := by
  have h1 := pairScan_length_le side rsv side side true
  have h2 : (side + 1) * side ≤ 178 * 177 := Nat.mul_le_mul (by omega) h
  unfold placementSequence
  omega

theorem mem_pairScan {side : Nat} {rsv : Coord → Bool} {fuel next : Nat} {up : Bool} (hn : next ≤ side) {c : Coord}
    (hc : c ∈ pairScan side rsv fuel next up) : c.row < side ∧ c.col < side := by
  induction fuel generalizing next up with
  | zero => simp [pairScan] at hc
  | succ fuel ih =>
    simp only [pairScan] at hc
    split at hc
    · simp at hc
    · rename_i h0
      have hlt := pairRightOf_lt h0
      obtain hc | hc := List.mem_append.1 hc
      · simp only [pairCells, pairRow, List.mem_flatMap, List.mem_range, List.mem_filter, List.mem_cons,
          List.not_mem_nil, or_false] at hc
        obtain ⟨k, hk, rfl | rfl, _⟩ := hc <;> constructor <;> dsimp only <;> (try split) <;> omega
      · exact ih (by omega) hc

/-- Every position is a cell of the grid. -/
theorem mem_placementSequence {side : Nat} {rsv : Coord → Bool} {c : Coord} (hc : c ∈ placementSequence side rsv) :
    c.row < side ∧ c.col < side := mem_pairScan (le_refl side) hc

/-- Placing cells of the grid keeps the canonical form. -/
theorem place_wf {side : Nat} (mask : Nat → Nat → Bool) (bytes : List Byte) {seq : List Coord} {g : Grid}
    (hg : gridWf side g = true) (hs : ∀ c ∈ seq, c.row < side ∧ c.col < side) :
    gridWf side (place mask g seq bytes) = true := by
  unfold place
  generalize 0 = k
  induction seq generalizing k g with
  | nil => exact hg
  | cons c seq ih =>
    have h := hs c (by simp)
    exact ih (gridWrite_wf hg h.1 h.2) (fun d hd => hs d (by simp [hd])) (k + 1)

end Sys2Proof.Machine
end

