-- ==== Sys2Proof/Laws/Polynomial.lean ====
section
/-! SUPPORT. The lengths of what the polynomial unit computes (R160, R161, R180, R181). -/

namespace Sys2Proof.Machine

@[simp] theorem xorOnto_length (x y : List Byte) : (xorOnto x y).length = x.length := by
  induction x generalizing y with
  | nil => cases y <;> rfl
  | cons a r ih => cases y <;> simp [xorOnto, ih]

@[simp] theorem polyScale_length (f : Byte) (q : List Byte) : (polyScale f q).length = q.length := by simp [polyScale]

/-- A product of a non-empty sequence has `len(p) + len(q) - 1` bytes. -/
theorem polyMul_length {p : List Byte} (q : List Byte) (hp : p ≠ []) : (polyMul p q).length = p.length + q.length - 1 := by
  cases p with
  | nil => exact absurd rfl hp
  | cons a p => simp only [polyMul, xorOnto_length, List.length_append, polyScale_length, List.length_replicate,
      List.length_cons]; omega

theorem remSteps_length (g : List Byte) (k : Nat) (d : List Byte) : (remSteps g k d).length = d.length - k := by
  induction k generalizing d with
  | zero => rfl
  | succ k ih => rw [remSteps, ih]; simp only [remStep, List.length_tail, xorOnto_length]; omega

/-- A remainder has `len(g) - 1` bytes. -/
theorem polyRem_length {d g : List Byte} (hg : 1 ≤ g.length) (hd : g.length ≤ d.length) :
    (polyRem d g).length = g.length - 1 := by
  rw [polyRem, remSteps_length]; omega

@[simp] theorem genPoly_length (n : Nat) : (genPoly n).length = n + 1 := by
  induction n with
  | zero => rfl
  | succ n ih =>
    rw [genPoly, polyMul_length _ (List.ne_nil_of_length_eq_add_one ih), ih]; rfl

/-- The error-correction codewords fill the total. -/
theorem ecCodewords_length {data : List Byte} {total : Nat} (h : 1 ≤ data.length) :
    (ecCodewords data total).length = total - data.length := by
  rw [ecCodewords, polyRem_length (by simp) (by simp; omega), genPoly_length, Nat.add_sub_cancel]

end Sys2Proof.Machine
end

