-- ==== Sys2Proof/Tests/Slice0.lean ====
section
/-! SUPPORT. Tests, each with the number of its vector in 95_test_vectors.md or of the rule its expected value comes
from, and for each obligation with hypotheses a witness that meets them, at the ends of their ranges. -/

namespace Sys2Proof.Tests

-- one theorem after the other: a thread for each would exceed the memory limit of the check
set_option Elab.async false

open Sys2Proof.Machine

/-! ### Helpers -/

/-- The state after the command word `w`. -/
def run (s : State) (w : Nat) : Option State :=
  match step (s.withFetchWord 32 w) with
  | .next t => some t
  | _ => none

/-- The response to the command word `w`. -/
def reply (s : State) (w : Nat) : Option Word := (run s w).bind fun t => t.responses.getLast?

/-- Reset, then bytes in `CW` from address 0 and the operand registers. -/
def loaded (bytes : List Byte) (sa la sb lb da : Half) : State :=
  { State.reset with cw := memWrite [] 0 bytes, sa := sa, la := la, sb := sb, lb := lb, da := da }

/-- Version 1, nothing reserved, no sequence. -/
def version1 : State := { State.reset with ver := 1, size := 21 }

/-- Version 1 with the sequence of V-SEQ-1. -/
def sequenced : State :=
  { version1 with seq := placementSequence 21 fun _ => false, seqlen := 420, status := 0x0002 }

/-- The first eight positions of V-SEQ-1 as the whole sequence, and one codeword for them at the end of `CW`. -/
def eightCells : State :=
  { sequenced with
    seq := sequenced.seq.take 8, seqlen := 8, cw := memWrite [] 4095 [0x81], sa := 4095, la := 1 }

/-- A block with these inputs on its ports. -/
def presented (l : List HostInput) : State := { State.reset with inputs := l }

/-- A block in the FAULTED state. -/
def stopped : State := { State.reset with status := 0x0101 }

/-! ### Well-formedness: each check refuses an ill-formed term -/

/-- R95: opcode 0x05 selects no row. -/
theorem test_wf_opcode : wordWellFormed 0x05000000 = false := by decide +kernel
/-- R96: a must-be-zero bit of format Z. -/
theorem test_wf_must_be_zero : wordWellFormed 0x00000001 = false := by decide +kernel
/-- R96: the `imm` field of GETQ. -/
theorem test_wf_extra_field : wordWellFormed 0x02000001 = false := by decide +kernel
/-- R94: the words of the table are well-formed. -/
theorem test_wf_table : opTable.all (fun r => wordWellFormed r.pattern) = true := by decide +kernel
/-- R91, R101: a register index, a 16-bit and an 8-bit operand that do not fit, a cell number, ranges that run over. -/
theorem test_wf_lines : asmWellFormed (.getq (.q 16)) = false ∧ asmWellFormed (.setver 65536) = false ∧
    asmWellFormed (.gfexp 256) = false ∧ asmWellFormed (.gridwr 0 0 (.num 256)) = false ∧
    asmWellFormed (.setq (.q 16) 0) = false ∧ asmWellFormed (.setq (.name .sa) 65536) = false ∧
    asmWellFormed (.gfmul 0 256) = false ∧ asmWellFormed (.cwwr 65536 0) = false ∧ asmWellFormed (.cwrd 65536) = false ∧
    asmWellFormed (.rsvwr 256 0 0) = false ∧ asmWellFormed (.rsvrd 0 256) = false ∧ asmWellFormed (.seta 0 65536) = false ∧
    asmWellFormed (.loadcw 65535 [0, 0]) = false ∧ asmWellFormed (.loadcw 0 [256]) = false ∧
    asmWellFormed (.rsvrect 250 0 7 1) = false := by
  decide +kernel
/-- R102: the pseudo-instructions. -/
theorem test_pseudo : assemble (.setb 0x100 3) = some [0x01020100, 0x01030003] ∧
    assemble (.loadcw 0xF [0xEC, 0x11]) = some [0x30000FEC, 0x30001011] ∧
    assemble (.rsvrect 6 10 1 2) = some [0x41060A01, 0x41060B01] := by
  decide +kernel

/-! ### Decoding: words put together field by field from R91 and R94 -/

/-- Format Z. -/
theorem test_decode_format_z : decode (0x00#8 ++ 0#24) = .ok .nop ∧ decode (0x03#8 ++ 0#24) = .ok .clrerr ∧
    decode (0x20#8 ++ 0#24) = .ok .pmul ∧ decode (0x21#8 ++ 0#24) = .ok .prem ∧ decode (0x40#8 ++ 0#24) = .ok .rsvclr ∧
    decode (0x43#8 ++ 0#24) = .ok .seqgen ∧ decode (0x50#8 ++ 0#24) = .ok .gridclr := by
  decide +kernel
/-- Format Q: bits 23:20 zero, `r` in 19:16, `imm` in 15:0. -/
theorem test_decode_format_q : decode (0x01#8 ++ 0b0000#4 ++ 0b0100#4 ++ 0xBEEF#16) = .ok (.setq 4 0xBEEF) ∧
    decode (0x02#8 ++ 0b0000#4 ++ 0b1101#4 ++ 0#16) = .ok (.getq 13) ∧
    decode (0x01#8 ++ 0b0001#4 ++ 0#20) = .error .mustBeZero := by
  decide +kernel
/-- Format X: bits 23:16 zero, `n` in 15:0. -/
theorem test_decode_format_x : decode (0x04#8 ++ 0#8 ++ 0x0128#16) = .ok (.setver 0x128) ∧
    decode (0x22#8 ++ 0#8 ++ 0x00FF#16) = .ok (.genp 255) ∧ decode (0x23#8 ++ 0#8 ++ 0x0100#16) = .ok (.ecgen 256) ∧
    decode (0x44#8 ++ 0#8 ++ 0x01A3#16) = .ok (.seqrd 419) ∧ decode (0x53#8 ++ 0#8 ++ 7#16) = .ok (.mplace 7) := by
  decide +kernel
/-- Format S: bits 23:16 zero, `b` in 15:8, `a` in 7:0. -/
theorem test_decode_format_s : decode (0x10#8 ++ 0#8 ++ 0xCA#8 ++ 0x53#8) = .ok (.gfmul 0x53 0xCA) ∧
    decode (0x11#8 ++ 0#8 ++ 0xCA#8 ++ 0x8F#8) = .ok (.gfdiv 0x8F 0xCA) ∧
    decode (0x12#8 ++ 0#8 ++ 0#8 ++ 0xFE#8) = .ok (.gfexp 0xFE) ∧
    decode (0x13#8 ++ 0#8 ++ 0#8 ++ 0x8E#8) = .ok (.gflog 0x8E) := by
  decide +kernel
/-- Format M: `addr` in 23:8, `data` in 7:0. -/
theorem test_decode_format_m : decode (0x30#8 ++ 0x0FFF#16 ++ 0xAA#8) = .ok (.cwwr 0xFFF 0xAA) ∧
    decode (0x31#8 ++ 0x0FFF#16 ++ 0#8) = .ok (.cwrd 0xFFF) := by
  decide +kernel
/-- Format C: `row` in 23:16, `col` in 15:8, `val` in 7:0. -/
theorem test_decode_format_c : decode (0x41#8 ++ 6#8 ++ 10#8 ++ 1#8) = .ok (.rsvwr 6 10 1) ∧
    decode (0x42#8 ++ 6#8 ++ 11#8 ++ 0#8) = .ok (.rsvrd 6 11) ∧
    decode (0x51#8 ++ 0#8 ++ 21#8 ++ 3#8) = .ok (.gridwr 0 21 3) ∧
    decode (0x52#8 ++ 20#8 ++ 19#8 ++ 0#8) = .ok (.gridrd 20 19) := by
  decide +kernel
/-- The table's numbering is the decoder's: V-EC-20's word and the reserved opcode 0xFF. -/
theorem test_table_word : decodeTableWord 32 0x23000004 = some (.ecgen 4) ∧ decodeTableWord 32 0xFF000000 = none := by
  decide +kernel

/-! ### Control and buffer commands -/

/-- V-CT-1 -/
theorem test_nop : reply State.reset 0x00000000 = some 0 := by decide +kernel
/-- V-CT-3 -/
theorem test_setq : (run State.reset 0x01011234).map (·.la) = some 0x1234 := by decide +kernel
/-- V-CT-5 -/
theorem test_setq_read_only : reply State.reset 0x01080001 = some 0x0D000000 := by decide +kernel
/-- V-CT-6 -/
theorem test_getq : reply { State.reset with status := 0x0D00 } 0x020D0000 = some 0x0D00 := by decide +kernel
/-- V-CT-8 -/
theorem test_getq_reserved : reply State.reset 0x02050000 = some 0x0D000000 := by decide +kernel
/-- V-CT-7; `SEQ_VALID` stays (R124). -/
theorem test_clrerr : (run { sequenced with status := 0x0D02 } 0x03000000).map (·.status) = some 0x0002 := by
  decide +kernel
/-- V-CT-11 -/
theorem test_setver : reply sequenced 0x04000028 = some 177 := by decide +kernel
/-- V-CT-10 -/
theorem test_setver_invalidates : (run sequenced 0x04000001).map (fun t => (t.seqlen, t.status)) = some (0, 0) := by
  decide +kernel
/-- V-CT-15 -/
theorem test_cwwr : (run (loaded [] 0 0 0 0 0) 0x300FFFAA).map (cwByte · 0xFFF) = some 0xAA := by decide +kernel
/-- V-CT-16 -/
theorem test_cwwr_range : reply State.reset 0x30100000 = some 0x07000000 := by decide +kernel
/-- Program 2, step 8. -/
theorem test_cwrd : reply (loaded [0x40, 0x54, 0x21, 0x35] 0 0 0 0 0) 0x31000300 = some 0x35 := by decide +kernel
/-- V-CT-18 -/
theorem test_reserved_opcode : (run State.reset 0x14000000).map (·.status) = some 0x0500 := by decide +kernel
/-- Program 6, step 7: `Halted` before `IllegalCommand`, and `LASTERR` stays. -/
theorem test_halted : reply stopped 0xFF000000 = some 0x0F000000 ∧
    (run stopped 0x03000000).map (·.status) = some 0x0101 := by
  decide +kernel

/-- R320: nothing is accepted while reset is asserted, and its release zeroes the registers. -/
theorem test_reset : step { presented [.command 0x01011234] with inReset := true } =
      .next { presented [] with inReset := true } ∧
    (match step { stopped with inReset := true, inputs := [.resetReleased] } with
      | .next t => some (t.status, t.inReset)
      | _ => none) = some (0, false) :=
  ⟨rfl, by decide +kernel⟩

/-! ### Galois-field unit -/

/-- V-GF-3 -/
theorem test_gfmul : reply State.reset 0x1000CA53 = some 0x8F := by decide +kernel
/-- V-GF-11 -/
theorem test_gfmul_zero : (run { State.reset with res := 7 } 0x10005500).map (·.res) = some 0 := by decide +kernel
/-- V-GF-17 -/
theorem test_gfdiv : reply State.reset 0x1100CA53 = some 0x6D := by decide +kernel
/-- V-GF-41 -/
theorem test_gfdiv_fatal : (run State.reset 0x11000000).map (·.status) = some 0x0101 := by decide +kernel
/-- V-GF-24 -/
theorem test_gfexp : reply State.reset 0x120000FE = some 0x8E := by decide +kernel
/-- V-GF-30 -/
theorem test_gfexp_255 : reply State.reset 0x120000FF = some 0x0C000000 := by decide +kernel
/-- V-GF-27 -/
theorem test_gflog : reply State.reset 0x130000FF = some 0xAF := by decide +kernel
/-- V-GF-31 -/
theorem test_gflog_0 : reply State.reset 0x13000000 = some 0x0C000000 := by decide +kernel

/-! ### Polynomial unit -/

/-- V-PM-4, V-PM-8 -/
theorem test_poly_mul : polyMul [0x02, 0x03] [0x04, 0x05, 0x06] = [0x08, 0x06, 0x03, 0x0A] ∧
    polyMul [0x00] [0x05, 0x06] = [0, 0] := by
  decide +kernel
/-- V-PR-2, V-PR-4, V-PR-6, V-PR-8 -/
theorem test_poly_rem : polyRem [0x12, 0x34, 0x56, 0, 0] [0x01, 0x03, 0x02] = [0x98, 0xE8] ∧
    polyRem [0x06, 0, 0] [0x02, 0x03] = [0x89] ∧ polyRem [0x05, 0x06, 0x07] [0x01] = [] ∧
    polyRem [0x09, 0x08] [0x03, 0x01] = [0x0F] := by
  decide +kernel
/-- V-GP-7 -/
theorem test_gen_poly : genPoly 7 = [0x01, 0x7F, 0x7A, 0x9A, 0xA4, 0x0B, 0x44, 0x75] := by decide +kernel
/-- V-EC-6 -/
theorem test_ec_codewords :
    ecCodewords [0x20, 0x5B, 0x0B, 0x78, 0xD1, 0x72, 0xDC, 0x4D, 0x43, 0x40, 0xEC, 0x11, 0xEC, 0x11, 0xEC, 0x11] 26 =
      [0xC4, 0x23, 0x27, 0x77, 0xEB, 0xD7, 0xE7, 0xE2, 0x5D, 0x17] := by
  decide +kernel
/-- V-PM-21: the destination overlaps both operands. -/
theorem test_pmul : (run (loaded [2, 3] 0 2 0 2 0) 0x20000000).map (cwRead · 0 3) = some [4, 0, 5] := by decide +kernel
/-- V-PM-24 -/
theorem test_pmul_range : reply (loaded [1, 1, 1, 2] 0 2 2 2 0xFFE) 0x20000000 = some 0x07000000 := by decide +kernel
/-- V-PR-20 -/
theorem test_prem : (run (loaded [0x12, 0x34, 0x56, 0, 0, 0, 0, 0, 1, 3, 2] 0 5 8 3 0x10) 0x21000000).map
    (fun t => (cwRead t 0x10 2, t.lr)) = some ([0x98, 0xE8], 2) := by
  decide +kernel
/-- V-PR-23: fatal although the dividend is zero, and nothing is written. -/
theorem test_prem_fatal : (run (loaded [0, 0, 0, 0, 0, 7] 0 3 4 2 3) 0x21000000).map
    (fun t => (t.status, cwByte t 3)) = some (0x0101, 0) := by
  decide +kernel
/-- V-GP-20 -/
theorem test_genp : (run (loaded [] 0 0 0 0 0x100) 0x22000002).map (cwRead · 0x100 3) = some [1, 3, 2] := by
  decide +kernel
/-- V-GP-23 -/
theorem test_genp_range : reply (loaded [] 0 0 0 0 0xF01) 0x220000FF = some 0x07000000 := by decide +kernel
/-- V-EC-20 -/
theorem test_ecgen : (run (loaded [0x40, 0x54] 0 2 0 0 2) 0x23000004).map (cwRead · 0 4) =
    some [0x40, 0x54, 0x21, 0x35] := by
  decide +kernel
/-- V-EC-24 -/
theorem test_ecgen_degree : reply (loaded [0] 0 1 0 0 1) 0x23000101 = some 0x06000000 := by decide +kernel

/-! ### Placement sequencer -/

/-- V-SEQ-1: the length, the turn after the first pair, the jump over column 6, the end. -/
theorem test_sequence : (placementSequence 21 fun _ => false).length = 420 ∧
    ((placementSequence 21 fun _ => false)[41]? = some ⟨0, 19⟩ ∧ (placementSequence 21 fun _ => false)[42]? = some ⟨0, 18⟩) ∧
    (placementSequence 21 fun _ => false)[419]? = some ⟨20, 0⟩ := by
  decide +kernel
/-- V-SEQ-2: the reserved set of version 1 leaves 208 positions; entries 175, 176 and 184. -/
theorem test_sequence_reserved : (placementSequence 21 (isReserved 1 none)).length = 208 ∧
    ((placementSequence 21 (isReserved 1 none))[175]? = some ⟨20, 9⟩ ∧
      (placementSequence 21 (isReserved 1 none))[176]? = some ⟨12, 8⟩) ∧
    (placementSequence 21 (isReserved 1 none))[184]? = some ⟨9, 5⟩ := by
  decide +kernel
/-- V-SQ-13 -/
theorem test_rsvclr : (run { version1 with rsv := [(⟨6, 10⟩, true)] } 0x40000000).map (rsvBit ·.rsv ⟨6, 10⟩) =
    some false := by
  decide +kernel
/-- V-SQ-8 -/
theorem test_rsvwr : (run sequenced 0x41141401).map (fun t => (rsvBit t.rsv ⟨20, 20⟩, t.seqValid, t.seqlen)) =
    some (true, false, 0) := by
  decide +kernel
/-- V-SQ-10, V-SQ-11 -/
theorem test_rsvwr_refused : reply version1 0x41001501 = some 0x09000000 ∧ reply version1 0x41000002 = some 0x0E000000 := by
  decide +kernel
/-- V-SQ-12 -/
theorem test_rsvrd : reply { version1 with rsv := [(⟨6, 10⟩, true)] } 0x42060A00 = some 1 ∧
    reply { version1 with rsv := [(⟨6, 10⟩, true)] } 0x42060B00 = some 0 := by
  decide +kernel
/-- V-SEQ-3 -/
theorem test_seqgen : (run { version1 with rsv := [(⟨20, 20⟩, true)] } 0x43000000).map
    (fun t => (t.seqlen, t.seq.head?, t.status)) = some (419, some ⟨20, 19⟩, 0x0002) := by
  decide +kernel
/-- V-SQ-1 -/
theorem test_seqgen_unconfigured : reply State.reset 0x43000000 = some 0x08000000 := by decide +kernel
/-- V-SQ-5 -/
theorem test_seqrd : reply sequenced 0x44000001 = some 0x1413 := by decide +kernel
/-- V-SQ-7 -/
theorem test_seqrd_index : reply sequenced 0x440001A4 = some 0x0D000000 := by decide +kernel

/-! ### Mask pipeline -/

/-- The table of 95_test_vectors.md section 7 at (0,1), (2,3), (4,5) and (20,19), masks 0 to 7. -/
theorem test_masks :
    [(0, 1), (2, 3), (4, 5), (20, 19)].map (fun p => (List.range 8).map fun m => (maskFn m p.1 p.2).toNat) =
      [[0, 1, 0, 0, 1, 1, 1, 0], [0, 1, 1, 0, 1, 1, 1, 0], [0, 1, 0, 1, 0, 0, 1, 0], [0, 1, 0, 1, 1, 0, 1, 0]] := by
  decide +kernel
/-- V-GR-7 -/
theorem test_gridclr : (run { sequenced with grid := [(⟨0, 0⟩, .dark)] } 0x50000000).map
    (fun t => (gridCell t.grid ⟨0, 0⟩, t.seqValid)) = some (.unset, true) := by
  decide +kernel
/-- V-GR-3 -/
theorem test_gridwr : (run { version1 with grid := [(⟨0, 0⟩, .dark)] } 0x51000002).map (gridCell ·.grid ⟨0, 0⟩) =
    some .light := by
  decide +kernel
/-- V-GR-5 -/
theorem test_gridwr_value : reply version1 0x51000001 = some 0x0E000000 := by decide +kernel
/-- V-GR-2 -/
theorem test_gridrd : reply { version1 with grid := [(⟨0, 0⟩, .dark)] } 0x52000000 = some 3 := by decide +kernel
/-- V-GR-6 -/
theorem test_gridrd_outside : reply version1 0x52150000 = some 0x09000000 := by decide +kernel
/-- V-MX-3: bits 0 and 7 set, mask 0; entries 0, 1 and 7 and a cell of column 6. -/
theorem test_mplace : (run eightCells 0x53000000).map (fun t => [(20, 20), (20, 19), (17, 19), (0, 6)].map fun p =>
    gridCell t.grid ⟨p.1, p.2⟩) = some [.light, .light, .light, .unset] := by
  decide +kernel
/-- V-MX-6: 416 bits for 420 positions. -/
theorem test_mplace_underrun : reply { sequenced with la := 52 } 0x53000000 = some 0x0B000000 := by decide +kernel

/-! ### The host's software -/

/-- V-HOST-1, V-HOST-2, V-HOST-5, V-HOST-6 -/
theorem test_encoder : byteModeEncode [0x48, 0x45, 0x4C, 0x4C, 0x4F] 16 8 =
      .ok [0x40, 0x54, 0x84, 0x54, 0xC4, 0xC4, 0xF0, 0xEC, 0x11, 0xEC, 0x11, 0xEC, 0x11, 0xEC, 0x11, 0xEC] ∧
    byteModeEncode [0x48, 0x45, 0x4C, 0x4C, 0x4F, 0x21] 7 8 = .error .capacityExceeded ∧
    byteModeEncode [256] 19 8 = .error .invalidCharacter := by
  decide +kernel
/-- V-SEQ-4: 266 cells of version 2 are reserved. -/
theorem test_reserved_set : (reservedSet 2 (some ⟨18, 18⟩)).length = 266 := by decide +kernel
/-- Program 5: the lines before and after the RSVWR lines, and those after SEQGEN answered 208. -/
theorem test_assembly_lines : ((setupLines ⟨1, 19, 26, 8, none⟩ []).drop 1).take 4 =
      [.seta 0 19, .setq (.name .da) 19, .ecgen 26, .setver 1] ∧
    (setupLines ⟨1, 19, 26, 8, none⟩ [])[5 + 233]? = some .seqgen ∧
    (placeLines ⟨1, 19, 26, 8, none⟩ 0 208).take 2 = [.seta 0 26, .mplace 0] ∧
    (placeLines ⟨2, 34, 44, 8, some ⟨18, 18⟩⟩ 0 359).take 3 = [.loadcw 44 [0], .seta 0 45, .mplace 0] := by
  decide +kernel
/-- R258 and V-MX-5: the run stops at the refused MPLACE, and the line after it is not issued. -/
theorem test_abort : (runLines [.setver 1, .mplace 8, .gridwr 0 0 .dark] State.reset).2 = .error .invalidMaskIndex ∧
    (runLines [.setver 1, .mplace 8, .gridwr 0 0 .dark] State.reset).1.grid = [] := by
  decide +kernel

/-! ### Witnesses: a state and operands that meet the hypotheses of each obligation, clause by clause -/

/-- `EncodeOfDecodeIsTheWord`: a word that decodes. -/
theorem witness_encode_of_decode : decode 0x5200FF00 = .ok (.gridrd 0 255) := by decide +kernel

/-- `DecoderFollowsTheOpcodeMap`: a word that decodes and one that does not, with rows of the table. -/
theorem witness_opcode_map : decode 0x53000007 = .ok (.mplace 7) ∧ decode 0x54000000 = .error .reservedOpcode ∧
    decode 0x53010007 = .error .mustBeZero ∧ ⟨"NOP", 0x00000000, 0xFFFFFFFF⟩ ∈ opTable ∧
    ⟨"MPLACE", 0x53000000, 0xFFFF0000⟩ ∈ opTable := by
  decide +kernel

/-- `ReservedOpcodeIsRefused`: both ends of each range of R95. -/
theorem witness_reserved_opcode :
    (presented [.command 0x05000000]).inReset = false ∧ (presented [.command 0x05000000]).running ∧
    ∀ op ∈ [0x05, 0x0F, 0x14, 0x1F, 0x24, 0x2F, 0x32, 0x3F, 0x45, 0x4F, 0x54, 0xFF],
      reservedOpcode ((BitVec.ofNat 32 (op * 0x1000000 + 0xFFFFFF)).toNat / 0x1000000) := by
  unfold reservedOpcode
  decide +kernel

/-- `MustBeZeroViolationIsRefused`: the examples of R96. -/
theorem witness_must_be_zero :
    (presented [.command 0x02000001]).inReset = false ∧ (presented [.command 0x02000001]).running ∧
    ∃ r ∈ opTable, (0x02000001 : Word) &&& 0xFF000000 = r.pattern &&& 0xFF000000 ∧
      (0x02000001 : Word) &&& r.mask ≠ r.pattern :=
  ⟨rfl, by decide, ⟨"GETQ", 0x02000000, 0xFFF0FFFF⟩, by decide +kernel⟩

/-- `AssemblerLinesEncodeByTheTable`: every operand at its greatest value. -/
theorem witness_assembler_lines :
    regIndex (.q 15) < 16 ∧ regIndex (.name .status) < 16 ∧ (65535 < 65536) ∧ (255 < 256) ∧
    cellNumber .dark < 256 ∧ cellNumber (.num 255) < 256 := by decide

/-- `StepRunsTheDecodedCommand`. -/
theorem witness_step : (presented [.command 0x53000007, .resetAsserted]).inReset = false ∧
    (presented [.command 0x53000007, .resetAsserted]).inputs = .command 0x53000007 :: [.resetAsserted] ∧
    decode 0x53000007 = .ok (.mplace 7) := by
  decide +kernel

/-- `IdleAndAssertedResetSteps`: its three clauses. -/
theorem witness_idle : (presented []).inputs = [] ∧ (presented [.resetAsserted]).inputs = .resetAsserted :: [] ∧
    ({ presented [.command 0] with inReset := true } : State).inReset = true ∧
    ({ presented [.command 0] with inReset := true } : State).inputs = .command 0 :: [] := by
  decide +kernel

/-- `ResetReleaseGivesTheResetState`. -/
theorem witness_reset_release : ({ stopped with inReset := true, inputs := [.resetReleased] } : State).inReset = true ∧
    ({ stopped with inReset := true, inputs := [.resetReleased] } : State).inputs = .resetReleased :: [] := by
  decide +kernel

/-- `FaultedRefusesEveryWord`: a word in the FAULTED state, and the way out. -/
theorem witness_faulted : stopped.faulted = true ∧
    ({ stopped with inputs := [.command 0xFF000000] } : State).inReset = false ∧
    ({ stopped with inputs := [.command 0xFF000000] } : State).faulted = true ∧
    ∃ t, step { stopped with inReset := true, inputs := [.resetReleased] } = .next t ∧ t.faulted = false :=
  ⟨by decide, by decide, by decide, _, rfl, by decide⟩

/-- `EveryCommandGivesOneResponse`. -/
theorem witness_one_response : (presented [.command 0x00000001]).inReset = false ∧
    (presented [.command 0x00000001]).inputs = .command 0x00000001 :: [] := by
  decide

/-- `RefusalChangesOnlyLastErr`: the word 0xFF000000, refused with `IllegalCommand`. -/
theorem witness_refusal : (presented [.command 0xFF000000]).inReset = false ∧
    step (presented [.command 0xFF000000]) = .next (refusedWith (presented []) 0x05) ∧
    (refusedWith (presented []) 0x05).responses = (presented [.command 0xFF000000]).responses ++ [0x05000000] ∧
    (0x05000000 : Word).extractLsb' 24 8 ≠ 0x00 ∧ (0x05000000 : Word).extractLsb' 24 8 ≠ 0x01 ∧
    (0x05000000 : Word).extractLsb' 24 8 ≠ 0x0F :=
  ⟨rfl, rfl, rfl, by decide, by decide, by decide⟩

/-- `SuccessKeepsTheErrorRecord`: NOP succeeds. -/
theorem witness_success : exec .nop sequenced = .next (answered sequenced 0) ∧
    (answered sequenced 0).responses = sequenced.responses ++ [(0 : Half).setWidth 32] ∧ Instr.nop ≠ .clrerr :=
  ⟨rfl, rfl, by decide⟩

/-- `FaultedComesOnlyFromDivisionByZero`: V-GF-41. -/
theorem witness_division_by_zero : State.reset.running ∧
    exec (.gfdiv 0 0) State.reset = .next (fatalAfter State.reset) ∧ (fatalAfter State.reset).faulted = true :=
  ⟨rfl, rfl, rfl⟩

/-- `FaultedComesOnlyFromDivisionByZero`: V-PR-23. -/
theorem witness_prem_by_zero : (loaded [0, 0, 0, 0, 0, 7] 0 3 4 2 8).running ∧
    ((match exec .prem (loaded [0, 0, 0, 0, 0, 7] 0 3 4 2 8) with
      | .next t => some t.faulted
      | _ => none) = some true) := by
  decide +kernel

/-- `SeqValidFollowsTheCacheRule`: RSVCLR and SETVER succeed and clear `SEQ_VALID`; SEQGEN sets it and writes `SEQ`. -/
theorem witness_cache :
    (∃ t, exec .rsvclr sequenced = .next t ∧ t.responses = sequenced.responses ++ [(0 : Half).setWidth 32] ∧
      sequenced.seqValid = true ∧ t.seqValid = false) ∧
    (∃ t, exec (.setver 40) sequenced = .next t ∧ t.responses = sequenced.responses ++ [(177 : Half).setWidth 32]) ∧
    (∃ t, exec (.rsvwr 20 20 1) sequenced = .next t ∧ t.responses = sequenced.responses ++ [(0 : Half).setWidth 32]) ∧
    (∃ t, exec .seqgen version1 = .next t ∧ version1.seqValid = false ∧ t.seqValid = true ∧ t.seq ≠ version1.seq) := by
  refine ⟨⟨_, rfl, ?_⟩, ⟨_, rfl, ?_⟩, ⟨_, rfl, ?_⟩, ⟨_, rfl, ?_⟩⟩ <;> decide +kernel

/-- `RegistersChangeOnlyInTheirCommands` and `MemoriesChangeOnlyInTheirCommands`: NOP is none of the named commands. -/
theorem witness_frames : exec .nop sequenced = .next (answered sequenced 0) ∧
    (answered sequenced 0).responses = sequenced.responses ++ [(0 : Half).setWidth 32] ∧
    exec .nop stopped = .next (haltedAfter stopped) ∧ stopped.faulted = true ∧ Instr.nop ≠ .clrerr ∧ Instr.nop ≠ .pmul ∧ Instr.nop ≠ .prem ∧
    Instr.nop ≠ .rsvclr ∧ Instr.nop ≠ .seqgen ∧ Instr.nop ≠ .gridclr ∧ (∀ n, Instr.nop ≠ .setver n) ∧
    (∀ r imm, Instr.nop ≠ .setq r imm) ∧ (∀ n, Instr.nop ≠ .genp n) ∧ (∀ n, Instr.nop ≠ .ecgen n) ∧
    (∀ a d, Instr.nop ≠ .cwwr a d) ∧ (∀ r c v, Instr.nop ≠ .rsvwr r c v) ∧ (∀ r c v, Instr.nop ≠ .gridwr r c v) ∧
    (∀ n, Instr.nop ≠ .mplace n) ∧ (∀ a b, Instr.nop ≠ .gfmul a b) ∧ (∀ a b, Instr.nop ≠ .gfdiv a b) ∧
    (∀ a, Instr.nop ≠ .gfexp a) ∧ ∀ a, Instr.nop ≠ .gflog a := by
  refine ⟨rfl, rfl, rfl, by decide, ?_⟩
  simp

/-- `InvariantIsKeptByEveryStep`: a configured block with a valid sequence, and a step of it. -/
theorem witness_invariant : sequenced.Inv ∧ step sequenced = .next sequenced :=
  ⟨⟨by decide, by decide, by decide, by decide, by decide, by decide, by decide, by decide,
    fun _ => ⟨by decide, rfl, by decide +kernel⟩, by decide, by decide, by decide⟩, rfl⟩

/-- Every statement about a command on a running block: one that is. -/
theorem witness_running : State.reset.running ∧ version1.running ∧ sequenced.running := by decide

/-- `GfdivResult`, `GfexpAndGflogResult`: both sides of each case. -/
theorem witness_scalar : State.reset.running ∧ (0 : Byte) = 0 ∧ (1 : Byte) ≠ 0 ∧ (255 : Byte) ≠ 0 ∧ (254 : Byte) ≠ 255 := by
  decide

/-- `GaloisTablesAsConstructed`, `GfLawsHold`: the last exponent, two equal entries, a zero product, a divisor. -/
theorem witness_tables : (254 < 255) ∧ expMod 254 = expMod 254 ∧ gfMul 0 255 = 0 ∧ (255 : Byte) ≠ 0 := by
  decide +kernel

/-- The polynomial functions: a divisor of one byte, a divisor as long as the dividend, a monic divisor. -/
theorem witness_polynomials : ([3] : List Byte) ≠ [] ∧
    (1 ≤ ([3] : List Byte).length ∧ ([3] : List Byte).length ≤ [9, 8].length ∧ ([3] : List Byte).headD 0 ≠ 0) ∧
    (1 ≤ ([1, 1] : List Byte).length ∧ ([1, 1] : List Byte).length ≤ ([9, 8] : List Byte).length ∧
      ([9, 8] : List Byte).length = ([0, 7] : List Byte).length ∧ ([1, 1] : List Byte).headD 0 = 1 ∧
      ([1, 1] : List Byte).headD 0 ≠ 0) := by
  decide

/-- `GenPolyIsMonic`, `EcCodewordsMakeAMultiple`: degree 255 and degree 0. -/
theorem witness_degrees : (255 ≤ 255) ∧ 1 ≤ ([7] : List Byte).length ∧ ([7] : List Byte).length ≤ 256 ∧
    256 - ([7] : List Byte).length ≤ 255 ∧ ([7] : List Byte).length ≤ 1 := by
  decide

/-- `PmulResult`: each refusal by one, and a result that ends at the last byte of `CW`. -/
theorem witness_pmul : (loaded [] 0 0 0 1 0).running ∧ (loaded [] 0 0 0 1 0).la = 0 ∧
    (0xFFA + 7 > 4096 ∧ (loaded [] 0xFFA 7 0 1 0).sa.toNat + (loaded [] 0xFFA 7 0 1 0).la.toNat > 4096) ∧
    (loaded [] 0 2 0 2 0xFFE).da.toNat +
      ((loaded [] 0 2 0 2 0xFFE).la.toNat + (loaded [] 0 2 0 2 0xFFE).lb.toNat - 1) > 4096 ∧
    (loaded [] 0xFFE 2 0xFFE 2 0xFFD).running ∧ (loaded [] 0xFFE 2 0xFFE 2 0xFFD).la ≠ 0 ∧
    (loaded [] 0xFFE 2 0xFFE 2 0xFFD).lb ≠ 0 ∧
    (loaded [] 0xFFE 2 0xFFE 2 0xFFD).sa.toNat + (loaded [] 0xFFE 2 0xFFE 2 0xFFD).la.toNat ≤ 4096 ∧
    (loaded [] 0xFFE 2 0xFFE 2 0xFFD).sb.toNat + (loaded [] 0xFFE 2 0xFFE 2 0xFFD).lb.toNat ≤ 4096 ∧
    (loaded [] 0xFFE 2 0xFFE 2 0xFFD).da.toNat +
      ((loaded [] 0xFFE 2 0xFFE 2 0xFFD).la.toNat + (loaded [] 0xFFE 2 0xFFE 2 0xFFD).lb.toNat - 1) ≤ 4096 := by
  decide

/-- `PremResult`: each refusal, the zero divisor, and an empty result at `DA` = 4096 (V-PR-21 to V-PR-24). -/
theorem witness_prem : (loaded [] 0 2 0 3 0).running ∧
    (loaded [] 0 2 0 3 0).la.toNat < (loaded [] 0 2 0 3 0).lb.toNat ∧
    (loaded [5, 6, 7, 0, 1] 0 3 4 1 5000).da.toNat + ((loaded [5, 6, 7, 0, 1] 0 3 4 1 5000).lb.toNat - 1) > 4096 ∧
    cwByte (loaded [0, 0, 0, 0, 0, 7] 0 3 4 2 8) (loaded [0, 0, 0, 0, 0, 7] 0 3 4 2 8).sb.toNat = 0 ∧
    (loaded [5, 6, 7, 0, 1] 0 3 4 1 4096).lb ≠ 0 ∧
    (loaded [5, 6, 7, 0, 1] 0 3 4 1 4096).lb.toNat ≤ (loaded [5, 6, 7, 0, 1] 0 3 4 1 4096).la.toNat ∧
    (loaded [5, 6, 7, 0, 1] 0 3 4 1 4096).sa.toNat + (loaded [5, 6, 7, 0, 1] 0 3 4 1 4096).la.toNat ≤ 4096 ∧
    (loaded [5, 6, 7, 0, 1] 0 3 4 1 4096).sb.toNat + (loaded [5, 6, 7, 0, 1] 0 3 4 1 4096).lb.toNat ≤ 4096 ∧
    (loaded [5, 6, 7, 0, 1] 0 3 4 1 4096).da.toNat + ((loaded [5, 6, 7, 0, 1] 0 3 4 1 4096).lb.toNat - 1) ≤ 4096 ∧
    cwByte (loaded [5, 6, 7, 0, 1] 0 3 4 1 4096) (loaded [5, 6, 7, 0, 1] 0 3 4 1 4096).sb.toNat ≠ 0 := by
  decide +kernel

/-- `GenpResult`: degree 256, then degree 255 at 0xF01 and at 0xF00 (V-GP-22, V-GP-23). -/
theorem witness_genp : (loaded [] 0 0 0 0 0xF01).running ∧ (256 : Half).toNat > 255 ∧ (255 : Half).toNat ≤ 255 ∧
    (loaded [] 0 0 0 0 0xF01).da.toNat + ((255 : Half).toNat + 1) > 4096 ∧ (loaded [] 0 0 0 0 0xF00).running ∧
    (loaded [] 0 0 0 0 0xF00).da.toNat + ((255 : Half).toNat + 1) ≤ 4096 := by
  decide

/-- `EcgenResult`: totals 2 and 257 (V-EC-22, V-EC-24), the range (V-EC-25), 255 codewords, none at all. -/
theorem witness_ecgen : (loaded [] 0 3 0 0 0).running ∧ (2 : Half).toNat < (loaded [] 0 3 0 0 0).la.toNat ∧
    (257 : Half).toNat > (loaded [] 0 1 0 0 1).la.toNat + 255 ∧
    (loaded [] 0 2 0 0 0xFFF).da.toNat + ((4 : Half).toNat - (loaded [] 0 2 0 0 0xFFF).la.toNat) > 4096 ∧
    (loaded [] 0 1 0 0 1).running ∧ (loaded [] 0 1 0 0 1).la ≠ 0 ∧
    (loaded [] 0 1 0 0 1).la.toNat ≤ (256 : Half).toNat ∧ (256 : Half).toNat ≤ (loaded [] 0 1 0 0 1).la.toNat + 255 ∧
    (loaded [] 0 1 0 0 1).sa.toNat + (loaded [] 0 1 0 0 1).la.toNat ≤ 4096 ∧
    (loaded [] 0 1 0 0 1).da.toNat + ((256 : Half).toNat - (loaded [] 0 1 0 0 1).la.toNat) ≤ 4096 ∧
    (4097 : Half).toNat > 4096 ∧ (4097 : Half).toNat ≤ (loaded [] 0 4000 0 0 0).la.toNat + 255 ∧
    (1 : Half).toNat ≤ (loaded [] 0 1 0 0 1).la.toNat + 255 := by
  decide

/-- `SetqResult`, `GetqResult`: the first and the last refused index. -/
theorem witness_index : State.reset.running ∧ (5 : BitVec 4).toNat > 4 ∧ (15 : BitVec 4).toNat > 4 ∧
    (5 : BitVec 4) ∈ ([5, 6, 7, 14, 15] : List (BitVec 4)) ∧ (15 : BitVec 4) ∈ ([5, 6, 7, 14, 15] : List (BitVec 4)) := by
  decide

/-- `SetverResult`: versions 0, 41, 1 and 40. -/
theorem witness_setver : sequenced.running ∧ (0 : Half) = 0 ∧ (41 : Half).toNat > 40 ∧ (1 : Half) ≠ 0 ∧
    (1 : Half).toNat ≤ 40 ∧ (40 : Half) ≠ 0 ∧ (40 : Half).toNat ≤ 40 := by
  decide

/-- `CwwrResult`, `CwrdResult`: the last address and the first after it. -/
theorem witness_address : State.reset.running ∧ (4096 : Half).toNat ≥ 4096 ∧ (4095 : Half).toNat < 4096 := by decide

/-- `CwrdResult`: bytes that no command wrote, at both ends of `CW`. -/
theorem witness_unwritten : (4095 : Half).toNat < 4096 ∧ cellsFind (4095 : Half).toNat State.reset.cw = none ∧
    cellsFind (0 : Half).toNat (loaded [] 0 0 0 0 0).cw = none := by
  decide

/-- `RsvclrResult`, `SeqgenResult`, `GridclrResult`: an unconfigured and a configured block. -/
theorem witness_configured : State.reset.running ∧ State.reset.ver = 0 ∧ version1.running ∧ version1.ver ≠ 0 := by decide

/-- `RsvwrResult`, `RsvrdResult`, `GridwrResult`, `GridrdResult`: the last cell, the first outside, the values at the
ends, a cell of each value. -/
theorem witness_cells : version1.running ∧ (21 : Byte).toNat ≥ version1.size.toNat ∧
    (20 : Byte).toNat < version1.size.toNat ∧ (2 : Byte).toNat > 1 ∧ (1 : Byte).toNat ≤ 1 ∧
    ((1 : Byte) ≠ 0 ∧ (1 : Byte) ≠ 2 ∧ (1 : Byte) ≠ 3) ∧ ((4 : Byte) ≠ 0 ∧ (4 : Byte) ≠ 2 ∧ (4 : Byte) ≠ 3) ∧
    gridCell [(⟨0, 0⟩, .light), (⟨20, 20⟩, .dark)] ⟨20, 19⟩ = .unset ∧
    gridCell [(⟨0, 0⟩, .light), (⟨20, 20⟩, .dark)] ⟨0, 0⟩ = .light ∧
    gridCell [(⟨0, 0⟩, .light), (⟨20, 20⟩, .dark)] ⟨20, 20⟩ = .dark := by
  decide

/-- `SeqrdResult`: no sequence, the last entry, the index after it. -/
theorem witness_seqrd : version1.running ∧ version1.seqValid = false ∧ sequenced.running ∧ sequenced.seqValid = true ∧
    (420 : Half).toNat ≥ sequenced.seqlen.toNat ∧ (419 : Half).toNat < sequenced.seqlen.toNat ∧
    sequenced.seq[(419 : Half).toNat]? = some ⟨20, 0⟩ := by
  decide +kernel

/-- `PlacementVisitsEveryFreeCellOnce`, `PlacementRunsByPairs`: the smallest and the largest grid. -/
theorem witness_sides : (21 % 2 = 1 ∧ 21 ≤ 21) ∧ (177 % 2 = 1 ∧ 21 ≤ 177) ∧ (0 < 21 ∧ 20 < 21) := by decide

/-- `PlacementRunsByPairs`: a map whose last four cells are free, and not all others. -/
theorem witness_corner : ∀ c ∈ [Coord.mk 20 20, ⟨20, 19⟩, ⟨19, 20⟩, ⟨19, 19⟩], isReserved 1 none c = false := by decide

/-- `MplaceResult`: mask 8, no sequence, the range, 416 bits for 420 positions, a range that ends at 4096, the last
position. -/
theorem witness_mplace : version1.running ∧ (8 : Half).toNat > 7 ∧ (7 : Half).toNat ≤ 7 ∧ version1.seqValid = false ∧
    eightCells.seqValid = true ∧
    ({ eightCells with la := 2 } : State).sa.toNat + ({ eightCells with la := 2 } : State).la.toNat > 4096 ∧
    8 * ({ sequenced with la := 52 } : State).la.toNat < sequenced.seqlen.toNat ∧ eightCells.running ∧
    eightCells.sa.toNat + eightCells.la.toNat ≤ 4096 ∧ eightCells.seqlen.toNat ≤ 8 * eightCells.la.toNat ∧
    (⟨0, 6⟩ : Coord) ∉ eightCells.seq.take eightCells.seqlen.toNat ∧
    (eightCells.seq.take eightCells.seqlen.toNat).Nodup ∧ 7 < eightCells.seqlen.toNat ∧
    eightCells.seq[7]? = some ⟨17, 19⟩ := by
  decide +kernel

/-- `PlaceWritesTheMaskedBits`, `PlaceOfComplementedBits`: eight cells of one byte, and a cell outside. -/
theorem witness_place : ((List.range 8).map (Coord.mk 0)).Nodup ∧
    ((List.range 8).map (Coord.mk 0)).length ≤ 8 * ([0x80] : List Byte).length ∧
    ((List.range 8).map (Coord.mk 0))[7]? = some ⟨0, 7⟩ ∧ (⟨0, 8⟩ : Coord) ∉ (List.range 8).map (Coord.mk 0) := by
  decide

/-- `EncoderFillsTheDataCodewords`: code 256, code 255, a full payload and one that is too long by a byte. -/
theorem witness_encoder : (∃ c ∈ [256], c > 255) ∧ (∀ c ∈ [255], c ≤ 255) ∧
    (4 + 8 + 8 * (List.replicate 18 0).length > 8 * 19) ∧ (List.replicate 17 0).length < 2 ^ 8 ∧
    4 + 8 + 8 * (List.replicate 17 0).length ≤ 8 * 19 ∧ (List.replicate 256 0).length ≥ 2 ^ 8 := by
  simp only [List.length_replicate]
  decide

/-- `AssemblyAbortsOnTheFirstFailure`: a payload that does not fit, the first bad mask, both bad versions. -/
theorem witness_assembly_failures : byteModeEncode [0x48, 0x45, 0x4C, 0x4C, 0x4F, 0x21] 7 8 = .error .capacityExceeded ∧
    8 > 7 ∧ (⟨0, 19, 26, 8, none⟩ : SymbolConfig).version = 0 ∧ (⟨41, 19, 26, 8, none⟩ : SymbolConfig).version > 40 := by
  decide +kernel

/-- `AssemblyAbortsOnTheFirstFailure`: a run of two commands that succeeds, and a read-out of four cells. -/
theorem witness_assembly_runs : (∃ t, runLines [.setver 1, .getq (.name .ver)] State.reset = (t, .ok [21, 1])) ∧
    ∃ t, runLines (readOutLines 2) { version1 with grid := [(⟨0, 1⟩, .dark), (⟨1, 0⟩, .light)] } =
      (t, .ok [0, 3, 2, 0]) :=
  ⟨⟨_, rfl⟩, ⟨_, rfl⟩⟩

/-- `AssemblyAbortsOnTheFirstFailure`, the abort: a response of success, one of 0x02 and one of another status; a word
and a line that fail after one that succeeds; a line that does not fit. -/
theorem witness_assembly_abort :
    reply State.reset 0x04000001 = some 21 ∧ reply version1 0x53000008 = some 0x02000000 ∧
    reply version1 0x04000029 = some 0x08000000 ∧
    (∃ t, issueAll [0x04000001] State.reset = (t, .ok [21]) ∧ (issue 0x53000008 t).2 = .error .invalidMaskIndex) ∧
    ∃ t, runLines [.setver 1] State.reset = (t, .ok [21]) ∧ assemble (.gfexp 256) = none ∧
      assemble (.mplace 8) = some [0x53000008] ∧ (issueAll [0x53000008] t).2 = .error .invalidMaskIndex :=
  ⟨by decide +kernel, by decide +kernel, by decide +kernel, ⟨_, rfl, by decide +kernel⟩,
    ⟨_, rfl, by decide +kernel, by decide +kernel, by decide +kernel⟩⟩

/-- `AssemblyAbortsOnTheFirstFailure`: an assembly that a refusal ends, ECGEN with more codewords than it can give. -/
theorem witness_assembly_refused :
    (assembleSymbol ⟨1, 1, 400, 1, none⟩ [] 0 State.reset).2 = .error (.refused 0x06) := by
  decide +kernel

/-! ### An assembly that succeeds

It issues over a thousand commands, too many to evaluate, so each kind of line is shown to succeed on a block of
version 1 and to leave such a block. -/

/-- The least configuration of version 1: one data codeword, one codeword in all, a length field of one bit. -/
def tiny : SymbolConfig := ⟨1, 1, 1, 1, none⟩

/-- A block of version 1 that is not FAULTED. -/
def Ready (s : State) : Prop := s.faulted = false ∧ s.ver = 1 ∧ s.size = 21

/-- A ready block with a sequence of `n` positions. -/
def ReadyFor (n : Half) (s : State) : Prop := Ready s ∧ s.seqValid = true ∧ s.seqlen = n

/-- The cells of version 1 are in its grid. -/
theorem rect_in_grid : ∀ d ∈ rectCells 0 0 21 21, d.row < 21 ∧ d.col < 21 := by decide +kernel

/-- RSVWR on a ready block. -/
theorem ready_rsvwr {s : State} (h : Ready s) {c : Coord} (hc : c.row < 21 ∧ c.col < 21) :
    ∃ t vs, runLines [.rsvwr c.row c.col 1] s = (t, .ok vs) ∧ Ready t := by
  have hi : exec (.rsvwr (BitVec.ofNat 8 c.row) (BitVec.ofNat 8 c.col) 1) (s.withInReset false) =
      .next (answered ((s.withInReset false).withRsv
        (rsvWrite s.rsv (coordOf (BitVec.ofNat 8 c.row) (BitVec.ofNat 8 c.col)) true)).invalidateSeq 0) := by
    show command _ _ = _
    rw [command_running (s := s.withInReset false) h.1, if_neg (by simp [coordOutside, coordOf, h.2.2]; omega),
      if_neg (by decide), respond_eq]
    rfl
  refine ⟨_, _, runLines_single (by simp [asmWellFormed, fitsByte]; omega) rfl
    (issue_of_answered (by simp [encode, decode]) hi), ?_⟩
  rw [invalidateSeq_eq]
  exact ⟨by simpa [State.faulted, answered] using h.1, h.2⟩

/-- GRIDWR on a ready block. -/
theorem ready_gridwr {n : Half} {s : State} (h : ReadyFor n s) {c : Coord} (v : ModuleState)
    (hc : c.row < 21 ∧ c.col < 21) : ∃ t vs, runLines [stampLine (c, v)] s = (t, .ok vs) ∧ ReadyFor n t := by
  have hi : ∀ (x : Byte) (w : ModuleState), cellOfCode x = some w →
      exec (.gridwr (BitVec.ofNat 8 c.row) (BitVec.ofNat 8 c.col) x) (s.withInReset false) =
        .next (answered ((s.withInReset false).withGrid
          (gridWrite s.grid (coordOf (BitVec.ofNat 8 c.row) (BitVec.ofNat 8 c.col)) w)) 0) := by
    intro x w hx
    show command _ _ = _
    rw [command_running (s := s.withInReset false) h.1.1, if_neg (by simp [coordOutside, coordOf, h.1.2.2]; omega), hx]
    exact respond_eq _ _
  cases v
  · exact ⟨_, _, runLines_single (by simp [asmWellFormed, stampLine, fitsByte, cellNumber]; omega) rfl
      (issue_of_answered (by simp [encode, decode]) (hi 0 .unset rfl)), h⟩
  · exact ⟨_, _, runLines_single (by simp [asmWellFormed, stampLine, fitsByte, cellNumber]; omega) rfl
      (issue_of_answered (by simp [encode, decode]) (hi 2 .light rfl)), h⟩
  · exact ⟨_, _, runLines_single (by simp [asmWellFormed, stampLine, fitsByte, cellNumber]; omega) rfl
      (issue_of_answered (by simp [encode, decode]) (hi 3 .dark rfl)), h⟩

/-- GRIDRD on a ready block. -/
theorem ready_gridrd {n : Half} {s : State} (h : ReadyFor n s) {c : Coord} (hc : c.row < 21 ∧ c.col < 21) :
    ∃ t vs, runLines [.gridrd c.row c.col] s = (t, .ok vs) ∧ ReadyFor n t := by
  have hi : exec (.gridrd (BitVec.ofNat 8 c.row) (BitVec.ofNat 8 c.col)) (s.withInReset false) =
      .next (answered (s.withInReset false)
        (codeOfCell (gridCell s.grid (coordOf (BitVec.ofNat 8 c.row) (BitVec.ofNat 8 c.col))))) := by
    show command _ _ = _
    rw [command_running (s := s.withInReset false) h.1.1, if_neg (by simp [coordOutside, coordOf, h.1.2.2]; omega),
      respond_eq]
    rfl
  exact ⟨_, _, runLines_single (by simp [asmWellFormed, fitsByte]; omega) rfl
    (issue_of_answered (by simp [encode, decode, requireZero]) hi), h⟩

/-- CWWR on a ready block. -/
theorem ready_cwwr {n : Half} {s : State} (h : ReadyFor n s) {a : Nat} (b : Byte) (ha : a < 4096) :
    ∃ t v, issue (encode (.cwwr (BitVec.ofNat 16 a) b)) s = (t, .ok v) ∧ ReadyFor n t := by
  have hi : exec (.cwwr (BitVec.ofNat 16 a) b) (s.withInReset false) = .next (answered
      ((s.withInReset false).withCw (memWrite s.cw (BitVec.ofNat 16 a).toNat [b])) 0) := by
    show command _ _ = _
    rw [command_running (s := s.withInReset false) h.1.1, if_neg (by simp [Config.cwBytes]; omega), respond_eq]
    rfl
  exact ⟨_, _, issue_of_answered (by simp [encode, decode]) hi, h⟩

/-- The commands of a LOADCW line on a ready block. -/
theorem ready_load {n : Half} (bs : List Nat) {a : Nat} {s : State} (h : ReadyFor n s) (ha : a + bs.length ≤ 4096) :
    ∃ t vs, issueAll ((expandLoad a bs).map encode) s = (t, .ok vs) ∧ ReadyFor n t := by
  induction bs generalizing a s with
  | nil => exact ⟨s, [], rfl, h⟩
  | cons b bs ih =>
    simp only [List.length_cons] at ha
    obtain ⟨t, v, ht, hp⟩ := ready_cwwr h (BitVec.ofNat 8 b) (a := a) (by omega)
    obtain ⟨u, vs, hu, hq⟩ := ih hp (a := a + 1) (by omega)
    exact ⟨u, v :: vs, by simp [expandLoad, issueAll, ht, hu, HostResult.andThen], hq⟩

/-- SETQ of a register that takes a write. -/
theorem exec_setq_running {s u : State} (h : s.faulted = false) (r : BitVec 4) (imm : Half)
    (hw : writeRegister (s.withInReset false) r imm = some u) :
    exec (.setq r imm) (s.withInReset false) = .next (answered u 0) := by
  show command _ _ = _
  rw [command_running (s := s.withInReset false) h, hw]
  exact respond_eq _ _

/-- The lines up to SEQGEN succeed from reset, and SEQGEN answers the length of the sequence. -/
theorem setup_succeeds : ∃ t vs n, runLines (setupLines tiny [0x40]) State.reset = (t, .ok vs) ∧
    ReadyFor n t ∧ vs.getLastD 0 = n ∧ n.toNat ≤ 462 := by
  have h0 : ∃ t vs, runLines [.loadcw 0 [0x40], .seta 0 1, .setq (.name .da) 1, .ecgen 1, .setver 1] State.reset =
      (t, .ok vs) ∧ Ready t := by
    refine ⟨_, _, rfl, ?_⟩
    unfold Ready
    decide +kernel
  obtain ⟨t, vs, ht, hp⟩ := h0
  obtain ⟨u, us, hu, hq⟩ := runLines_succeeds (P := Ready)
    (lines := (reservedSet 1 none).map fun d => .rsvwr d.row d.col 1) (by
      intro l hl s hs
      obtain ⟨d, hd, rfl⟩ := List.mem_map.1 hl
      exact ready_rsvwr hs (rect_in_grid d (List.mem_of_mem_filter hd))) hp
  have hi : exec .seqgen (u.withInReset false) = .next (answered
      (((u.withInReset false).withSeq (currentSequence u)).withSeqlen
        (BitVec.ofNat 16 (currentSequence u).length)).validateSeq
      (BitVec.ofNat 16 (currentSequence u).length)) := by
    show command _ _ = _
    rw [command_running (s := u.withInReset false) hq.1, if_neg (by simp [hq.2.1]), respond_eq]
    rfl
  have hs := runLines_single (l := .seqgen) rfl rfl (issue_of_answered (by decide) hi)
  refine ⟨_, _, BitVec.ofNat 16 (currentSequence u).length, runLines_append_ok (runLines_append_ok ht hu) hs,
    ⟨⟨?_, hq.2⟩, ?_, rfl⟩, by simp, ?_⟩
  · rw [validateSeq_eq]
    simpa [answered, State.faulted] using hq.1
  · rw [validateSeq_eq]
    simp [answered, State.seqValid]
  · have h1 := pairScan_length_le 21 (rsvBit u.rsv) 21 21 true
    have : (currentSequence u).length ≤ 462 := by
      unfold currentSequence placementSequence
      rw [hq.2.2]
      exact h1
    simp only [BitVec.toNat_ofNat]
    omega

/-- The lines from the remainder bytes to the overlay succeed on a ready block. -/
theorem place_succeeds {n : Half} {s : State} (h : ReadyFor n s) (hn : n.toNat ≤ 462) :
    ∃ t vs, runLines (placeLines tiny 0 n.toNat) s = (t, .ok vs) ∧ ReadyFor n t := by
  have h1 : ∃ t vs, runLines (if n.toNat > 8 * 1 then [.loadcw 1 (List.replicate ((n.toNat + 7) / 8 - 1) 0)] else []) s =
      (t, .ok vs) ∧ ReadyFor n t := by
    split
    · obtain ⟨t, vs, ht, hp⟩ := ready_load (List.replicate ((n.toNat + 7) / 8 - 1) 0) (a := 1) h (by simp; omega)
      have hw : asmWellFormed (.loadcw 1 (List.replicate ((n.toNat + 7) / 8 - 1) 0)) = true := by
        simp [asmWellFormed, fitsByte]
        omega
      exact ⟨t, vs, by simp [runLines, assemble, hw, expand, ht, HostResult.andThen], hp⟩
    · exact ⟨s, [], rfl, h⟩
  obtain ⟨t, vs, ht, hp⟩ := h1
  generalize hm : max 1 ((n.toNat + 7) / 8) = m
  have hml : m ≤ 58 ∧ n.toNat ≤ 8 * m := by omega
  have e1 := issue_of_answered (i := .setq 0 (BitVec.ofNat 16 0)) (by decide) (exec_setq_running hp.1.1 0 0 rfl)
  have e2 := issue_of_answered (i := .setq 1 (BitVec.ofNat 16 m)) (by simp [encode, decode, requireZero])
    (exec_setq_running (s := answered ((t.withInReset false).withSa 0) 0) hp.1.1 1 (BitVec.ofNat 16 m) rfl)
  have h2 : ∃ u us, runLines [.seta 0 m] t = (u, .ok us) ∧ ReadyFor n u ∧ u.sa = 0 ∧ u.la = BitVec.ofNat 16 m := by
    refine ⟨answered (((answered ((t.withInReset false).withSa 0) 0).withInReset false).withLa (BitVec.ofNat 16 m)) 0,
      [0, 0], ?_, hp, rfl, rfl⟩
    have hw : asmWellFormed (.seta 0 m) = true := by
      simp [asmWellFormed, fitsHalf]
      omega
    simp only [runLines, assemble, hw, expand, if_true, List.map, issueAll, e1, e2, HostResult.andThen]
    rfl
  obtain ⟨u, us, hu, hq, hsa, hla⟩ := h2
  have hi : exec (.mplace (BitVec.ofNat 16 0)) (u.withInReset false) = .next (answered ((u.withInReset false).withGrid
      (place (maskFn 0) u.grid (validSequence u) (sourceA u))) n) := by
    show command _ _ = _
    rw [command_running (s := u.withInReset false) hq.1.1, if_neg (by decide), if_neg (by simp; exact hq.2.1),
      if_neg (by simp [sourceAIllegal, rangeIllegal, hsa, hla, Config.cwBytes]; omega),
      if_neg (by simp [hq.2.2, hla]; omega), respond_eq]
    simp only [State.withInReset_seqlen, hq.2.2]
    rfl
  have h3 := runLines_single (l := .mplace 0) rfl rfl (issue_of_answered (by decide) hi)
  obtain ⟨w, ws, hw, hr⟩ := runLines_succeeds (P := ReadyFor n) (lines := (overlayStamps 21 none).map stampLine) (by
      intro l hl s hs
      obtain ⟨d, hd, rfl⟩ := List.mem_map.1 hl
      have : ∀ d ∈ overlayStamps 21 none, d.1.row < 21 ∧ d.1.col < 21 := by decide +kernel
      exact ready_gridwr hs d.2 (this d hd))
    (s := answered ((u.withInReset false).withGrid (place (maskFn 0) u.grid (validSequence u) (sourceA u))) n) hq
  have e : placeLines tiny 0 n.toNat =
      (if n.toNat > 8 * 1 then [.loadcw 1 (List.replicate ((n.toNat + 7) / 8 - 1) 0)] else []) ++
        ([.seta 0 m] ++ [.mplace 0]) ++ (overlayStamps 21 none).map stampLine := by
    rw [← hm]
    rfl
  rw [e]
  exact ⟨w, _, runLines_append_ok (runLines_append_ok ht (runLines_append_ok (a := [_]) hu h3)) hw, hr⟩

/-- The codeword of the empty payload: the mode nibble and one length bit, filled to a byte (R242, R243). -/
theorem test_empty_payload : byteModeEncode [] 1 1 = .ok [0x40] := by decide +kernel

/-- `AssemblyAbortsOnTheFirstFailure`: an assembly that succeeds. -/
theorem witness_assembly_succeeds : ∃ t g, assembleSymbol tiny [] 0 State.reset = (t, .ok g) := by
  obtain ⟨t, vs, n, ht, hp, hv, hn⟩ := setup_succeeds
  obtain ⟨u, us, hu, hq⟩ := place_succeeds hp hn
  obtain ⟨w, ws, hw, -⟩ := runLines_succeeds (P := ReadyFor n) (lines := readOutLines 21) (by
      intro l hl s hs
      obtain ⟨d, hd, rfl⟩ := List.mem_map.1 hl
      exact ready_gridrd hs (rect_in_grid d hd)) hq
  have e : assembleSymbol tiny [] 0 State.reset = (runLines (setupLines tiny [0x40]) State.reset).andThen fun vs t =>
      (runLines (placeLines tiny 0 (vs.getLastD 0).toNat) t).andThen fun _ u => runLines (readOutLines 21) u := by
    unfold assembleSymbol
    rw [show byteModeEncode [] tiny.dataCodewords tiny.lengthBits = .ok [0x40] from test_empty_payload]
    rfl
  rw [e, ht]
  simp only [HostResult.andThen, hv, hu, hw]
  exact ⟨w, ws, rfl⟩

end Sys2Proof.Tests
end

section
/-! PROOFS of the scope statements (R7, R93, R320): what a step takes from the port, and that every step has a next
state. -/

namespace Sys2Proof.Machine

/-! ### A step takes one input from the port (R7) -/

theorem step_of_no_input {s : State} (hi : s.inputs = []) : step s = .next s := by
  simp [step, stepOnce, hi]

theorem step_of_input {s : State} {x : HostInput} {rest : List HostInput} (hi : s.inputs = x :: rest) :
    step s = accept x (s.withInputs rest) := by
  simp [step, stepOnce, hi]

theorem accept_command_inReset {s : State} (w : Word) (hr : s.inReset = true) : accept (.command w) s = .next s :=
  if_pos hr

theorem accept_command_running {s : State} (w : Word) (hr : s.inReset = false) : accept (.command w) s = runWord w s :=
  if_neg (by simp [hr])

theorem accept_resetAsserted (s : State) : accept .resetAsserted s = .next (s.withInReset true) := rfl

theorem accept_resetReleased_inReset {s : State} (hr : s.inReset = true) :
    accept .resetReleased s = .next s.afterReset := if_pos hr

theorem accept_resetReleased_running {s : State} (hr : s.inReset = false) : accept .resetReleased s = .next s :=
  if_neg (by simp [hr])

theorem runWord_of_decode_ok {w : Word} {i : Instr} (hd : decode w = .ok i) (s : State) : runWord w s = exec i s := by
  simp [runWord, hd]

theorem runWord_of_decode_error {w : Word} {e : DecodeReject} (hd : decode w = .error e) (s : State) :
    runWord w s = illegalCommand s := by
  simp [runWord, hd]

/-! ### Each part of a step has a next state -/

theorem illegalCommand_total (s : State) : ∃ t, illegalCommand s = .next t := by
  unfold illegalCommand
  cases hf : s.faulted with
  | true => exact ⟨_, command_faulted hf _⟩
  | false => exact ⟨_, (command_running hf _).trans (raise_eq (by decide) s)⟩

theorem runWord_total (w : Word) (s : State) : ∃ t, runWord w s = .next t := by
  cases hd : decode w with
  | ok i => simpa only [runWord_of_decode_ok hd] using exec_total i s
  | error e => simpa only [runWord_of_decode_error hd] using illegalCommand_total s

theorem accept_total (x : HostInput) (s : State) : ∃ t, accept x s = .next t := by
  cases x with
  | command w =>
    cases hr : s.inReset with
    | true => exact ⟨_, accept_command_inReset w hr⟩
    | false => simpa only [accept_command_running w hr] using runWord_total w s
  | resetAsserted => exact ⟨_, accept_resetAsserted s⟩
  | resetReleased =>
    cases hr : s.inReset with
    | true => exact ⟨_, accept_resetReleased_inReset hr⟩
    | false => exact ⟨_, accept_resetReleased_running hr⟩

/-! ### The obligations -/

/-- Settles O13: a step without an input changes nothing, and a step with one is `accept`, which always has a next
state because every command has one. -/
theorem everyStepHasANextState : Obligations.EveryStepHasANextState := by
  intro s
  cases hi : s.inputs with
  | nil => exact ⟨s, step_of_no_input hi⟩
  | cons x rest => simpa only [step_of_input hi] using accept_total x (s.withInputs rest)

/-- Settles O8: the step takes the word off the port, and out of reset the word runs as the command it decodes to. -/
theorem stepRunsTheDecodedCommand : Obligations.StepRunsTheDecodedCommand := by
  intro s w rest i hr hi hd
  calc step s = accept (.command w) (s.withInputs rest) := step_of_input hi
    _ = runWord w (s.withInputs rest) := accept_command_running w hr
    _ = exec i (s.withInputs rest) := runWord_of_decode_ok hd _

/-- Settles O9: the three clauses are the empty port, an asserted reset, and a command word during reset. -/
theorem idleAndAssertedResetSteps : Obligations.IdleAndAssertedResetSteps := by
  refine ⟨fun s hi => step_of_no_input hi, fun s rest hi => ?_, fun s w rest hr hi => ?_⟩
  · exact (step_of_input hi).trans (accept_resetAsserted _)
  · exact (step_of_input hi).trans (accept_command_inReset w hr)

end Sys2Proof.Machine
end

section
/-! PROOFS of the frames of the commands (R21 to R37): which registers and memories a command writes, what a success
does to `STATUS`, and the reset state (R40). -/

namespace Sys2Proof.Machine

variable {i : Instr} {s t : State}

/-! ### Telling the ends of a command apart (R99) -/

/-- A response word whose status byte is not 0x00 is no value. -/
theorem append_ne_append_value {w : Word} {l : List Word} {v : Half} (hw : w.extractLsb' 24 8 ≠ (0 : Byte)) :
    l ++ [w] ≠ l ++ [v.setWidth 32] := by
  intro h
  obtain rfl : w = v.setWidth 32 := by simpa using h
  exact hw (value_status v)

theorem statusByte_ne_zero {c : StatusCode} (h : c ≠ .ok) : statusByte c ≠ 0 := by
  cases c
  case ok => exact absurd rfl h
  all_goals decide

/-- Only a success answers a value. -/
theorem success_of_value {v : Half} (h : exec i s = .next t) (hv : t.responses = s.responses ++ [v.setWidth 32]) :
    Success i s t := by
  obtain ⟨-, rfl⟩ | ⟨-, ⟨c, hok, -, -, -, -, rfl⟩ | ⟨-, rfl⟩ | h⟩ := exec_next i h
  · exact absurd hv (append_ne_append_value (by decide))
  · exact absurd hv (append_ne_append_value (by rw [code_status]; exact statusByte_ne_zero hok))
  · exact absurd hv (append_ne_append_value (by decide))
  · exact h

/-- In the FAULTED state every command keeps `STATUS` (R285). -/
theorem exec_faulted_status (hf : s.faulted = true) (h : exec i s = .next t) : t.status = s.status := by
  obtain ⟨-, rfl⟩ | ⟨hr, -⟩ := exec_next i h
  · rfl
  · simp [hf] at hr

/-! ### What each command writes -/

/-- The state `s` with the registers and memories the spec lists for the command `i` taken from `t`: the writers of R21
and of R32, R34, R35, R37. -/
def withWritesOf (i : Instr) (s t : State) : State :=
  match i with
  | .setq _ _ => { s with sa := t.sa, la := t.la, sb := t.sb, lb := t.lb, da := t.da }
  | .setver _ => { s with ver := t.ver, size := t.size, seqlen := t.seqlen, rsv := t.rsv, grid := t.grid }
  | .gfmul _ _ | .gfdiv _ _ | .gfexp _ | .gflog _ => { s with res := t.res }
  | .pmul | .prem | .genp _ | .ecgen _ => { s with lr := t.lr, cw := t.cw }
  | .cwwr _ _ => { s with cw := t.cw }
  | .rsvclr | .rsvwr _ _ _ => { s with seqlen := t.seqlen, rsv := t.rsv }
  | .seqgen => { s with seqlen := t.seqlen, seq := t.seq }
  | .gridclr | .gridwr _ _ _ | .mplace _ => { s with grid := t.grid }
  | .nop | .getq _ | .clrerr | .cwrd _ | .rsvrd _ _ | .seqrd _ | .gridrd _ _ => s

/-- `STATUS` after a success of the command `i` (R28, R124, R206). -/
def successStatus (i : Instr) (st : Half) : Half :=
  match i with
  | .clrerr => lastErrWrite st 0
  | .setver _ | .rsvclr | .rsvwr _ _ _ => statusWithSeqValid st false
  | .seqgen => statusWithSeqValid st true
  | _ => st

theorem success_status (h : Success i s t) : t.status = successStatus i s.status := by
  cases i
  case setq r imm =>
    obtain ⟨u, hu, rfl⟩ := h
    obtain rfl | rfl | rfl | rfl | rfl := writeRegister_cases hu <;> rfl
  case setver n => obtain ⟨-, -, rfl⟩ := h; exact invalidateSeq_status _
  case rsvclr => obtain ⟨-, rfl⟩ := h; exact invalidateSeq_status _
  case rsvwr row col val => obtain ⟨-, -, rfl⟩ := h; exact invalidateSeq_status _
  case seqgen => obtain ⟨-, rfl⟩ := h; exact validateSeq_status _
  all_goals obtain ⟨_, _, _, _, rfl⟩ := h; rfl

/-- A success writes what the spec lists for the command, and `STATUS` and the responses. -/
theorem success_frame (h : Success i s t) :
    t = { withWritesOf i s t with status := t.status, responses := t.responses } := by
  cases i
  case setq r imm =>
    obtain ⟨u, hu, rfl⟩ := h
    obtain rfl | rfl | rfl | rfl | rfl := writeRegister_cases hu <;> rfl
  all_goals obtain ⟨_, _, _, _, rfl⟩ := h; rfl

/-- Whatever a command answers, it writes what the spec lists for it, and `STATUS` and the responses. -/
theorem exec_frame (h : exec i s = .next t) :
    t = { withWritesOf i s t with status := t.status, responses := t.responses } := by
  obtain ⟨-, rfl⟩ | ⟨-, ⟨c, -, -, -, -, -, rfl⟩ | ⟨-, rfl⟩ | h⟩ := exec_next i h
  case inr.inr.inr => exact success_frame h
  all_goals cases i <;> rfl

/-! ### Registers -/

/-- A success other than that of CLRERR keeps `FAULTED` and `LASTERR`: at most it writes `SEQ_VALID` (R28). -/
theorem successStatus_errorRecord (hi : i ≠ .clrerr) (st : Half) :
    (successStatus i st).extractLsb' 8 8 = st.extractLsb' 8 8 ∧ (successStatus i st).getLsbD 0 = st.getLsbD 0 := by
  cases i
  case clrerr => exact absurd rfl hi
  case setver | rsvclr | rsvwr | seqgen =>
    exact ⟨statusWithSeqValid_code st _, statusWithSeqValid_bit st _ 0 (by decide)⟩
  all_goals exact ⟨rfl, rfl⟩

section
variable (h : exec i s = .next t)
include h

/-- Only SETQ writes the operand registers (R22). -/
theorem exec_keeps_operands (hq : ∀ r imm, i ≠ .setq r imm) :
    t.sa = s.sa ∧ t.la = s.la ∧ t.sb = s.sb ∧ t.lb = s.lb ∧ t.da = s.da := by
  have hf := exec_frame h
  cases i
  case setq r imm => exact absurd rfl (hq r imm)
  all_goals
    exact ⟨(congrArg State.sa hf : t.sa = _), (congrArg State.la hf : t.la = _), (congrArg State.sb hf : t.sb = _),
      (congrArg State.lb hf : t.lb = _), (congrArg State.da hf : t.da = _)⟩

/-- Only the polynomial commands write `LR` (R23). -/
theorem exec_keeps_lr (hm : i ≠ .pmul) (hr : i ≠ .prem) (hg : ∀ n, i ≠ .genp n) (he : ∀ n, i ≠ .ecgen n) :
    t.lr = s.lr := by
  have hf := exec_frame h
  cases i
  case pmul => exact absurd rfl hm
  case prem => exact absurd rfl hr
  case genp n => exact absurd rfl (hg n)
  case ecgen n => exact absurd rfl (he n)
  all_goals exact (congrArg State.lr hf : t.lr = _)

/-- Only the scalar commands write `RES` (R24). -/
theorem exec_keeps_res (hm : ∀ a b, i ≠ .gfmul a b) (hd : ∀ a b, i ≠ .gfdiv a b) (he : ∀ a, i ≠ .gfexp a)
    (hl : ∀ a, i ≠ .gflog a) : t.res = s.res := by
  have hf := exec_frame h
  cases i
  case gfmul a b => exact absurd rfl (hm a b)
  case gfdiv a b => exact absurd rfl (hd a b)
  case gfexp a => exact absurd rfl (he a)
  case gflog a => exact absurd rfl (hl a)
  all_goals exact (congrArg State.res hf : t.res = _)

/-- Only SETVER writes `VER` and `SIZE` (R25). -/
theorem exec_keeps_version (hv : ∀ n, i ≠ .setver n) : t.ver = s.ver ∧ t.size = s.size := by
  have hf := exec_frame h
  cases i
  case setver n => exact absurd rfl (hv n)
  all_goals exact ⟨(congrArg State.ver hf : t.ver = _), (congrArg State.size hf : t.size = _)⟩

/-- Only SETVER, RSVCLR, RSVWR and SEQGEN write `SEQLEN` (R26). -/
theorem exec_keeps_seqlen (hv : ∀ n, i ≠ .setver n) (hc : i ≠ .rsvclr) (hw : ∀ r c v, i ≠ .rsvwr r c v)
    (hg : i ≠ .seqgen) : t.seqlen = s.seqlen := by
  have hf := exec_frame h
  cases i
  case setver n => exact absurd rfl (hv n)
  case rsvclr => exact absurd rfl hc
  case rsvwr r c v => exact absurd rfl (hw r c v)
  case seqgen => exact absurd rfl hg
  all_goals exact (congrArg State.seqlen hf : t.seqlen = _)

/-! ### Memories -/

/-- No command changes the free content of `CW` (R33). -/
theorem exec_keeps_epoch : t.epoch = s.epoch := by
  have hf := exec_frame h
  cases i
  all_goals exact (congrArg State.epoch hf : t.epoch = _)

/-- Only CWWR and the polynomial commands write `CW` (R32). -/
theorem exec_keeps_cw (hw : ∀ a d, i ≠ .cwwr a d) (hm : i ≠ .pmul) (hr : i ≠ .prem) (hg : ∀ n, i ≠ .genp n)
    (he : ∀ n, i ≠ .ecgen n) : t.cw = s.cw := by
  have hf := exec_frame h
  cases i
  case cwwr a d => exact absurd rfl (hw a d)
  case pmul => exact absurd rfl hm
  case prem => exact absurd rfl hr
  case genp n => exact absurd rfl (hg n)
  case ecgen n => exact absurd rfl (he n)
  all_goals exact (congrArg State.cw hf : t.cw = _)

/-- Only SETVER, RSVCLR and RSVWR write `RSV` (R34). -/
theorem exec_keeps_rsv (hv : ∀ n, i ≠ .setver n) (hc : i ≠ .rsvclr) (hw : ∀ r c v, i ≠ .rsvwr r c v) :
    t.rsv = s.rsv := by
  have hf := exec_frame h
  cases i
  case setver n => exact absurd rfl (hv n)
  case rsvclr => exact absurd rfl hc
  case rsvwr r c v => exact absurd rfl (hw r c v)
  all_goals exact (congrArg State.rsv hf : t.rsv = _)

/-- Only SETVER, GRIDCLR, GRIDWR and MPLACE write `GRID` (R35). -/
theorem exec_keeps_grid (hv : ∀ n, i ≠ .setver n) (hc : i ≠ .gridclr) (hw : ∀ r c v, i ≠ .gridwr r c v)
    (hp : ∀ n, i ≠ .mplace n) : t.grid = s.grid := by
  have hf := exec_frame h
  cases i
  case setver n => exact absurd rfl (hv n)
  case gridclr => exact absurd rfl hc
  case gridwr r c v => exact absurd rfl (hw r c v)
  case mplace n => exact absurd rfl (hp n)
  all_goals exact (congrArg State.grid hf : t.grid = _)

/-- Only SEQGEN writes `SEQ` (R37). -/
theorem exec_keeps_seq (hg : i ≠ .seqgen) : t.seq = s.seq := by
  have hf := exec_frame h
  cases i
  case seqgen => exact absurd rfl hg
  all_goals exact (congrArg State.seq hf : t.seq = _)

end

/-- Only CLRERR, SETVER, RSVCLR, RSVWR and SEQGEN write `STATUS` when they succeed (R28). -/
theorem success_keeps_status (h : Success i s t) (hc : i ≠ .clrerr) (hv : ∀ n, i ≠ .setver n) (hr : i ≠ .rsvclr)
    (hw : ∀ r c v, i ≠ .rsvwr r c v) (hg : i ≠ .seqgen) : t.status = s.status := by
  have hs := success_status h
  cases i
  case clrerr => exact absurd rfl hc
  case setver n => exact absurd rfl (hv n)
  case rsvclr => exact absurd rfl hr
  case rsvwr r c v => exact absurd rfl (hw r c v)
  case seqgen => exact absurd rfl hg
  all_goals exact hs

/-! ### The obligations -/

/-- Settles O16: a command that answers a value succeeded, and a success writes `STATUS` by `successStatus`. -/
theorem successKeepsTheErrorRecord : Obligations.SuccessKeepsTheErrorRecord := by
  intro i s t v h hv hi
  unfold State.lastErr State.faulted
  rw [success_status (success_of_value h hv)]
  exact successStatus_errorRecord hi s.status

/-- Settles O19: register by register from `exec_frame`; `STATUS` from `success_status` and from the FAULTED check. -/
theorem registersChangeOnlyInTheirCommands : Obligations.RegistersChangeOnlyInTheirCommands := by
  intro i s t h
  refine ⟨exec_keeps_operands h, exec_keeps_lr h, exec_keeps_res h, exec_keeps_version h, exec_keeps_seqlen h, ?_,
    fun hf => exec_faulted_status hf h⟩
  rintro hc hv hr hw hg ⟨v, hresp⟩
  exact success_keeps_status (success_of_value h hresp) hc hv hr hw hg

/-- Settles O20: memory by memory from `exec_frame`; an equal memory reads the same everywhere. -/
theorem memoriesChangeOnlyInTheirCommands : Obligations.MemoriesChangeOnlyInTheirCommands := by
  intro i s t h
  refine ⟨fun hw hm hr hg he a => ?_, fun hv hc hw c => ?_, fun hv hc hw hp c => ?_, exec_keeps_seq h⟩
  · exact cwByte_congr (exec_keeps_cw h hw hm hr hg he) (exec_keeps_epoch h) a
  · rw [exec_keeps_rsv h hv hc hw]
  · rw [exec_keeps_grid h hv hc hw hp]

/-- Settles O11: the sixteen register indices one by one; the other fields are those of `State.reset`. -/
theorem resetStateHoldsTheStatedValues : Obligations.ResetStateHoldsTheStatedValues :=
  ⟨by decide, rfl, rfl, rfl, rfl, rfl, rfl, fun _ => rfl, rfl, rfl, rfl⟩

end Sys2Proof.Machine
end

section
/-! PROOFS of the invariant (R21 to R38, R281, R284): it holds at reset, every command keeps it, every step keeps it. -/

namespace Sys2Proof.Machine

variable {i : Instr} {s t : State}

/-! ### Reset -/

/-- Settles O21: every field of the reset state is zero or empty. -/
theorem invariantHoldsAtReset : Obligations.InvariantHoldsAtReset where
  ver_legal := by decide
  size_of_ver := by decide
  res_byte := by decide
  lr_fits := by decide
  status_reserved := by decide
  faulted_code := by decide
  code_legal := by decide
  seqlen_invalid _ := rfl
  seq_current h := absurd h (by decide)
  cw_wf := rfl
  rsv_wf := rfl
  grid_wf := rfl

/-- Releasing reset gives the reset state, up to the ports and the epoch, of which the invariant does not speak. -/
theorem inv_afterReset (s : State) : s.afterReset.Inv := { invariantHoldsAtReset with }

/-! ### Ports -/

theorem inv_withInputs (h : s.Inv) (l : List HostInput) : (s.withInputs l).Inv := { h with }

theorem inv_withInReset (h : s.Inv) (b : Bool) : (s.withInReset b).Inv := { h with }

theorem inv_answered (h : s.Inv) (v : Half) : (answered s v).Inv := { h with }

theorem inv_haltedAfter (h : s.Inv) : (haltedAfter s).Inv := { h with }

/-! ### `STATUS` -/

/-- What the invariant says of `FAULTED` and `LASTERR`, as a property of `STATUS` (R281, R284, R285). -/
def errorRecordLegal (st : Half) : Prop :=
  (st[0] = true ↔ st.extractLsb' 8 8 = (0x01 : Byte)) ∧
  st.extractLsb' 8 8 ≠ (0x03 : Byte) ∧ st.extractLsb' 8 8 ≠ (0x04 : Byte) ∧ (st.extractLsb' 8 8).toNat < 0x0F

theorem errorRecordLegal_of_inv (h : s.Inv) : errorRecordLegal s.status := ⟨h.faulted_code, h.code_legal⟩

/-- The error record does not depend on `SEQ_VALID`. -/
theorem errorRecordLegal_seqValid {st : Half} (h : errorRecordLegal st) (b : Bool) :
    errorRecordLegal (statusWithSeqValid st b) := by
  unfold errorRecordLegal
  rw [statusWithSeqValid_faulted, statusWithSeqValid_code]
  exact h

/-- A write of `STATUS` that keeps the reserved bits and `SEQ_VALID` keeps the invariant when the new error record is
legal. -/
theorem inv_of_status (h : s.Inv) {st : Half} (rs : List Word) (hres : st.extractLsb' 2 6 = s.status.extractLsb' 2 6)
    (hseq : st[1] = s.status[1]) (hrec : errorRecordLegal st) :
    ({ s with status := st, responses := rs } : State).Inv :=
  { h with
    status_reserved := hres.trans h.status_reserved
    faulted_code := hrec.1
    code_legal := hrec.2
    seqlen_invalid := fun hv => h.seqlen_invalid (hseq.symm.trans hv)
    seq_current := fun hv => h.seq_current (hseq.symm.trans hv) }

/-- A new `LASTERR` of a block that is not FAULTED, when the code is legal and not 0x01. -/
theorem inv_of_lastErr (h : s.Inv) (hf : s.faulted = false) (rs : List Word) {c : Byte} (h1 : c ≠ 0x01)
    (hlegal : c ≠ 0x03 ∧ c ≠ 0x04 ∧ c.toNat < 0x0F) :
    ({ s with status := lastErrWrite s.status c, responses := rs } : State).Inv := by
  have hbit : s.status[0] = false := hf
  refine inv_of_status h rs (lastErrWrite_reserved _ _) (lastErrWrite_seqValid _ _) ?_
  unfold errorRecordLegal
  rw [lastErrWrite_faulted, lastErrWrite_code, hbit]
  exact ⟨by simpa using h1, hlegal⟩

theorem inv_clearLastErr (h : s.Inv) (hf : s.faulted = false) : s.clearLastErr.Inv :=
  inv_of_lastErr h hf s.responses (c := 0x00) (by decide) (by decide)

/-- The codes of R281 that a refusal of R283 records. -/
theorem statusByte_legal {c : StatusCode} (h1 : c ≠ .divideByZero) (h3 : c ≠ .capacityExceeded)
    (h4 : c ≠ .invalidCharacter) (hF : c ≠ .halted) :
    statusByte c ≠ 0x01 ∧ statusByte c ≠ 0x03 ∧ statusByte c ≠ 0x04 ∧ (statusByte c).toNat < 0x0F := by
  cases c
  case divideByZero => exact absurd rfl h1
  case capacityExceeded => exact absurd rfl h3
  case invalidCharacter => exact absurd rfl h4
  case halted => exact absurd rfl hF
  all_goals decide

theorem inv_refused (h : s.Inv) (hf : s.faulted = false) (hr : Refused s t) : t.Inv := by
  obtain ⟨c, -, h1, h3, h4, hF, rfl⟩ := hr
  obtain ⟨hne, hlegal⟩ := statusByte_legal h1 h3 h4 hF
  exact inv_of_lastErr h hf _ hne hlegal

theorem inv_fatalAfter (h : s.Inv) : (fatalAfter s).Inv := by
  rw [← fatal_of_fatal (s := s) rfl]
  refine inv_of_status h _ (by simp) (by simp) ?_
  simp [errorRecordLegal, statusByte]

/-! ### Registers and memories -/

/-- SETQ writes registers of which the invariant does not speak (R22). -/
theorem inv_writeRegister (h : s.Inv) {u : State} {r : BitVec 4} {v : Half} (hu : writeRegister s r v = some u) :
    u.Inv := by
  obtain rfl | rfl | rfl | rfl | rfl := writeRegister_cases hu <;> exact { h with }

/-- A scalar result is a byte (R21). -/
theorem inv_scalarAnswered (h : s.Inv) (v : Byte) : (scalarAnswered s v).Inv :=
  { h with
    res_byte := by
      have hv : (v.setWidth 16).toNat = v.toNat := BitVec.toNat_setWidth_of_le (by decide)
      exact hv ▸ v.isLt }

theorem inv_withCw (h : s.Inv) {m : Memory} (hm : Memory.wf m = true) : (s.withCw m).Inv := { h with cw_wf := hm }

theorem inv_withGrid (h : s.Inv) {g : Grid} (hg : gridWf s.size.toNat g = true) : (s.withGrid g).Inv :=
  { h with grid_wf := hg }

/-- A polynomial result inside `CW` (R23, R31). -/
theorem inv_polyAnswered (h : s.Inv) {bytes : List Byte} (hb : s.da.toNat + bytes.length ≤ 4096) :
    (polyAnswered s bytes).Inv :=
  { inv_withCw h (memWrite_wf bytes h.cw_wf hb) with
    lr_fits := by
      have hlen : (BitVec.ofNat 16 bytes.length).toNat ≤ bytes.length := Nat.mod_le _ _
      exact hlen.trans (by omega) }

/-! ### The sequence and the version -/

/-- Without a valid sequence nothing is asked of `SEQ`: any legal version and maps inside its side will do. -/
theorem inv_invalidateSeq (h : s.Inv) {v side : Half} {m : ReservedMap} {g : Grid} (hv : v.toNat ≤ 40)
    (hside : side.toNat = if v = 0 then 0 else 4 * v.toNat + 17) (hm : rsvWf side.toNat m = true)
    (hg : gridWf side.toNat g = true) :
    ((((s.withVersion v side).withRsv m).withGrid g).invalidateSeq).Inv := by
  obtain ⟨hfaulted, hlegal⟩ := errorRecordLegal_seqValid (errorRecordLegal_of_inv h) false
  rw [invalidateSeq_eq]
  exact { h with
    ver_legal := hv
    size_of_ver := hside
    status_reserved := (statusWithSeqValid_reserved _ _).trans h.status_reserved
    faulted_code := hfaulted
    code_legal := hlegal
    seqlen_invalid := fun _ => rfl
    seq_current := fun hs => by simp [State.seqValid] at hs
    rsv_wf := hm
    grid_wf := hg }

/-- The side length of a legal version does not wrap around (R25). -/
theorem sideOf_toNat {n : Half} (hn : n.toNat ≤ 40) : (sideOf n).toNat = 4 * n.toNat + 17 := by
  unfold sideOf
  bv_omega

theorem inv_setver (h : s.Inv) {n : Half} (h0 : n ≠ 0) (hn : n.toNat ≤ 40) :
    ((((s.withVersion n (sideOf n)).withRsv []).withGrid []).invalidateSeq).Inv :=
  inv_invalidateSeq h hn (by rw [if_neg h0, sideOf_toNat hn]) rfl rfl

theorem inv_withRsv_invalidateSeq (h : s.Inv) {m : ReservedMap} (hm : rsvWf s.size.toNat m = true) :
    (s.withRsv m).invalidateSeq.Inv :=
  inv_invalidateSeq h h.ver_legal h.size_of_ver hm h.grid_wf

/-- No side length is above that of version 40. -/
theorem inv_size_le (h : s.Inv) : s.size.toNat ≤ 177 := by
  have hv := h.ver_legal
  rw [h.size_of_ver]
  split <;> omega

/-- The sequence SEQGEN stores is the one of the current `SIZE` and `RSV`, and its length fits `SEQLEN` (R206). -/
theorem inv_seqgen (h : s.Inv) (hv : s.ver ≠ 0) :
    (((s.withSeq (currentSequence s)).withSeqlen (BitVec.ofNat 16 (currentSequence s).length)).validateSeq).Inv := by
  have hlen : (BitVec.ofNat 16 (currentSequence s).length).toNat = (currentSequence s).length :=
    Nat.mod_eq_of_lt (placementSequence_length_lt _ (inv_size_le h))
  obtain ⟨hfaulted, hlegal⟩ := errorRecordLegal_seqValid (errorRecordLegal_of_inv h) true
  rw [validateSeq_eq]
  exact { h with
    status_reserved := (statusWithSeqValid_reserved _ _).trans h.status_reserved
    faulted_code := hfaulted
    code_legal := hlegal
    seqlen_invalid := fun hs => by simp [State.seqValid] at hs
    seq_current := fun _ => ⟨hv, rfl, hlen⟩ }

/-- MPLACE writes at positions of the current sequence only, which are cells of the grid (R226). -/
theorem inv_mplace (h : s.Inv) (hs : s.seqValid = true) (mask : Nat → Nat → Bool) (bytes : List Byte) :
    (s.withGrid (place mask s.grid (validSequence s) bytes)).Inv := by
  obtain ⟨-, hseq, -⟩ := h.seq_current hs
  refine inv_withGrid h (place_wf mask bytes h.grid_wf fun c hc => ?_)
  exact mem_placementSequence (hseq ▸ List.mem_of_mem_take hc)

/-! ### Every command and every step -/

theorem inv_success (h : s.Inv) (hf : s.faulted = false) (hi : Success i s t) : t.Inv := by
  cases i
  case setq r imm => obtain ⟨u, hu, rfl⟩ := hi; exact inv_answered (inv_writeRegister h hu) _
  case clrerr => obtain rfl := hi; exact inv_answered (inv_clearLastErr h hf) _
  case setver n => obtain ⟨h0, hn, rfl⟩ := hi; exact inv_answered (inv_setver h h0 hn) _
  case gfmul a b => obtain rfl := hi; exact inv_scalarAnswered h _
  case gfdiv | gfexp | gflog => obtain ⟨-, rfl⟩ := hi; exact inv_scalarAnswered h _
  case pmul =>
    obtain ⟨ha, hb, hd, rfl⟩ := hi
    have hne : sourceA s ≠ [] := fun hnil => ha (BitVec.eq_of_toNat_eq (by simpa using congrArg List.length hnil))
    exact inv_polyAnswered h (by rwa [polyMul_length _ hne, sourceA_length, sourceB_length])
  case prem =>
    obtain ⟨hb, hle, hd, -, rfl⟩ := hi
    have hpos : 1 ≤ s.lb.toNat := Nat.one_le_iff_ne_zero.2 fun h0 => hb (BitVec.eq_of_toNat_eq h0)
    exact inv_polyAnswered h (by rwa [polyRem_length (by simpa using hpos) (by simpa using hle), sourceB_length])
  case genp n => obtain ⟨-, hd, rfl⟩ := hi; exact inv_polyAnswered h (by rwa [genPoly_length])
  case ecgen n =>
    obtain ⟨ha, -, -, hd, rfl⟩ := hi
    have hpos : 1 ≤ s.la.toNat := Nat.one_le_iff_ne_zero.2 fun h0 => ha (BitVec.eq_of_toNat_eq h0)
    exact inv_polyAnswered h (by rwa [ecCodewords_length (by simpa using hpos), sourceA_length])
  case cwwr addr data => obtain ⟨ha, rfl⟩ := hi; exact inv_answered (inv_withCw h (memWrite_wf _ h.cw_wf ha)) _
  case rsvclr => obtain ⟨-, rfl⟩ := hi; exact inv_answered (inv_withRsv_invalidateSeq h rfl) _
  case rsvwr row col val =>
    obtain ⟨hr, hc, rfl⟩ := hi
    exact inv_answered (inv_withRsv_invalidateSeq h (rsvWrite_wf h.rsv_wf hr hc)) _
  case seqgen => obtain ⟨hv, rfl⟩ := hi; exact inv_answered (inv_seqgen h hv) _
  case gridclr => obtain ⟨-, rfl⟩ := hi; exact inv_answered (inv_withGrid h rfl) _
  case gridwr row col val =>
    obtain ⟨v, -, hr, hc, rfl⟩ := hi
    exact inv_answered (inv_withGrid h (gridWrite_wf h.grid_wf hr hc)) _
  case mplace n => obtain ⟨-, hs, -, -, rfl⟩ := hi; exact inv_answered (inv_mplace h hs _ _) _
  all_goals obtain ⟨_, _, rfl⟩ := hi; exact inv_answered h _

theorem inv_exec (h : s.Inv) (hx : exec i s = .next t) : t.Inv := by
  obtain ⟨-, rfl⟩ | ⟨hf, hr | ⟨-, rfl⟩ | hi⟩ := exec_next i hx
  · exact inv_haltedAfter h
  · exact inv_refused h hf hr
  · exact inv_fatalAfter h
  · exact inv_success h hf hi

theorem inv_illegalCommand (h : s.Inv) (hx : illegalCommand s = .next t) : t.Inv := by
  obtain ⟨-, rfl⟩ | ⟨hf, hr⟩ := illegalCommand_next hx
  · exact inv_haltedAfter h
  · exact inv_refused h hf hr

/-- Settles O22: by what the step does, nothing, a port, reset, a command, or the refusal of an illegal word. -/
theorem invariantIsKeptByEveryStep : Obligations.InvariantIsKeptByEveryStep := by
  intro s t h hstep
  obtain ⟨-, rfl⟩ | ⟨x, rest, -, hx⟩ := step_next hstep
  · exact h
  have h' := inv_withInputs h rest
  obtain rfl | ⟨-, rfl⟩ | ⟨-, -, rfl⟩ | ⟨w, i, -, -, hx⟩ | ⟨w, e, -, -, hx⟩ := hx
  · exact h'
  · exact inv_withInReset h' true
  · exact inv_afterReset _
  · exact inv_exec h' hx
  · exact inv_illegalCommand h' hx

end Sys2Proof.Machine
end

section
/-! PROOFS of the cache rule of the placement sequence (R37, R76): which commands clear and set `SEQ_VALID`. -/

namespace Sys2Proof.Machine

variable {i : Instr} {s t : State}

/-- The commands whose success makes the cached sequence no longer current (R38, R76). -/
def DropsSequence (i : Instr) : Prop := (∃ n, i = .setver n) ∨ i = .rsvclr ∨ ∃ r c v, i = .rsvwr r c v

/-- `SEQ_VALID` follows `STATUS` only. -/
theorem seqValid_of_status (h : t.status = s.status) : t.seqValid = s.seqValid := congrArg (·.getLsbD 1) h

/-- Writing `SEQ_VALID` gives it that value. -/
theorem seqValid_of_written {st : Half} {b : Bool} (h : t.status = statusWithSeqValid st b) : t.seqValid = b :=
  (congrArg (·.getLsbD 1) h).trans (statusWithSeqValid_bit st b 1 (by decide))

/-- A new `LASTERR` keeps `SEQ_VALID`. -/
theorem seqValid_of_lastErr {c : Byte} (h : t.status = lastErrWrite s.status c) : t.seqValid = s.seqValid :=
  (congrArg (·.getLsbD 1) h).trans (lastErrWrite_bit s.status c 1 (by decide))

/-! ### Commands that do not succeed -/

theorem refusedWith_seqValid (s : State) (c : Byte) : (refusedWith s c).seqValid = s.seqValid :=
  seqValid_of_lastErr (c := c) rfl

theorem fatalAfter_seqValid (s : State) : (fatalAfter s).seqValid = s.seqValid := by
  simp [State.seqValid, fatalAfter]

/-- A command that does not succeed keeps `SEQ_VALID` (R283 to R285). -/
theorem success_or_keeps_seqValid (h : exec i s = .next t) : Success i s t ∨ t.seqValid = s.seqValid := by
  obtain ⟨-, rfl⟩ | ⟨-, ⟨c, -, -, -, -, -, rfl⟩ | ⟨-, rfl⟩ | hi⟩ := exec_next i h
  · exact .inr rfl
  · exact .inr (refusedWith_seqValid s _)
  · exact .inr (fatalAfter_seqValid s)
  · exact .inl hi

/-! ### Commands that succeed -/

/-- SETVER, RSVCLR and RSVWR leave no valid sequence (R125, R203, R204). -/
theorem success_dropsSequence (h : Success i s t) (hi : DropsSequence i) : t.seqValid = false ∧ t.seqlen = 0 := by
  obtain ⟨n, rfl⟩ | rfl | ⟨r, c, v, rfl⟩ := hi
  all_goals
    refine ⟨seqValid_of_written (success_status h), ?_⟩
    obtain ⟨_, _, _, rfl⟩ := h
    rfl

/-- SEQGEN leaves a valid sequence (R206). -/
theorem success_seqgen_seqValid (h : Success .seqgen s t) : t.seqValid = true :=
  seqValid_of_written (success_status h)

/-- The success of any other command keeps `SEQ_VALID` (R28). -/
theorem success_keeps_seqValid (h : Success i s t) (hd : ¬ DropsSequence i) (hg : i ≠ .seqgen) :
    t.seqValid = s.seqValid := by
  by_cases hc : i = .clrerr
  · subst hc
    exact seqValid_of_lastErr (success_status h)
  · exact seqValid_of_status (success_keeps_status h hc (fun n e => hd (.inl ⟨n, e⟩)) (fun e => hd (.inr (.inl e)))
      (fun r c v e => hd (.inr (.inr ⟨r, c, v, e⟩))) hg)

/-! ### Every command -/

/-- Only SETVER, RSVCLR and RSVWR clear `SEQ_VALID`. -/
theorem dropsSequence_of_cleared (h : exec i s = .next t) (hs : s.seqValid = true) (ht : t.seqValid = false) :
    DropsSequence i := by
  by_contra hd
  obtain hi | hk := success_or_keeps_seqValid h
  · by_cases hg : i = .seqgen
    · subst hg
      simp [success_seqgen_seqValid hi] at ht
    · simp [success_keeps_seqValid hi hd hg, hs] at ht
  · simp [hk, hs] at ht

/-- Only SEQGEN sets `SEQ_VALID`. -/
theorem seqgen_of_set (h : exec i s = .next t) (hs : s.seqValid = false) (ht : t.seqValid = true) : i = .seqgen := by
  by_contra hg
  obtain hi | hk := success_or_keeps_seqValid h
  · by_cases hd : DropsSequence i
    · simp [(success_dropsSequence hi hd).1] at ht
    · simp [success_keeps_seqValid hi hd hg, hs] at ht
  · simp [hk, hs] at ht

/-! ### The obligation -/

/-- Settles O18: a command that answers a value succeeded, and then R125, R203 and R204 give the first clause; the
others say which commands write `SEQ_VALID` and `SEQ`. -/
theorem seqValidFollowsTheCacheRule : Obligations.SeqValidFollowsTheCacheRule := by
  intro i s t h
  refine ⟨?_, dropsSequence_of_cleared h, seqgen_of_set h, fun hne => ?_⟩
  · rintro hd ⟨v, hv⟩
    exact success_dropsSequence (success_of_value h hv) hd
  · by_contra hg
    exact hne (exec_keeps_seq h hg)

end Sys2Proof.Machine
end

section
/-! PROOFS of the encoding statements (R90 to R96): a field of a word is the word under a mask, the decoder answers by
the row of the opcode map that bears the opcode, and so the encoder, the decoder and the map agree. -/

namespace Sys2Proof

/-! ### A field of a word is the word under a mask (R91) -/

/-- A field put back at its place is what the mask of the field keeps of the word. -/
theorem fieldAt_extractLsb' (pos n : Nat) (w : Word) :
    fieldAt pos (w.extractLsb' pos n) = w &&& fieldAt pos (BitVec.allOnes n) := by
  apply BitVec.eq_of_getLsbD_eq
  intro k hk
  rw [BitVec.getLsbD_and, fieldAt_bit _ _ _ hk, fieldAt_bit _ _ _ hk, BitVec.getLsbD_extractLsb',
    BitVec.getLsbD_allOnes]
  by_cases hp : pos ≤ k
  · rw [Nat.add_sub_cancel' hp, Bool.and_comm (w.getLsbD k)]
    simp [hp]
  · simp [hp]

theorem fieldAt_fieldOp (w : Word) : fieldAt 24 (fieldOp w) = w &&& 0xFF000000 := fieldAt_extractLsb' _ _ w
theorem fieldAt_fieldR (w : Word) : fieldAt 16 (fieldR w) = w &&& 0x000F0000 := fieldAt_extractLsb' _ _ w
theorem fieldAt_fieldN (w : Word) : fieldAt 0 (fieldN w) = w &&& 0x0000FFFF := fieldAt_extractLsb' _ _ w
theorem fieldAt_fieldAddr (w : Word) : fieldAt 8 (fieldAddr w) = w &&& 0x00FFFF00 := fieldAt_extractLsb' _ _ w
theorem fieldAt_fieldRow (w : Word) : fieldAt 16 (fieldRow w) = w &&& 0x00FF0000 := fieldAt_extractLsb' _ _ w
theorem fieldAt_fieldB (w : Word) : fieldAt 8 (fieldB w) = w &&& 0x0000FF00 := fieldAt_extractLsb' _ _ w
theorem fieldAt_fieldA (w : Word) : fieldAt 0 (fieldA w) = w &&& 0x000000FF := fieldAt_extractLsb' _ _ w

@[simp] theorem fieldAt_zero (pos n : Nat) : fieldAt pos 0#n = 0#32 := by
  simp [fieldAt]

/-- A field that fits the word is 0 exactly when it is 0 at its place. -/
theorem fieldAt_eq_zero_iff {pos n : Nat} (hn : pos + n ≤ 32) (x : BitVec n) : fieldAt pos x = 0 ↔ x = 0 := by
  refine ⟨fun h => BitVec.eq_of_getLsbD_eq fun k hk => ?_, fun h => h ▸ fieldAt_zero pos n⟩
  simpa [h] using (fieldAt_bit pos x (pos + k) (by omega)).symm

/-- Two parts of a word are both 0 exactly when the word is 0 under the two masks together. -/
theorem and_or_beq_zero (w a b : Word) : (w &&& (a ||| b) == 0) = (w &&& a == 0 && w &&& b == 0) := by
  rw [Bool.eq_iff_iff, Bool.and_eq_true, beq_iff_eq, beq_iff_eq, beq_iff_eq, BitVec.and_or_distrib_left]
  exact BitVec.or_eq_zero_iff

/-! ### The must-be-zero bits of a row are its must-be-zero fields (R91, R96) -/

/-- A field tested for 0 in the word by the mask of its bits. -/
theorem and_mask_beq_zero {pos n : Nat} (hn : pos + n ≤ 32) (w : Word) {m : Word}
    (hm : m = fieldAt pos (BitVec.allOnes n) := by rfl) : (w &&& m == 0) = (w.extractLsb' pos n == 0) := by
  rw [hm, ← fieldAt_extractLsb', Bool.eq_iff_iff, beq_iff_eq, beq_iff_eq, fieldAt_eq_zero_iff hn]

theorem mustBeZero_z (w : Word) : (w &&& 0x00FFFFFF == 0) = (fieldZ w == 0) := and_mask_beq_zero (by decide) w
theorem mustBeZero_qHigh (w : Word) : (w &&& 0x00F00000 == 0) = (fieldQHigh w == 0) := and_mask_beq_zero (by decide) w
theorem mustBeZero_row (w : Word) : (w &&& 0x00FF0000 == 0) = (fieldRow w == 0) := and_mask_beq_zero (by decide) w
theorem mustBeZero_b (w : Word) : (w &&& 0x0000FF00 == 0) = (fieldB w == 0) := and_mask_beq_zero (by decide) w
theorem mustBeZero_a (w : Word) : (w &&& 0x000000FF == 0) = (fieldA w == 0) := and_mask_beq_zero (by decide) w
theorem mustBeZero_n (w : Word) : (w &&& 0x0000FFFF == 0) = (fieldN w == 0) := and_mask_beq_zero (by decide) w

theorem mustBeZero_qHigh_n (w : Word) : (w &&& 0x00F0FFFF == 0) = (fieldQHigh w == 0 && fieldN w == 0) := by
  rw [← mustBeZero_qHigh, ← mustBeZero_n, ← and_or_beq_zero]; rfl

theorem mustBeZero_row_b (w : Word) : (w &&& 0x00FFFF00 == 0) = (fieldRow w == 0 && fieldB w == 0) := by
  rw [← mustBeZero_row, ← mustBeZero_b, ← and_or_beq_zero]; rfl

theorem mustBeZero_none (w : Word) : (w &&& 0 == 0) = true := by simp

/-! ### The encoder puts the fields of a word back into it (R91) -/

theorem encodeZ_fields (op : Byte) (w : Word) : encodeZ op = fieldAt 24 op ||| (w &&& 0) := by
  simp [encodeZ]

theorem encodeQ_fields (op : Byte) (w : Word) :
    encodeQ op (fieldR w) (fieldN w) = fieldAt 24 op ||| (w &&& 0x000FFFFF) := by
  rw [encodeQ, fieldAt_fieldR, fieldAt_fieldN, BitVec.or_assoc, ← BitVec.and_or_distrib_left]; rfl

theorem encodeQ_fieldR (op : Byte) (w : Word) : encodeQ op (fieldR w) 0 = fieldAt 24 op ||| (w &&& 0x000F0000) := by
  simp [encodeQ, fieldAt_fieldR]

theorem encodeX_fields (op : Byte) (w : Word) : encodeX op (fieldN w) = fieldAt 24 op ||| (w &&& 0x0000FFFF) := by
  rw [encodeX, fieldAt_fieldN]

theorem encodeS_fields (op : Byte) (w : Word) :
    encodeS op (fieldB w) (fieldA w) = fieldAt 24 op ||| (w &&& 0x0000FFFF) := by
  rw [encodeS, fieldAt_fieldB, fieldAt_fieldA, BitVec.or_assoc, ← BitVec.and_or_distrib_left]; rfl

theorem encodeS_fieldA (op : Byte) (w : Word) : encodeS op 0 (fieldA w) = fieldAt 24 op ||| (w &&& 0x000000FF) := by
  simp [encodeS, fieldAt_fieldA]

theorem encodeM_fields (op : Byte) (w : Word) :
    encodeM op (fieldAddr w) (fieldA w) = fieldAt 24 op ||| (w &&& 0x00FFFFFF) := by
  rw [encodeM, fieldAt_fieldAddr, fieldAt_fieldA, BitVec.or_assoc, ← BitVec.and_or_distrib_left]; rfl

theorem encodeM_fieldAddr (op : Byte) (w : Word) :
    encodeM op (fieldAddr w) 0 = fieldAt 24 op ||| (w &&& 0x00FFFF00) := by
  simp [encodeM, fieldAt_fieldAddr]

theorem encodeC_fields (op : Byte) (w : Word) :
    encodeC op (fieldRow w) (fieldB w) (fieldA w) = fieldAt 24 op ||| (w &&& 0x00FFFFFF) := by
  rw [encodeC, fieldAt_fieldRow, fieldAt_fieldB, fieldAt_fieldA, BitVec.or_assoc, BitVec.or_assoc,
    ← BitVec.and_or_distrib_left, ← BitVec.and_or_distrib_left]; rfl

theorem encodeC_fieldRow_fieldB (op : Byte) (w : Word) :
    encodeC op (fieldRow w) (fieldB w) 0 = fieldAt 24 op ||| (w &&& 0x00FFFF00) := by
  rw [encodeC, fieldAt_fieldRow, fieldAt_fieldB, BitVec.or_assoc _ (w &&& 0x00FF0000), ← BitVec.and_or_distrib_left]
  simp

/-! ### The decoder answers by the row of the opcode (R93, R94) -/

/-- A word and the row of the opcode map that bears its opcode: the decoder's answer `x` is the command `i` of that row
exactly when the word selects the row, and then `i` holds every bit of the word. -/
structure AnswersByRow (w : Word) (x : Except DecodeReject Instr) (r : OpRow) (i : Instr) : Prop where
  listed : r ∈ opTable
  opcode : fieldOp r.pattern = fieldOp w
  mnemonic : r.mnemonic = mnemonicOf i
  answer : x = requireZero (r.selects w) i
  encodes : r.selects w = true → encode i = w

/-- A row of the opcode map has its opcode alone in the pattern, and its mask covers the opcode (R94). -/
theorem opTable_row {r : OpRow} (hr : r ∈ opTable) : r.pattern = fieldAt 24 (fieldOp r.pattern) ∧
    r.mask = 0xFF000000 ||| (r.mask &&& 0x00FFFFFF) := by
  revert r
  decide

theorem opTable_opcodes : opTable.map (fun r => (fieldOp r.pattern).toNat) =
    [0x00, 0x01, 0x02, 0x03, 0x04, 0x30, 0x31, 0x10, 0x11, 0x12, 0x13, 0x20, 0x21, 0x22, 0x23,
     0x40, 0x41, 0x42, 0x43, 0x44, 0x50, 0x51, 0x52, 0x53] := by
  decide

/-- Of two disjoint masks the second keeps nothing exactly when it adds nothing to the first. -/
theorem and_or_eq_left_iff {w a m : Word} (ha : a &&& m = 0#32) : w &&& (a ||| m) = w &&& a ↔ w &&& m = 0#32 := by
  rw [BitVec.and_or_distrib_left]
  constructor
  · intro h
    calc w &&& m = (w &&& a ||| w &&& m) &&& m := by simp [BitVec.and_or_distrib_right, BitVec.and_assoc, ha]
      _ = 0#32 := by rw [h, BitVec.and_assoc, ha, BitVec.and_zero]
  · intro h
    rw [h, BitVec.or_zero]

/-- A row with the opcode of the word is selected exactly when its must-be-zero bits are 0 in the word. -/
theorem selects_eq_mustBeZero {r : OpRow} {w : Word} (hr : r ∈ opTable) (hop : fieldOp w = fieldOp r.pattern) :
    r.selects w = (w &&& (r.mask &&& 0x00FFFFFF) == 0) := by
  obtain ⟨hp, hm⟩ := opTable_row hr
  have hd : 0xFF000000 &&& (r.mask &&& 0x00FFFFFF) = 0#32 := by
    rw [BitVec.and_comm r.mask, ← BitVec.and_assoc]; exact BitVec.zero_and
  generalize r.mask &&& 0x00FFFFFF = m at hm hd ⊢
  rw [OpRow.selects, hp, hm, ← hop, fieldAt_fieldOp, Bool.eq_iff_iff, beq_iff_eq, beq_iff_eq]
  exact and_or_eq_left_iff hd

/-- A word that selects a row is the pattern of the row and the bits the mask leaves to the operands. -/
theorem pattern_or_operands {r : OpRow} {w : Word} (h : r.selects w = true) : r.pattern ||| (w &&& ~~~r.mask) = w := by
  have hp : w &&& r.mask = r.pattern := by simpa [OpRow.selects] using h
  rw [← hp, ← BitVec.and_or_distrib_left, BitVec.or_not_self, BitVec.and_allOnes]

/-- When the decoder tests the must-be-zero bits of a row and the command has all the other bits for its operands, the
answer is by that row. -/
theorem row_of_fields {w : Word} {legal : Bool} {i : Instr} (r : OpRow)
    (hop : (fieldOp w).toNat = (fieldOp r.pattern).toNat)
    (hlegal : (w &&& (r.mask &&& 0x00FFFFFF) == 0) = legal) (hi : encode i = r.pattern ||| (w &&& ~~~r.mask))
    (hr : r ∈ opTable := by decide) (hname : r.mnemonic = mnemonicOf i := by rfl) :
    ∃ r j, AnswersByRow w (requireZero legal i) r j :=
  have hop := BitVec.eq_of_toNat_eq hop
  ⟨r, i,
    { listed := hr
      opcode := hop.symm
      mnemonic := hname
      answer := by rw [selects_eq_mustBeZero hr hop, hlegal]
      encodes := fun h => by rw [hi, pattern_or_operands h] }⟩

/-- The decoder answers by the row that bears the opcode of the word; when no row does, the opcode is reserved (R93). -/
theorem decode_answersByRow (w : Word) :
    (∃ r i, AnswersByRow w (decode w) r i) ∨
    (decode w = .error .reservedOpcode ∧ ∀ r ∈ opTable, fieldOp r.pattern ≠ fieldOp w) := by
  unfold decode
  split
  case h_1 h =>
    exact .inl (row_of_fields ⟨"NOP", 0x00000000, 0xFFFFFFFF⟩ h (mustBeZero_z w) (encodeZ_fields _ w))
  case h_2 h =>
    exact .inl (row_of_fields ⟨"SETQ", 0x01000000, 0xFFF00000⟩ h (mustBeZero_qHigh w) (encodeQ_fields _ w))
  case h_3 h =>
    exact .inl (row_of_fields ⟨"GETQ", 0x02000000, 0xFFF0FFFF⟩ h (mustBeZero_qHigh_n w) (encodeQ_fieldR _ w))
  case h_4 h =>
    exact .inl (row_of_fields ⟨"CLRERR", 0x03000000, 0xFFFFFFFF⟩ h (mustBeZero_z w) (encodeZ_fields _ w))
  case h_5 h =>
    exact .inl (row_of_fields ⟨"SETVER", 0x04000000, 0xFFFF0000⟩ h (mustBeZero_row w) (encodeX_fields _ w))
  case h_6 h =>
    exact .inl (row_of_fields ⟨"GFMUL", 0x10000000, 0xFFFF0000⟩ h (mustBeZero_row w) (encodeS_fields _ w))
  case h_7 h =>
    exact .inl (row_of_fields ⟨"GFDIV", 0x11000000, 0xFFFF0000⟩ h (mustBeZero_row w) (encodeS_fields _ w))
  case h_8 h =>
    exact .inl (row_of_fields ⟨"GFEXP", 0x12000000, 0xFFFFFF00⟩ h (mustBeZero_row_b w) (encodeS_fieldA _ w))
  case h_9 h =>
    exact .inl (row_of_fields ⟨"GFLOG", 0x13000000, 0xFFFFFF00⟩ h (mustBeZero_row_b w) (encodeS_fieldA _ w))
  case h_10 h =>
    exact .inl (row_of_fields ⟨"PMUL", 0x20000000, 0xFFFFFFFF⟩ h (mustBeZero_z w) (encodeZ_fields _ w))
  case h_11 h =>
    exact .inl (row_of_fields ⟨"PREM", 0x21000000, 0xFFFFFFFF⟩ h (mustBeZero_z w) (encodeZ_fields _ w))
  case h_12 h =>
    exact .inl (row_of_fields ⟨"GENP", 0x22000000, 0xFFFF0000⟩ h (mustBeZero_row w) (encodeX_fields _ w))
  case h_13 h =>
    exact .inl (row_of_fields ⟨"ECGEN", 0x23000000, 0xFFFF0000⟩ h (mustBeZero_row w) (encodeX_fields _ w))
  case h_14 h =>
    exact .inl (row_of_fields (legal := true) ⟨"CWWR", 0x30000000, 0xFF000000⟩ h (mustBeZero_none w)
      (encodeM_fields _ w))
  case h_15 h =>
    exact .inl (row_of_fields ⟨"CWRD", 0x31000000, 0xFF0000FF⟩ h (mustBeZero_a w) (encodeM_fieldAddr _ w))
  case h_16 h =>
    exact .inl (row_of_fields ⟨"RSVCLR", 0x40000000, 0xFFFFFFFF⟩ h (mustBeZero_z w) (encodeZ_fields _ w))
  case h_17 h =>
    exact .inl (row_of_fields (legal := true) ⟨"RSVWR", 0x41000000, 0xFF000000⟩ h (mustBeZero_none w)
      (encodeC_fields _ w))
  case h_18 h =>
    exact .inl (row_of_fields ⟨"RSVRD", 0x42000000, 0xFF0000FF⟩ h (mustBeZero_a w) (encodeC_fieldRow_fieldB _ w))
  case h_19 h =>
    exact .inl (row_of_fields ⟨"SEQGEN", 0x43000000, 0xFFFFFFFF⟩ h (mustBeZero_z w) (encodeZ_fields _ w))
  case h_20 h =>
    exact .inl (row_of_fields ⟨"SEQRD", 0x44000000, 0xFFFF0000⟩ h (mustBeZero_row w) (encodeX_fields _ w))
  case h_21 h =>
    exact .inl (row_of_fields ⟨"GRIDCLR", 0x50000000, 0xFFFFFFFF⟩ h (mustBeZero_z w) (encodeZ_fields _ w))
  case h_22 h =>
    exact .inl (row_of_fields (legal := true) ⟨"GRIDWR", 0x51000000, 0xFF000000⟩ h (mustBeZero_none w)
      (encodeC_fields _ w))
  case h_23 h =>
    exact .inl (row_of_fields ⟨"GRIDRD", 0x52000000, 0xFF0000FF⟩ h (mustBeZero_a w) (encodeC_fieldRow_fieldB _ w))
  case h_24 h =>
    exact .inl (row_of_fields ⟨"MPLACE", 0x53000000, 0xFFFF0000⟩ h (mustBeZero_row w) (encodeX_fields _ w))
  case h_25 =>
    refine .inr ⟨rfl, fun r hr hop => ?_⟩
    have hmem : (fieldOp w).toNat ∈ opTable.map fun r => (fieldOp r.pattern).toNat :=
      List.mem_map.2 ⟨r, hr, congrArg BitVec.toNat hop⟩
    rw [opTable_opcodes] at hmem
    simp_all only [List.mem_cons, List.not_mem_nil, imp_false, or_self]

/-! ### What an answer says of the word -/

theorem requireZero_eq_ok {legal : Bool} {i j : Instr} (h : requireZero legal i = .ok j) : legal = true ∧ i = j := by
  cases legal with
  | true => exact ⟨rfl, Except.ok.inj h⟩
  | false => nomatch h

/-- A word that decodes selects the row of the command, and the command holds every bit of it. -/
theorem row_of_decode_ok {w : Word} {i : Instr} (h : decode w = .ok i) :
    encode i = w ∧ ∃ r ∈ opTable, fieldOp r.pattern = fieldOp w ∧ r.mnemonic = mnemonicOf i ∧ r.selects w = true := by
  obtain ⟨r, j, hr⟩ | ⟨herr, -⟩ := decode_answersByRow w
  · obtain ⟨hs, rfl⟩ := requireZero_eq_ok (hr.answer.symm.trans h)
    exact ⟨hr.encodes hs, r, hr.listed, hr.opcode, hr.mnemonic, hs⟩
  · rw [h] at herr
    nomatch herr

/-- No two rows of the opcode map bear one opcode. -/
theorem opTable_opcode_unique {r r' : OpRow} (hr : r ∈ opTable) (hr' : r' ∈ opTable)
    (h : fieldOp r.pattern = fieldOp r'.pattern) : r = r' :=
  List.inj_on_of_nodup_map (f := fun r : OpRow => fieldOp r.pattern) (by decide) hr hr' h

/-- No two rows of the opcode map bear one mnemonic. -/
theorem opTable_mnemonic_unique {r r' : OpRow} (hr : r ∈ opTable) (hr' : r' ∈ opTable)
    (h : r.mnemonic = r'.mnemonic) : r = r' :=
  List.inj_on_of_nodup_map (f := OpRow.mnemonic) (by decide) hr hr' h

/-- The mask of every row covers the opcode, so a selected row bears the opcode of the word. -/
theorem opcode_of_selects {r : OpRow} {w : Word} (hr : r ∈ opTable) (h : r.selects w = true) :
    fieldOp r.pattern = fieldOp w := by
  have hmask : fieldOp r.mask = BitVec.allOnes 8 := by
    clear h
    revert r
    decide
  have hp : w &&& r.mask = r.pattern := by simpa [OpRow.selects] using h
  rw [← hp, fieldOp, BitVec.extractLsb'_and, ← fieldOp, ← fieldOp, hmask, BitVec.and_allOnes]

/-- When the row that bears the opcode of the word is not selected, the word decodes to nothing. -/
theorem decode_error_of_not_selects {r : OpRow} {w : Word} (hr : r ∈ opTable) (hop : fieldOp r.pattern = fieldOp w)
    (h : r.selects w = false) : ∃ e, decode w = .error e := by
  cases hd : decode w with
  | error e => exact ⟨e, rfl⟩
  | ok i =>
    obtain ⟨-, r', hr', hop', -, hs⟩ := row_of_decode_ok hd
    obtain rfl := opTable_opcode_unique hr hr' (hop.trans hop'.symm)
    rw [h] at hs
    nomatch hs

/-- When no row bears the opcode of the word, the word decodes to nothing. -/
theorem decode_error_of_no_row {w : Word} (h : ∀ r ∈ opTable, fieldOp r.pattern ≠ fieldOp w) :
    ∃ e, decode w = .error e := by
  cases hd : decode w with
  | error e => exact ⟨e, rfl⟩
  | ok i =>
    obtain ⟨-, r, hr, hop, -⟩ := row_of_decode_ok hd
    exact absurd hop (h r hr)

/-- A word that selects a row decodes. -/
theorem decode_ok_of_selects {r : OpRow} {w : Word} (hr : r ∈ opTable) (h : r.selects w = true) :
    ∃ i, decode w = .ok i := by
  obtain ⟨r', i, hr'⟩ | ⟨-, hno⟩ := decode_answersByRow w
  · obtain rfl := opTable_opcode_unique hr hr'.listed ((opcode_of_selects hr h).trans hr'.opcode.symm)
    exact ⟨i, by rw [hr'.answer, h]; rfl⟩
  · exact absurd (opcode_of_selects hr h) (hno r hr)

/-! ### The obligations on words -/

/-- Settles O1: the fields of the encoded word are those of its format, with the opcode of the command, and the
must-be-zero fields of the format are 0. -/
theorem decodeOfEncodeIsTheCommand : Obligations.DecodeOfEncodeIsTheCommand := by
  intro i
  cases i
  case nop | clrerr | pmul | prem | rsvclr | seqgen | gridclr => rfl
  case setq | getq => simp [decode, encode, requireZero, fieldOp_encodeQ, fieldQHigh_encodeQ]
  case setver | genp | ecgen | seqrd | mplace => simp [decode, encode, requireZero, fieldOp_encodeX, fieldRow_encodeX]
  case gfmul | gfdiv | gfexp | gflog => simp [decode, encode, requireZero, fieldOp_encodeS, fieldRow_encodeS]
  case cwwr | cwrd => simp [decode, encode, requireZero, fieldOp_encodeM]
  case rsvwr | rsvrd | gridwr | gridrd => simp [decode, encode, requireZero, fieldOp_encodeC]

/-- Settles O2: the row of the word has its opcode, and the operands hold the bits its mask leaves. -/
theorem encodeOfDecodeIsTheWord : Obligations.EncodeOfDecodeIsTheWord :=
  fun _ _ h => (row_of_decode_ok h).1

/-- Settles O3: a selected row bears the opcode of the word, and opcodes and mnemonics tell the rows apart. -/
theorem decoderFollowsTheOpcodeMap : Obligations.DecoderFollowsTheOpcodeMap := by
  intro w
  refine ⟨fun i hd r hr => ?_, fun e hd r hr => ?_⟩
  · obtain ⟨-, r', hr', hop, hname, hs⟩ := row_of_decode_ok hd
    constructor
    · intro h
      obtain rfl := opTable_opcode_unique hr hr' ((opcode_of_selects hr h).trans hop.symm)
      exact hname
    · intro h
      obtain rfl := opTable_mnemonic_unique hr hr' (h.trans hname.symm)
      exact hs
  · by_contra hs
    obtain ⟨i, hi⟩ := decode_ok_of_selects hr (by simpa using hs)
    rw [hd] at hi
    nomatch hi

/-- Settles O6: the decoder run on each word. -/
theorem specWordsDecode : Obligations.SpecWordsDecode := by
  unfold Obligations.SpecWordsDecode
  decide

end Sys2Proof
end

section
/-! PROOFS of the steps that take a word from the port (R93 to R99): the refusal of an illegal word, and the one
response word of every command. -/

namespace Sys2Proof.Machine

variable {s : State} {w : Word} {rest : List HostInput}

/-! ### Illegal words (R95, R96) -/

/-- A word that is no command is refused with `IllegalCommand`. -/
theorem step_of_decode_error {e : DecodeReject} (hr : s.inReset = false) (hf : s.running)
    (hi : s.inputs = .command w :: rest) (hd : decode w = .error e) :
    step s = .next (refusedWith { s with inputs := rest } 0x05) := by
  have hf' : (s.withInputs rest).faulted = false := hf
  calc step s = illegalCommand (s.withInputs rest) := by rw [step_command hr hi, hd]
    _ = raise .illegalCommand (s.withInputs rest) := command_running hf' _
    _ = .next (refusedWith (s.withInputs rest) 0x05) := raise_eq (by decide) _

theorem fieldOp_toNat (w : Word) : (fieldOp w).toNat = w.toNat / 0x1000000 := by
  rw [fieldOp, BitVec.extractLsb'_toNat, Nat.shiftRight_eq_div_pow, Nat.mod_eq_of_lt]
  have := w.isLt
  omega

/-- The opcode map and the six ranges of R95 have no opcode in common. -/
theorem not_reservedOpcode_of_row {r : OpRow} (hr : r ∈ opTable) : ¬ reservedOpcode (fieldOp r.pattern).toNat := by
  unfold reservedOpcode
  revert r
  decide

/-- Settles O4: no row of the opcode map bears a reserved opcode, so the word decodes to nothing. -/
theorem reservedOpcodeIsRefused : Obligations.ReservedOpcodeIsRefused := by
  intro s w rest hr hf hi hop
  obtain ⟨e, hd⟩ := decode_error_of_no_row (w := w) fun r hrow heq => by
    rw [← fieldOp_toNat, ← heq] at hop
    exact not_reservedOpcode_of_row hrow hop
  exact step_of_decode_error hr hf hi hd

/-- Words that agree under the mask of the opcode have one opcode. -/
theorem fieldOp_eq_of_and_mask {v : Word} (h : v &&& 0xFF000000 = w &&& 0xFF000000) : fieldOp v = fieldOp w := by
  rw [← fieldAt_fieldOp, ← fieldAt_fieldOp] at h
  exact (fieldOp_encodeZ _).symm.trans ((congrArg fieldOp h).trans (fieldOp_encodeZ _))

/-- Settles O5: the row that bears the opcode of the word is not selected, so the word decodes to nothing. -/
theorem mustBeZeroViolationIsRefused : Obligations.MustBeZeroViolationIsRefused := by
  intro s w rest r hr hf hi hrow hop hbits
  have hs : r.selects w = false := beq_false_of_ne hbits
  obtain ⟨e, hd⟩ := decode_error_of_not_selects hrow (fieldOp_eq_of_and_mask hop).symm hs
  exact step_of_decode_error hr hf hi hd

/-! ### The response word (R99) -/

/-- A response word of R99 with the status code `c`: a code the block gives, 0 in bits 23:16, and the value 0 when the
status is not success. -/
def IsResponse (r : Word) (c : StatusCode) : Prop :=
  r.extractLsb' 24 8 = statusByte c ∧ c ≠ .capacityExceeded ∧ c ≠ .invalidCharacter ∧
    r.extractLsb' 16 8 = (0 : Byte) ∧ (c ≠ .ok → r.extractLsb' 0 16 = (0 : Half))

/-- A success answers a value. -/
theorem isResponse_value (v : Half) : IsResponse (v.setWidth 32) .ok :=
  ⟨value_status v, by decide, by decide, value_reserved v, fun h => absurd rfl h⟩

/-- Below the status byte a refusal's response has no bits. -/
theorem code_low {pos n : Nat} (c : Byte) (h : pos + n ≤ 24) :
    (c.setWidth 32 <<< 24 : Word).extractLsb' pos n = 0#n := by
  apply BitVec.eq_of_getLsbD_eq
  intro k hk
  rw [BitVec.getLsbD_extractLsb', BitVec.getLsbD_shiftLeft]
  simp [show pos + k < 24 by omega]

/-- A refusal and the fatal fault answer the code alone. -/
theorem isResponse_code {c : StatusCode} (h3 : c ≠ .capacityExceeded) (h4 : c ≠ .invalidCharacter) :
    IsResponse ((statusByte c).setWidth 32 <<< 24) c :=
  ⟨code_status _, h3, h4, code_low _ (by decide), fun _ => code_low _ (by decide)⟩

/-! Each end of a command that is no success appends its code. -/

theorem haltedAfter_responses (s : State) :
    (haltedAfter s).responses = s.responses ++ [(statusByte .halted).setWidth 32 <<< 24] := rfl

theorem fatalAfter_responses (s : State) :
    (fatalAfter s).responses = s.responses ++ [(statusByte .divideByZero).setWidth 32 <<< 24] := rfl

theorem refusedWith_responses (s : State) (c : Byte) :
    (refusedWith s c).responses = s.responses ++ [c.setWidth 32 <<< 24] := rfl

/-- Settles O14: a step has a next state, and what it answered is the `Halted` refusal, a refusal, the fatal fault or a
success, each of which appends one response word. -/
theorem everyCommandGivesOneResponse : Obligations.EveryCommandGivesOneResponse := by
  intro s w rest hr hi
  obtain ⟨t, ht⟩ := everyStepHasANextState s
  suffices h : ∃ r c, t.responses = s.responses ++ [r] ∧ IsResponse r c by
    obtain ⟨r, c, happ, hform⟩ := h
    exact ⟨t, r, c, ht, happ, hform⟩
  obtain ⟨-, rfl⟩ | ⟨-, ⟨c, -, -, h3, h4, -, rfl⟩ | rfl | ⟨i, -, hs⟩⟩ := step_command_next hr hi ht
  · exact ⟨_, .halted, haltedAfter_responses _, isResponse_code (by decide) (by decide)⟩
  · exact ⟨_, c, refusedWith_responses _ _, isResponse_code h3 h4⟩
  · exact ⟨_, .divideByZero, fatalAfter_responses _, isResponse_code (by decide) (by decide)⟩
  · obtain ⟨v, hv⟩ := success_responses hs
    exact ⟨_, .ok, hv, isResponse_value v⟩

end Sys2Proof.Machine
end

section
/-! PROOFS of the assembler's table (R101): an encoded word as the sum of its fields at their weights, and the one
command of each line. -/

namespace Sys2Proof.Machine

/-! ### A word is the sum of its fields at their weights (R91, R101) -/

/-- The number of two fields in a row. -/
theorem toNat_append_eq_add {n m : Nat} (x : BitVec n) (y : BitVec m) : (x ++ y).toNat = x.toNat * 2 ^ m + y.toNat := by
  rw [BitVec.toNat_append, ← Nat.shiftLeft_add_eq_or_of_lt y.isLt, Nat.shiftLeft_eq]

theorem encodeQ_eq_sum (op : Byte) {r imm : Nat} (hr : r < 16) (hi : imm < 65536) :
    encodeQ op (BitVec.ofNat 4 r) (BitVec.ofNat 16 imm) =
      BitVec.ofNat 32 (op.toNat * 0x1000000 + r * 0x10000 + imm) := by
  rw [encodeQ_eq_append]
  apply BitVec.eq_of_toNat_eq
  simp only [toNat_append_eq_add, BitVec.toNat_ofNat, BitVec.ofNat_eq_ofNat]
  omega

theorem encodeX_eq_sum (op : Byte) {n : Nat} (hn : n < 65536) :
    encodeX op (BitVec.ofNat 16 n) = BitVec.ofNat 32 (op.toNat * 0x1000000 + n) := by
  rw [encodeX_eq_append]
  apply BitVec.eq_of_toNat_eq
  simp only [toNat_append_eq_add, BitVec.toNat_ofNat, BitVec.ofNat_eq_ofNat]
  omega

theorem encodeS_eq_sum (op : Byte) {b a : Nat} (hb : b < 256) (ha : a < 256) :
    encodeS op (BitVec.ofNat 8 b) (BitVec.ofNat 8 a) = BitVec.ofNat 32 (op.toNat * 0x1000000 + b * 0x100 + a) := by
  rw [encodeS_eq_append]
  apply BitVec.eq_of_toNat_eq
  simp only [toNat_append_eq_add, BitVec.toNat_ofNat, BitVec.ofNat_eq_ofNat]
  omega

theorem encodeM_eq_sum (op : Byte) {addr data : Nat} (ha : addr < 65536) (hd : data < 256) :
    encodeM op (BitVec.ofNat 16 addr) (BitVec.ofNat 8 data) =
      BitVec.ofNat 32 (op.toNat * 0x1000000 + addr * 0x100 + data) := by
  rw [encodeM_eq_append]
  apply BitVec.eq_of_toNat_eq
  simp only [toNat_append_eq_add, BitVec.toNat_ofNat]
  omega

theorem encodeC_eq_sum (op : Byte) {row col val : Nat} (hr : row < 256) (hc : col < 256) (hv : val < 256) :
    encodeC op (BitVec.ofNat 8 row) (BitVec.ofNat 8 col) (BitVec.ofNat 8 val) =
      BitVec.ofNat 32 (op.toNat * 0x1000000 + row * 0x10000 + col * 0x100 + val) := by
  rw [encodeC_eq_append]
  apply BitVec.eq_of_toNat_eq
  simp only [toNat_append_eq_add, BitVec.toNat_ofNat]
  omega

/-! ### The lines of the table -/

/-- A line whose operands fit and which is one command assembles to the word of that command (R101). -/
theorem assemble_of_expand {l : AsmLine} {i : Instr} {w : Word} (hfit : asmWellFormed l = true) (hl : expand l = [i])
    (hw : encode i = w) : assemble l = some [w] := by
  rw [assemble, if_pos hfit, hl, ← hw]
  rfl

theorem fitsHalf_of_lt {n : Nat} (h : n < 65536) : fitsHalf n = true := decide_eq_true h

theorem fitsByte_of_lt {n : Nat} (h : n < 256) : fitsByte n = true := decide_eq_true h

theorem assemble_setq {r : RegOperand} {imm : Nat} (hr : regIndex r < 16) (hi : imm < 65536) :
    assemble (.setq r imm) = some [BitVec.ofNat 32 (0x01000000 + regIndex r * 0x10000 + imm)] :=
  assemble_of_expand (by simp [asmWellFormed, hr, fitsHalf_of_lt hi]) rfl (encodeQ_eq_sum 0x01 hr hi)

theorem assemble_getq {r : RegOperand} (hr : regIndex r < 16) :
    assemble (.getq r) = some [BitVec.ofNat 32 (0x02000000 + regIndex r * 0x10000)] :=
  assemble_of_expand (decide_eq_true hr) rfl (encodeQ_eq_sum 0x02 hr (imm := 0) (by decide))

section
variable {a b : Nat} (ha : a < 256) (hb : b < 256)
include ha hb

theorem assemble_gfmul : assemble (.gfmul a b) = some [BitVec.ofNat 32 (0x10000000 + b * 0x100 + a)] :=
  assemble_of_expand (by simp [asmWellFormed, fitsByte_of_lt ha, fitsByte_of_lt hb]) rfl (encodeS_eq_sum 0x10 hb ha)

theorem assemble_gfdiv : assemble (.gfdiv a b) = some [BitVec.ofNat 32 (0x11000000 + b * 0x100 + a)] :=
  assemble_of_expand (by simp [asmWellFormed, fitsByte_of_lt ha, fitsByte_of_lt hb]) rfl (encodeS_eq_sum 0x11 hb ha)

end

theorem assemble_gfexp {a : Nat} (ha : a < 256) : assemble (.gfexp a) = some [BitVec.ofNat 32 (0x12000000 + a)] :=
  assemble_of_expand (fitsByte_of_lt ha) rfl (encodeS_eq_sum 0x12 (b := 0) (by decide) ha)

theorem assemble_gflog {a : Nat} (ha : a < 256) : assemble (.gflog a) = some [BitVec.ofNat 32 (0x13000000 + a)] :=
  assemble_of_expand (fitsByte_of_lt ha) rfl (encodeS_eq_sum 0x13 (b := 0) (by decide) ha)

theorem assemble_cwwr {addr data : Nat} (ha : addr < 65536) (hd : data < 256) :
    assemble (.cwwr addr data) = some [BitVec.ofNat 32 (0x30000000 + addr * 0x100 + data)] :=
  assemble_of_expand (by simp [asmWellFormed, fitsHalf_of_lt ha, fitsByte_of_lt hd]) rfl (encodeM_eq_sum 0x30 ha hd)

theorem assemble_cwrd {addr : Nat} (ha : addr < 65536) :
    assemble (.cwrd addr) = some [BitVec.ofNat 32 (0x31000000 + addr * 0x100)] :=
  assemble_of_expand (fitsHalf_of_lt ha) rfl (encodeM_eq_sum 0x31 ha (data := 0) (by decide))

section
variable {row col : Nat} (hr : row < 256) (hc : col < 256)
include hr hc

theorem assemble_rsvwr {val : Nat} (hv : val < 256) :
    assemble (.rsvwr row col val) = some [BitVec.ofNat 32 (0x41000000 + row * 0x10000 + col * 0x100 + val)] :=
  assemble_of_expand (by simp [asmWellFormed, fitsByte_of_lt hr, fitsByte_of_lt hc, fitsByte_of_lt hv]) rfl
    (encodeC_eq_sum 0x41 hr hc hv)

theorem assemble_rsvrd :
    assemble (.rsvrd row col) = some [BitVec.ofNat 32 (0x42000000 + row * 0x10000 + col * 0x100)] :=
  assemble_of_expand (by simp [asmWellFormed, fitsByte_of_lt hr, fitsByte_of_lt hc]) rfl
    (encodeC_eq_sum 0x42 hr hc (val := 0) (by decide))

theorem assemble_gridwr {val : CellOperand} (hv : cellNumber val < 256) :
    assemble (.gridwr row col val) =
      some [BitVec.ofNat 32 (0x51000000 + row * 0x10000 + col * 0x100 + cellNumber val)] :=
  assemble_of_expand (by simp [asmWellFormed, fitsByte_of_lt hr, fitsByte_of_lt hc, fitsByte_of_lt hv]) rfl
    (encodeC_eq_sum 0x51 hr hc hv)

theorem assemble_gridrd :
    assemble (.gridrd row col) = some [BitVec.ofNat 32 (0x52000000 + row * 0x10000 + col * 0x100)] :=
  assemble_of_expand (by simp [asmWellFormed, fitsByte_of_lt hr, fitsByte_of_lt hc]) rfl
    (encodeC_eq_sum 0x52 hr hc (val := 0) (by decide))

end

/-- A line of format X with a 16-bit operand, by its opcode. -/
theorem assemble_formatX {l : AsmLine} {i : Instr} {n : Nat} (op : Byte) (hn : n < 65536)
    (hfit : asmWellFormed l = fitsHalf n := by rfl) (hl : expand l = [i] := by rfl)
    (hi : encode i = encodeX op (BitVec.ofNat 16 n) := by rfl) :
    assemble l = some [BitVec.ofNat 32 (op.toNat * 0x1000000 + n)] :=
  assemble_of_expand (hfit.trans (fitsHalf_of_lt hn)) hl (hi.trans (encodeX_eq_sum op hn))

/-- Settles O7: the lines without operands are closed, each other line is a sum of its fields, and the names of cells
and registers are read off. -/
theorem assemblerLinesEncodeByTheTable : Obligations.AssemblerLinesEncodeByTheTable := by
  refine ⟨rfl, rfl, rfl, rfl, rfl, rfl, rfl, fun r imm => assemble_setq, fun r => assemble_getq, fun n hn => ?_,
    fun a b ha hb => ?_, fun addr data ha hd => ⟨assemble_cwwr ha hd, assemble_cwrd ha⟩,
    fun row col val hr hc hv => ⟨assemble_rsvwr hr hc hv, assemble_rsvrd hr hc, assemble_gridrd hr hc⟩,
    fun row col val hr hc hv => assemble_gridwr hr hc hv, ⟨rfl, rfl, rfl, fun _ => rfl⟩,
    ⟨rfl, rfl, rfl, rfl, rfl, rfl, rfl, rfl, rfl, rfl, rfl, fun _ => rfl⟩⟩
  · exact ⟨assemble_formatX 0x04 hn, assemble_formatX 0x22 hn, assemble_formatX 0x23 hn, assemble_formatX 0x44 hn,
      assemble_formatX 0x53 hn⟩
  · exact ⟨assemble_gfmul ha hb, assemble_gfdiv ha hb, assemble_gfexp ha, assemble_gflog ha⟩

end Sys2Proof.Machine
end

section
/-! PROOFS of the results of the control and buffer commands (R121 to R127). -/

namespace Sys2Proof.Machine

variable {s : State}

/-! ### The word of a command (R91, R92) -/

/-- The fields of a command put in a row are a word that decodes to it. -/
theorem decode_of_encode_eq {i : Instr} {w : Word} (h : encode i = w) : decode w = .ok i :=
  h ▸ decodeOfEncodeIsTheCommand i

/-! ### The register file and `LASTERR` (R21, R28) -/

/-- SETQ writes the registers 0 to 4 only (R122). -/
theorem writeRegister_eq_none {r : BitVec 4} (hr : r.toNat > 4) (v : Half) : writeRegister s r v = none := by
  unfold writeRegister
  split
  case h_6 => rfl
  all_goals omega

/-- GETQ reads nothing at the reserved indices (R123). -/
theorem readRegister_eq_none {r : BitVec 4} (hr : r ∈ ([5, 6, 7, 14, 15] : List (BitVec 4))) :
    readRegister s r = none := by
  simp only [List.mem_cons, List.not_mem_nil, or_false] at hr
  obtain rfl | rfl | rfl | rfl | rfl := hr <;> rfl

/-- A `LASTERR` of 0x00 is bits 15:8 of `STATUS` cleared (R124). -/
theorem lastErrWrite_zero (st : Half) : lastErrWrite st 0 = st &&& 0x00FF := by simp [lastErrWrite]

/-- A single byte written at `b` is read at `b` and at no other address. -/
theorem cwByte_of_memWrite_single {t : State} {b : Nat} {x : Byte} (hcw : t.cw = memWrite s.cw b [x])
    (he : t.epoch = s.epoch) (a : Nat) : cwByte t a = if a = b then x else cwByte s a := by
  rw [cwByte_of_memWrite hcw he]
  by_cases hab : a = b
  · subst hab
    simp
  · rw [if_neg hab, if_neg (by simp only [List.length_singleton]; omega)]

/-! ### What a command answers on a block that is not FAULTED -/

section
variable (hf : s.running)
include hf

theorem exec_nop : exec .nop s = .next (answered s 0) := (command_running hf _).trans (respond_eq 0 s)

theorem exec_clrerr : exec .clrerr s = .next (answered s.clearLastErr 0) := (command_running hf _).trans (respond_eq 0 _)

theorem exec_setq_of_write {r : BitVec 4} {imm : Half} {t : State} (hw : writeRegister s r imm = some t) :
    exec (.setq r imm) s = .next (answered t 0) := by
  change command _ _ = _
  rw [command_running hf, hw]
  exact respond_eq 0 t

theorem exec_setq_of_no_register {r : BitVec 4} {imm : Half} (hw : writeRegister s r imm = none) :
    exec (.setq r imm) s = .next (refusedWith s 0x0D) := by
  change command _ _ = _
  rw [command_running hf, hw]
  exact raise_eq (by decide) s

theorem exec_getq_of_read {r : BitVec 4} {v : Half} (hv : readRegister s r = some v) :
    exec (.getq r) s = .next (answered s v) := by
  change command _ _ = _
  rw [command_running hf, hv]
  exact respond_eq v s

theorem exec_getq_of_no_register {r : BitVec 4} (hv : readRegister s r = none) :
    exec (.getq r) s = .next (refusedWith s 0x0D) := by
  change command _ _ = _
  rw [command_running hf, hv]
  exact raise_eq (by decide) s

theorem exec_setver_of_bad_version {n : Half} (hn : n = 0 ∨ n.toNat > 40) :
    exec (.setver n) s = .next (refusedWith s 0x08) :=
  (command_running hf _).trans ((if_pos hn).trans (raise_eq (by decide) s))

theorem exec_setver_of_version {n : Half} (h0 : n ≠ 0) (hn : n.toNat ≤ 40) :
    exec (.setver n) s = .next
      (answered ((((s.withVersion n (sideOf n)).withRsv []).withGrid []).invalidateSeq) (sideOf n)) :=
  (command_running hf _).trans ((if_neg (not_or.2 ⟨h0, Nat.not_lt.2 hn⟩)).trans (respond_eq _ _))

theorem exec_cwwr_of_outside {addr : Half} (ha : addr.toNat ≥ 4096) (data : Byte) :
    exec (.cwwr addr data) s = .next (refusedWith s 0x07) :=
  (command_running hf _).trans ((if_pos ha).trans (raise_eq (by decide) s))

theorem exec_cwwr_of_inside {addr : Half} (ha : addr.toNat < 4096) (data : Byte) :
    exec (.cwwr addr data) s = .next (answered (s.withCw (memWrite s.cw addr.toNat [data])) 0) :=
  (command_running hf _).trans ((if_neg (Nat.not_le.2 ha)).trans (respond_eq 0 _))

theorem exec_cwrd_of_outside {addr : Half} (ha : addr.toNat ≥ 4096) :
    exec (.cwrd addr) s = .next (refusedWith s 0x07) :=
  (command_running hf _).trans ((if_pos ha).trans (raise_eq (by decide) s))

theorem exec_cwrd_of_inside {addr : Half} (ha : addr.toNat < 4096) :
    exec (.cwrd addr) s = .next (answered s ((cwByte s addr.toNat).setWidth 16)) :=
  (command_running hf _).trans ((if_neg (Nat.not_le.2 ha)).trans (respond_eq _ s))

end

/-! ### The obligations -/

/-- Settles O39: both commands answer 0, and CLRERR writes 0x00 to `LASTERR` alone. -/
theorem nopAndClrerrResult : Obligations.NopAndClrerrResult := by
  intro s hf
  refine ⟨rfl, rfl, exec_nop hf, ?_⟩
  rw [exec_clrerr hf, ← lastErrWrite_zero]
  rfl

/-- Settles O40: `writeRegister` gives each of the five writable registers the immediate and has no other index. -/
theorem setqResult : Obligations.SetqResult := by
  intro imm s hf
  refine ⟨fun r => decode_of_encode_eq (encodeQ_eq_append 0x01 r imm), ?_, ?_, ?_, ?_, ?_,
    fun r hr => exec_setq_of_no_register hf (writeRegister_eq_none hr imm)⟩
  · exact exec_setq_of_write (t := s.withSa imm) hf rfl
  · exact exec_setq_of_write (t := s.withLa imm) hf rfl
  · exact exec_setq_of_write (t := s.withSb imm) hf rfl
  · exact exec_setq_of_write (t := s.withLb imm) hf rfl
  · exact exec_setq_of_write (t := s.withDa imm) hf rfl

/-- Settles O41: `readRegister` has each of the eleven registers at its index and nothing at the reserved ones. -/
theorem getqResult : Obligations.GetqResult := by
  intro s hf
  exact ⟨fun r => decode_of_encode_eq (encodeQ_eq_append 0x02 r 0), exec_getq_of_read hf rfl, exec_getq_of_read hf rfl,
    exec_getq_of_read hf rfl, exec_getq_of_read hf rfl, exec_getq_of_read hf rfl, exec_getq_of_read hf rfl,
    exec_getq_of_read hf rfl, exec_getq_of_read hf rfl, exec_getq_of_read hf rfl, exec_getq_of_read hf rfl,
    exec_getq_of_read hf rfl, fun r hr => exec_getq_of_no_register hf (readRegister_eq_none hr)⟩

/-- Settles O42: the side length of a legal version does not wrap, and invalidating the sequence writes `SEQ_VALID` and
`SEQLEN` only. -/
theorem setverResult : Obligations.SetverResult := by
  intro n s hf
  refine ⟨decode_of_encode_eq (encodeX_eq_append 0x04 n), exec_setver_of_bad_version hf, fun h0 hn => ?_⟩
  refine ⟨_, exec_setver_of_version hf h0 hn, sideOf_toNat hn, ?_, rsvBit_nil, gridCell_nil⟩
  rw [invalidateSeq_eq]
  rfl

/-- Settles O43: the write is that of a single byte, and the epoch stays. -/
theorem cwwrResult : Obligations.CwwrResult := by
  intro addr data s hf
  refine ⟨decode_of_encode_eq (encodeM_eq_append 0x30 addr data), fun ha => exec_cwwr_of_outside hf ha data,
    fun ha => ⟨_, exec_cwwr_of_inside hf ha data, rfl, ?_⟩⟩
  exact cwByte_of_memWrite_single rfl rfl

/-- Settles O44: the response is `cwByte`, which at an address without a written byte is the free value. -/
theorem cwrdResult : Obligations.CwrdResult := by
  intro addr s hf
  refine ⟨decode_of_encode_eq (encodeM_eq_append 0x31 addr 0), exec_cwrd_of_outside hf, exec_cwrd_of_inside hf,
    fun ha hfind => ?_⟩
  have hfree : cwByte s addr.toNat = Config.freeCwByte s.epoch addr.toNat := by rw [cwByte, hfind]; rfl
  rw [exec_cwrd_of_inside hf ha, hfree]

end Sys2Proof.Machine
end

section
/-! PROOFS of the Galois-field unit (R141 to R150): the tables as powers of 2 and their logarithms, the laws of multiply
and divide, the bit-by-bit product, and the results of the four commands. -/

namespace Sys2Proof.Machine

/-! ### The tables are inverse to each other (R141, R142) -/

theorem gfExp_gfLog : ∀ v : Byte, v ≠ 0 → gfExp (gfLog v) = v := by decide +kernel

theorem gfLog_gfExp : ∀ e : Byte, e ≠ 255 → gfLog (gfExp e) = e := by decide +kernel

theorem gfExp_ne_zero : ∀ e : Byte, e ≠ 255 → gfExp e ≠ 0 := by decide +kernel

theorem gfLog_ne_255 : ∀ v : Byte, v ≠ 0 → gfLog v ≠ 255 := by decide +kernel

/-! ### Every byte that is not 0 is a power, and the exponents count modulo 255 -/

theorem expMod_congr {m n : Nat} (h : m % 255 = n % 255) : expMod m = expMod n := by rw [expMod, expMod, h]

/-- No power reads the unspecified entry of `EXP`. -/
theorem ofNat_mod_255_ne_255 (n : Nat) : BitVec.ofNat 8 (n % 255) ≠ 255 := by
  intro h
  have := congrArg BitVec.toNat h
  simp only [BitVec.toNat_ofNat, BitVec.ofNat_eq_ofNat] at this
  omega

@[simp] theorem expMod_ne_zero (n : Nat) : expMod n ≠ 0#8 := gfExp_ne_zero _ (ofNat_mod_255_ne_255 n)

@[simp] theorem gfLog_expMod (n : Nat) : (gfLog (expMod n)).toNat = n % 255 := by
  rw [expMod, gfLog_gfExp _ (ofNat_mod_255_ne_255 n), BitVec.toNat_ofNat]
  omega

theorem gfLog_toNat_lt {v : Byte} (hv : v ≠ 0) : (gfLog v).toNat < 255 := by
  have hne : (gfLog v).toNat ≠ 255 := fun h => gfLog_ne_255 v hv (BitVec.eq_of_toNat_eq h)
  have := (gfLog v).isLt
  omega

theorem expMod_gfLog {v : Byte} (hv : v ≠ 0) : expMod (gfLog v).toNat = v := by
  rw [expMod, Nat.mod_eq_of_lt (gfLog_toNat_lt hv), BitVec.ofNat_toNat, BitVec.setWidth_eq, gfExp_gfLog v hv]

theorem exists_expMod {v : Byte} (hv : v ≠ 0) : ∃ n, v = expMod n := ⟨_, (expMod_gfLog hv).symm⟩

theorem eq_zero_or_expMod (v : Byte) : v = 0 ∨ ∃ n, v = expMod n := or_iff_not_imp_left.2 exists_expMod

theorem expMod_injOn {e f : Nat} (he : e < 255) (hf : f < 255) (h : expMod e = expMod f) : e = f := by
  have := congrArg (fun v => (gfLog v).toNat) h
  simpa only [gfLog_expMod, Nat.mod_eq_of_lt he, Nat.mod_eq_of_lt hf] using this

theorem expMod_zero : expMod 0 = 1 := rfl

theorem expMod_one : expMod 1 = 2 := rfl

/-! ### Multiply and divide on powers (R143, R144) -/

@[simp] theorem gfMul_zero (a : Byte) : gfMul a 0#8 = 0#8 := if_pos (.inr rfl)

@[simp] theorem zero_gfMul (a : Byte) : gfMul 0#8 a = 0#8 := if_pos (.inl rfl)

@[simp] theorem zero_gfDiv (b : Byte) : gfDiv 0#8 b = 0#8 := if_pos rfl

/-- The product adds the exponents. -/
@[simp] theorem gfMul_expMod (m n : Nat) : gfMul (expMod m) (expMod n) = expMod (m + n) := by
  rw [gfMul, if_neg (by simp), gfLog_expMod, gfLog_expMod]
  exact expMod_congr (by omega)

/-- The quotient subtracts the exponents; modulo 255 the factor 254 is -1. -/
@[simp] theorem gfDiv_expMod (m n : Nat) : gfDiv (expMod m) (expMod n) = expMod (m + 254 * n) := by
  rw [gfDiv, if_neg (by simp), gfLog_expMod, gfLog_expMod]
  exact expMod_congr (by omega)

theorem gfMul_comm (a b : Byte) : gfMul a b = gfMul b a := by
  obtain rfl | ⟨m, rfl⟩ := eq_zero_or_expMod a
  · simp
  obtain rfl | ⟨n, rfl⟩ := eq_zero_or_expMod b
  · simp
  rw [gfMul_expMod, gfMul_expMod, Nat.add_comm]

theorem gfMul_assoc (a b c : Byte) : gfMul (gfMul a b) c = gfMul a (gfMul b c) := by
  obtain rfl | ⟨m, rfl⟩ := eq_zero_or_expMod a
  · simp
  obtain rfl | ⟨n, rfl⟩ := eq_zero_or_expMod b
  · simp
  obtain rfl | ⟨k, rfl⟩ := eq_zero_or_expMod c
  · simp
  simp only [gfMul_expMod, Nat.add_assoc]

theorem gfMul_eq_zero {a b : Byte} (h : gfMul a b = 0) : a = 0 ∨ b = 0 := by
  by_contra hne
  rw [gfMul, if_neg hne] at h
  exact expMod_ne_zero _ h

theorem gfMul_one (a : Byte) : gfMul a 1 = a := by
  obtain rfl | ⟨m, rfl⟩ := eq_zero_or_expMod a
  · rfl
  rw [← expMod_zero, gfMul_expMod, Nat.add_zero]

theorem gfDiv_one (a : Byte) : gfDiv a 1 = a := by
  obtain rfl | ⟨m, rfl⟩ := eq_zero_or_expMod a
  · rfl
  rw [← expMod_zero, gfDiv_expMod, Nat.mul_zero, Nat.add_zero]

theorem gfMul_gfDiv_cancel (a : Byte) {b : Byte} (hb : b ≠ 0) : gfMul (gfDiv a b) b = a := by
  obtain ⟨n, rfl⟩ := exists_expMod hb
  obtain rfl | ⟨m, rfl⟩ := eq_zero_or_expMod a
  · simp
  rw [gfDiv_expMod, gfMul_expMod]
  exact expMod_congr (by omega)

theorem gfDiv_gfMul_cancel (a : Byte) {b : Byte} (hb : b ≠ 0) : gfDiv (gfMul a b) b = a := by
  obtain ⟨n, rfl⟩ := exists_expMod hb
  obtain rfl | ⟨m, rfl⟩ := eq_zero_or_expMod a
  · simp
  rw [gfMul_expMod, gfDiv_expMod]
  exact expMod_congr (by omega)

theorem gfDiv_self {b : Byte} (hb : b ≠ 0) : gfDiv b b = 1 := by
  obtain ⟨n, rfl⟩ := exists_expMod hb
  rw [gfDiv_expMod, ← expMod_zero]
  exact expMod_congr (by omega)

/-- The next power is twice the power before it. -/
theorem gfMul_two_expMod (n : Nat) : gfMul 2 (expMod n) = expMod (n + 1) := by
  rw [← expMod_one, gfMul_expMod, Nat.add_comm]

/-! ### The construction of `EXP` (R141) -/

/-- The doubling of R141 is the product with 2. -/
theorem gfDouble_toNat : ∀ v : Byte, gfDouble v.toNat = (gfMul 2 v).toNat := by decide +kernel

/-- The construction gives the powers of 2, beyond the table too. -/
theorem expConstructed_eq (e : Nat) : expConstructed e = (expMod e).toNat := by
  induction e with
  | zero => rfl
  | succ e ih => rw [expConstructed, ih, gfDouble_toNat, gfMul_two_expMod]

/-! ### The bit-by-bit product distributes over XOR (R150) -/

/-- A fold distributes over XOR when each of its steps does. -/
theorem foldl_xor {f g h : Nat → Nat → Nat} (step : ∀ p q i, h (p ^^^ q) i = f p i ^^^ g q i) (l : List Nat)
    (p q : Nat) : l.foldl h (p ^^^ q) = l.foldl f p ^^^ l.foldl g q := by
  induction l generalizing p q with
  | nil => rfl
  | cons i l ih => simp only [List.foldl_cons, step, ih]

/-- XOR under one condition, of the sum of two summands. -/
theorem ite_xor_of_summand (c : Bool) (p q s t : Nat) :
    (if c then p ^^^ q ^^^ (s ^^^ t) else p ^^^ q) = (if c then p ^^^ s else p) ^^^ (if c then q ^^^ t else q) := by
  cases c
  · rfl
  · simp only [if_true]
    ac_rfl

/-- XOR of one summand, under the sum of two conditions. -/
theorem ite_xor_of_condition (c d : Bool) (p q t : Nat) :
    (if c ^^ d then p ^^^ q ^^^ t else p ^^^ q) = (if c then p ^^^ t else p) ^^^ (if d then q ^^^ t else q) := by
  cases c <;> cases d <;> simp [Nat.xor_left_comm, Nat.xor_comm]

theorem carrylessProduct_xor_left (a b c : Nat) :
    carrylessProduct (a ^^^ b) c = carrylessProduct a c ^^^ carrylessProduct b c :=
  foldl_xor (fun p q i => by rw [Nat.shiftLeft_xor_distrib, ite_xor_of_summand]) (List.range 8) 0 0

theorem carrylessProduct_xor_right (a b c : Nat) :
    carrylessProduct a (b ^^^ c) = carrylessProduct a b ^^^ carrylessProduct a c :=
  foldl_xor (fun p q i => by rw [Nat.testBit_xor, ite_xor_of_condition]) (List.range 8) 0 0

theorem reduceProduct_xor (p q : Nat) : reduceProduct (p ^^^ q) = reduceProduct p ^^^ reduceProduct q :=
  foldl_xor (fun p q i => by rw [Nat.testBit_xor, ite_xor_of_condition]) _ p q

/-- A map of bytes that distributes over XOR. -/
def XorLinear (f : Byte → Byte) : Prop := ∀ x y, f (x ^^^ y) = f x ^^^ f y

theorem gfMulBits_linear_left (b : Byte) : XorLinear (gfMulBits · b) := fun x y => by
  simp only [gfMulBits, BitVec.toNat_xor, carrylessProduct_xor_left, reduceProduct_xor, BitVec.ofNat_xor]

theorem gfMulBits_linear_right (a : Byte) : XorLinear (gfMulBits a) := fun x y => by
  simp only [gfMulBits, BitVec.toNat_xor, carrylessProduct_xor_right, reduceProduct_xor, BitVec.ofNat_xor]

/-! ### So does the product by the tables -/

theorem gfMul_two_eq_gfMulBits : ∀ v : Byte, gfMul 2 v = gfMulBits 2 v := by decide +kernel

theorem gfMul_two_linear : XorLinear (gfMul 2) := by
  rw [funext gfMul_two_eq_gfMulBits]
  exact gfMulBits_linear_right 2

/-- The product with a power of 2 is repeated doubling. -/
theorem gfMul_expMod_linear (n : Nat) : XorLinear (gfMul (expMod n)) := by
  induction n with
  | zero => intro x y; simp only [expMod_zero, gfMul_comm 1, gfMul_one]
  | succ n ih =>
    intro x y
    simp only [← gfMul_two_expMod, gfMul_assoc]
    rw [ih, gfMul_two_linear]

theorem gfMul_linear_right (a : Byte) : XorLinear (gfMul a) := by
  obtain rfl | ⟨n, rfl⟩ := eq_zero_or_expMod a
  · intro x y; simp
  · exact gfMul_expMod_linear n

theorem gfMul_linear_left (b : Byte) : XorLinear (gfMul · b) := by
  rw [funext fun a => gfMul_comm a b]
  exact gfMul_linear_right b

/-! ### A linear map is known by its values at the eight bits -/

theorem byte_eq_xor_of_bits :
    ∀ x : Byte, x = ((List.range 8).filter x.getLsbD).foldr (fun i y => BitVec.twoPow 8 i ^^^ y) 0 := by decide +kernel

theorem XorLinear.map_zero {f : Byte → Byte} (hf : XorLinear f) : f 0 = 0 := by simpa using hf 0 0

theorem XorLinear.map_foldr {f : Byte → Byte} (hf : XorLinear f) (l : List Nat) :
    f (l.foldr (fun i y => BitVec.twoPow 8 i ^^^ y) 0) = l.foldr (fun i y => f (.twoPow 8 i) ^^^ y) 0 := by
  induction l with
  | nil => exact hf.map_zero
  | cons i l ih => rw [List.foldr_cons, hf, ih, List.foldr_cons]

theorem XorLinear.eq_of_bits {f g : Byte → Byte} (hf : XorLinear f) (hg : XorLinear g)
    (h : ∀ i < 8, f (.twoPow 8 i) = g (.twoPow 8 i)) (x : Byte) : f x = g x := by
  rw [byte_eq_xor_of_bits x, hf.map_foldr, hg.map_foldr]
  refine List.foldr_ext _ _ _ fun i hi y => ?_
  rw [h i (List.mem_range.1 (List.mem_filter.1 hi).1)]

theorem gfMul_eq_gfMulBits_of_bits :
    ∀ i < 8, ∀ j < 8, gfMul (.twoPow 8 i) (.twoPow 8 j) = gfMulBits (.twoPow 8 i) (.twoPow 8 j) := by
  decide +kernel

/-! ### What the four commands answer on a block that is not FAULTED (R146 to R149) -/

section
variable {s : State}

/-- In the FAULTED state every command is the `Halted` refusal (R285). -/
theorem exec_faulted (hf : s.faulted = true) (i : Instr) : exec i s = .next (haltedAfter s) := by
  obtain ⟨t, h⟩ := exec_total i s
  obtain ⟨-, rfl⟩ | ⟨hr, -⟩ := exec_next i h
  · exact h
  · simp [hf] at hr

@[simp] theorem fatalAfter_faulted (s : State) : (fatalAfter s).faulted = true := by
  simp [State.faulted, fatalAfter]

variable (hf : s.running)
include hf

theorem exec_gfmul (a b : Byte) : exec (.gfmul a b) s = .next (scalarAnswered s (gfMul a b)) :=
  (command_running hf _).trans (respond_eq _ _)

theorem exec_gfdiv_zero (a : Byte) : exec (.gfdiv a 0) s = .next (fatalAfter s) :=
  (command_running hf _).trans ((if_pos rfl).trans (fatalDivideByZero_eq s))

theorem exec_gfdiv {b : Byte} (hb : b ≠ 0) (a : Byte) : exec (.gfdiv a b) s = .next (scalarAnswered s (gfDiv a b)) :=
  (command_running hf _).trans ((if_neg hb).trans (respond_eq _ _))

theorem exec_gfexp_255 : exec (.gfexp 255) s = .next (refusedWith s 0x0C) :=
  (command_running hf _).trans ((if_pos rfl).trans (raise_eq (by decide) s))

theorem exec_gfexp {e : Byte} (he : e ≠ 255) : exec (.gfexp e) s = .next (scalarAnswered s (gfExp e)) :=
  (command_running hf _).trans ((if_neg he).trans (respond_eq _ _))

theorem exec_gflog_zero : exec (.gflog 0) s = .next (refusedWith s 0x0C) :=
  (command_running hf _).trans ((if_pos rfl).trans (raise_eq (by decide) s))

theorem exec_gflog {v : Byte} (hv : v ≠ 0) : exec (.gflog v) s = .next (scalarAnswered s (gfLog v)) :=
  (command_running hf _).trans ((if_neg hv).trans (respond_eq _ _))

end

/-! ### The obligations -/

/-- Settles O28: the multiplicative laws are those of exponents modulo 255; the product distributes over XOR because a
factor that is not 0 is a power of 2 and doubling does. -/
theorem gfLawsHold : Obligations.GfLawsHold :=
  ⟨fun a => ⟨gfMul_zero a, zero_gfMul a, gfMul_one a, gfDiv_one a⟩, fun _ _ => gfMul_eq_zero, gfMul_comm, gfMul_assoc,
    gfMul_linear_right,
    fun a b hb => ⟨gfMul_gfDiv_cancel a hb, gfDiv_gfMul_cancel a hb, gfDiv_self hb, zero_gfDiv b⟩, rfl⟩

/-- Settles O26: both products distribute over XOR in either operand, so the products of single bits decide. -/
theorem gfMulIsTheReducedProduct : Obligations.GfMulIsTheReducedProduct := by
  intro a b
  refine (gfMul_linear_left b).eq_of_bits (gfMulBits_linear_left b) (fun i hi => ?_) a
  exact (gfMul_linear_right _).eq_of_bits (gfMulBits_linear_right _) (gfMul_eq_gfMulBits_of_bits i hi) b

/-- Settles O27: the construction gives the powers of 2, and the 255th power has the exponent 0 again. -/
theorem galoisTablesAsConstructed : Obligations.GaloisTablesAsConstructed :=
  ⟨fun e _ => ⟨(expConstructed_eq e).symm, expMod_ne_zero e⟩, fun _ _ => expMod_injOn, expConstructed_eq 255,
    gfExp_gfLog, gfLog_gfExp⟩

/-- Settles O23: the success of a scalar command with the product, which is 0 for an operand 0 and commutes. -/
theorem gfmulResult : Obligations.GfmulResult := fun a b _ hf =>
  ⟨decode_of_encode_eq (encodeS_eq_append 0x10 b a), exec_gfmul hf a b, fun h => if_pos h, gfMul_comm a b⟩

/-- Settles O24: the divisor alone decides between the fatal fault, after which every command is refused with `Halted`,
and the success of a scalar command with the quotient. -/
theorem gfdivResult : Obligations.GfdivResult := by
  intro a b s hf
  refine ⟨decode_of_encode_eq (encodeS_eq_append 0x11 b a), ?_, fun hb => exec_gfdiv hf hb a⟩
  rintro rfl
  exact ⟨exec_gfdiv_zero hf a, exec_faulted (fatalAfter_faulted s)⟩

/-- Settles O25: the unspecified entry of each table is refused, and every other entry is read. -/
theorem gfexpAndGflogResult : Obligations.GfexpAndGflogResult := by
  intro a s hf
  refine ⟨decode_of_encode_eq (encodeS_eq_append 0x12 0 a), decode_of_encode_eq (encodeS_eq_append 0x13 0 a), ?_,
    fun ha => ⟨exec_gfexp hf ha, gfExp_ne_zero a ha, ?_⟩, ?_, fun ha => ⟨exec_gflog hf ha, gfLog_ne_255 a ha, ?_⟩⟩
  all_goals rintro rfl
  · exact exec_gfexp_255 hf
  · rfl
  · exact exec_gflog_zero hf
  · rfl

end Sys2Proof.Machine
end

section
/-! PROOFS of the polynomial unit (R160 to R164): sums of sequences, the product and its loops, the remainder, its loops
and its quotient, and the results of PMUL and PREM. -/

namespace Sys2Proof.Machine

/-! ### Sums of sequences (R151) -/

@[simp] theorem xorOnto_nil (x : List Byte) : xorOnto x [] = x := by cases x <;> rfl

@[simp] theorem nil_xorOnto (y : List Byte) : xorOnto [] y = [] := by cases y <;> rfl

@[simp] theorem cons_xorOnto_cons (a b : Byte) (x y : List Byte) :
    xorOnto (a :: x) (b :: y) = (a ^^^ b) :: xorOnto x y := rfl

/-- On two sequences of one length the sum is `xorSeq`. -/
theorem xorSeq_eq_xorOnto {x y : List Byte} (h : x.length = y.length) : xorSeq x y = xorOnto x y := by
  induction x generalizing y with
  | nil => simp [xorSeq]
  | cons a x ih =>
    obtain ⟨b, y, rfl⟩ := List.exists_cons_of_length_eq_add_one h.symm
    exact congrArg _ (ih (Nat.succ.inj h))

/-- `xorOnto y z` loses nothing of `z` when `z` is no longer than `y`. -/
theorem xorOnto_assoc (x : List Byte) {y z : List Byte} (h : z.length ≤ y.length) :
    xorOnto (xorOnto x y) z = xorOnto x (xorOnto y z) := by
  induction x generalizing y z with
  | nil => simp
  | cons a x ih =>
    cases z with
    | nil => simp
    | cons c z =>
      obtain ⟨b, y, rfl⟩ := List.exists_cons_of_length_pos (Nat.zero_lt_of_lt h)
      simp [ih (Nat.le_of_succ_le_succ h), BitVec.xor_assoc]

theorem xorOnto_comm {x y : List Byte} (h : x.length = y.length) : xorOnto x y = xorOnto y x := by
  rw [← xorSeq_eq_xorOnto h, ← xorSeq_eq_xorOnto h.symm]
  exact List.zipWith_comm_of_comm BitVec.xor_comm

theorem xorOnto_right_comm (x y z : List Byte) : xorOnto (xorOnto x y) z = xorOnto (xorOnto x z) y := by
  induction x generalizing y z with
  | nil => simp
  | cons a x ih =>
    cases y with
    | nil => simp
    | cons b y =>
      cases z with
      | nil => simp
      | cons c z => simp [ih y, BitVec.xor_assoc, BitVec.xor_comm b c]

theorem xorOnto_left_comm {x y : List Byte} (h : x.length = y.length) (z : List Byte) :
    xorOnto x (xorOnto y z) = xorOnto y (xorOnto x z) := by
  calc xorOnto x (xorOnto y z) = xorOnto (xorOnto y z) x := xorOnto_comm (by simpa using h)
    _ = xorOnto (xorOnto x y) z := by rw [xorOnto_right_comm, xorOnto_comm h]
    _ = xorOnto (xorOnto x z) y := xorOnto_right_comm x y z
    _ = xorOnto y (xorOnto x z) := xorOnto_comm (by simpa using h)

/-- What is added twice is gone. -/
theorem xorOnto_xorOnto_cancel (x y : List Byte) : xorOnto (xorOnto x y) y = x := by
  induction x generalizing y with
  | nil => simp
  | cons a x ih => cases y <;> simp [ih]

@[simp] theorem xorOnto_replicate_zero (x : List Byte) (n : Nat) : xorOnto x (List.replicate n 0#8) = x := by
  induction x generalizing n with
  | nil => simp
  | cons a x ih => cases n <;> simp [List.replicate_succ, ih]

/-- Zeros behind the second sequence add nothing. -/
@[simp] theorem xorOnto_append_replicate_zero (x y : List Byte) (n : Nat) :
    xorOnto x (y ++ List.replicate n 0#8) = xorOnto x y := by
  induction x generalizing y with
  | nil => simp
  | cons a x ih =>
    cases y with
    | nil => exact (xorOnto_replicate_zero _ n).trans (xorOnto_nil _).symm
    | cons b y => simp [ih]

/-- A sum of two sums may be taken crosswise. -/
theorem xorOnto_xorOnto_xorOnto_comm {d e x y : List Byte} (hde : d.length = e.length) (hxy : y.length ≤ x.length) :
    xorOnto (xorOnto d e) (xorOnto x y) = xorOnto (xorOnto d x) (xorOnto e y) :=
  calc xorOnto (xorOnto d e) (xorOnto x y) = xorOnto (xorOnto (xorOnto d e) x) y := (xorOnto_assoc _ hxy).symm
    _ = xorOnto (xorOnto (xorOnto d x) y) e := by rw [xorOnto_right_comm d e x, xorOnto_right_comm _ e y]
    _ = xorOnto e (xorOnto (xorOnto d x) y) := xorOnto_comm (by simpa using hde)
    _ = xorOnto (xorOnto d x) (xorOnto e y) := xorOnto_left_comm (by simpa using hde.symm) y

theorem xorOnto_tail (x y : List Byte) : (xorOnto x y).tail = xorOnto x.tail y.tail := by
  cases x <;> cases y <;> simp

theorem xorOnto_headD {x y : List Byte} (h : y.length ≤ x.length) :
    (xorOnto x y).headD 0 = x.headD 0 ^^^ y.headD 0 := by
  cases x with
  | nil => simp [List.eq_nil_of_length_eq_zero (Nat.le_zero.1 h)]
  | cons a x => cases y <;> simp

/-- Scaling by a sum is the sum of the scaled sequences (R145). -/
theorem polyScale_xor (f f' : Byte) (q : List Byte) :
    polyScale (f ^^^ f') q = xorOnto (polyScale f q) (polyScale f' q) := by
  induction q with
  | nil => rfl
  | cons b q ih => exact congrArg₂ List.cons (gfMul_linear_left b f f') ih

/-! ### The product (R160) -/

/-- Also of an empty first sequence. -/
@[simp] theorem length_polyMul (p q : List Byte) : (polyMul p q).length = p.length + q.length - 1 := by
  cases p with
  | nil => simp [polyMul]
  | cons a p => exact polyMul_length q (List.cons_ne_nil a p)

@[simp] theorem polyMul_nil (p : List Byte) : polyMul p [] = List.replicate (p.length - 1) 0#8 := by
  induction p with
  | nil => rfl
  | cons a p ih =>
    have hlow : xorOnto (List.replicate p.length 0#8) (0#8 :: List.replicate (p.length - 1) 0#8) =
        List.replicate p.length 0#8 := xorOnto_replicate_zero _ (p.length - 1 + 1)
    simpa [polyMul, polyScale, ih] using hlow

/-- The product by a coefficient more of the second sequence, as `polyMul` has it of the first. -/
theorem polyMul_cons_right (p : List Byte) (b : Byte) (q : List Byte) :
    polyMul p (b :: q) = xorOnto (polyScale b p ++ List.replicate q.length 0#8) (0#8 :: polyMul p q) := by
  induction p with
  | nil => exact (xorOnto_replicate_zero _ (q.length - 1 + 1)).symm
  | cons a p ih =>
    have hlen : (polyScale a q ++ List.replicate p.length 0#8).length =
        (polyScale b p ++ List.replicate q.length 0#8).length := by simp [Nat.add_comm]
    have hrows := xorOnto_left_comm hlen (0#8 :: polyMul p q)
    simpa [polyMul, ih, polyScale, gfMul_comm] using hrows

theorem polyMul_comm (p q : List Byte) : polyMul p q = polyMul q p := by
  induction p with
  | nil => rw [polyMul_nil]; rfl
  | cons a p ih => rw [polyMul_cons_right, ← ih]; rfl

theorem polyMul_head (a b : Byte) (p q : List Byte) : (polyMul (a :: p) (b :: q)).head? = some (gfMul a b) := by
  simp [polyMul, polyScale]

/-! ### The loops -/

/-- A loop over the positions of `h :: r` from the second on is the loop over the positions of `r`, when each pass is
one over `r`. -/
theorem foldl_range_map_succ_cons {F G : List Byte → Nat → List Byte} {h : Byte}
    (hpass : ∀ r i, F (h :: r) (i + 1) = h :: G r i) (n : Nat) (r : List Byte) :
    ((List.range n).map Nat.succ).foldl F (h :: r) = h :: (List.range n).foldl G r := by
  rw [List.foldl_map]
  exact List.foldl_hom (h :: ·) hpass

/-- The inner loops of R160 and R161: `r[i+j] <- r[i+j] XOR v(j)` for every `j` below `n`. -/
def xorRow (v : Nat → Byte) (n : Nat) (r : List Byte) (i : Nat) : List Byte :=
  (List.range n).foldl (fun r j => xorAt r (i + j) (v j)) r

theorem xorRow_cons_succ (v : Nat → Byte) (n : Nat) (h : Byte) (r : List Byte) (i : Nat) :
    xorRow v n (h :: r) (i + 1) = h :: xorRow v n r i :=
  List.foldl_hom (h :: ·) fun r j => by rw [Nat.add_right_comm]; rfl

theorem xorRow_zero (v : Nat → Byte) (n : Nat) (r : List Byte) :
    xorRow v n r 0 = xorOnto r ((List.range n).map v) := by
  induction n generalizing v r with
  | zero => simp [xorRow]
  | succ n ih =>
    cases r with
    | nil => exact List.foldl_fixed' (fun _ => List.modify_nil _ _) _
    | cons a r =>
      have hrest := foldl_range_map_succ_cons (h := a ^^^ v 0) (F := fun r j => xorAt r (0 + j) (v j))
        (G := fun r j => xorAt r (0 + j) (v (j + 1))) (fun r j => by rw [← Nat.add_assoc]; rfl) n r
      rw [xorRow, List.range_succ_eq_map, List.map_cons, List.map_map, cons_xorOnto_cons]
      exact hrest.trans (congrArg _ (ih (fun j => v (j + 1)) r))

theorem map_range_getD (f : Byte → Byte) (q : List Byte) :
    (List.range q.length).map (fun j => f (q.getD j 0)) = q.map f :=
  List.ext_getElem (by simp) fun j _ hj => by
    have hj : j < q.length := by simpa using hj
    simp [hj]

/-- The pass `i` of the outer loop of R160. -/
def mulPass (p q r : List Byte) (i : Nat) : List Byte :=
  xorRow (fun j => gfMul (p.getD i 0) (q.getD j 0)) q.length r i

theorem polyMulLoop_eq_foldl_mulPass (p q : List Byte) :
    polyMulLoop p q = (List.range p.length).foldl (mulPass p q) (List.replicate (p.length + q.length - 1) 0) := rfl

theorem mulPass_zero (a : Byte) (p q r : List Byte) : mulPass (a :: p) q r 0 = xorOnto r (polyScale a q) := by
  rw [mulPass, xorRow_zero]
  exact congrArg _ (map_range_getD (gfMul a) q)

theorem mulPass_cons_succ (a h : Byte) (p q r : List Byte) (i : Nat) :
    mulPass (a :: p) q (h :: r) (i + 1) = h :: mulPass p q r i := xorRow_cons_succ _ _ h r i

/-- The outer loop of R160 adds the product onto what stands in `r`. -/
theorem foldl_mulPass (p : List Byte) {q : List Byte} (hq : q ≠ []) {r : List Byte} (hr : p.length ≤ r.length) :
    (List.range p.length).foldl (mulPass p q) r = xorOnto r (polyMul p q) := by
  induction p generalizing r with
  | nil => exact (xorOnto_replicate_zero r _).symm
  | cons a p ih =>
    obtain ⟨h, t, ht⟩ := List.exists_cons_of_length_pos (l := xorOnto r (polyScale a q))
      (by simp only [xorOnto_length]; exact Nat.zero_lt_of_lt hr)
    have htlen : p.length ≤ t.length := by
      have := congrArg List.length ht
      simp only [xorOnto_length, List.length_cons] at this hr
      omega
    have hmul : (0 :: polyMul p q).length ≤ (polyScale a q ++ List.replicate p.length 0#8).length := by
      have hpos := List.length_pos_iff.2 hq
      simp only [List.length_cons, length_polyMul, List.length_append, polyScale_length, List.length_replicate]
      omega
    rw [List.length_cons, List.range_succ_eq_map, List.foldl_cons, mulPass_zero, ht,
      foldl_range_map_succ_cons (mulPass_cons_succ a h p q), ih htlen]
    calc h :: xorOnto t (polyMul p q) = xorOnto (h :: t) (0 :: polyMul p q) := by simp
      _ = xorOnto (xorOnto r (polyScale a q ++ List.replicate p.length 0#8)) (0 :: polyMul p q) := by
          rw [xorOnto_append_replicate_zero, ht]
      _ = xorOnto r (polyMul (a :: p) q) := xorOnto_assoc r hmul

/-- One pass of the outer loop of R161. -/
def remPass (g rem : List Byte) (i : Nat) : List Byte :=
  xorRow (fun j => gfMul (g.getD j 0) (gfDiv (rem.getD i 0) (g.getD 0 0))) g.length rem i

theorem polyRemLoop_eq_foldl_remPass (d g : List Byte) :
    polyRemLoop d g =
      ((List.range (d.length - g.length + 1)).foldl (remPass g) d).drop (d.length - g.length + 1) := rfl

theorem remPass_zero (g rem : List Byte) :
    remPass g rem 0 = xorOnto rem (polyScale (gfDiv (rem.headD 0) (g.headD 0)) g) := by
  rw [remPass, xorRow_zero, List.headD_eq_getD, List.headD_eq_getD, polyScale]
  simp only [gfMul_comm (g.getD _ 0)]
  exact congrArg _ (map_range_getD _ g)

theorem remPass_zero_tail (g rem : List Byte) : (remPass g rem 0).tail = remStep g rem := by rw [remPass_zero]; rfl

theorem remPass_cons_succ (g : List Byte) (h : Byte) (rem : List Byte) (i : Nat) :
    remPass g (h :: rem) (i + 1) = h :: remPass g rem i := xorRow_cons_succ _ _ h rem i

/-- The outer loop of R161 leaves the remaining coefficients of `k` steps behind `k` eliminated ones. -/
theorem drop_foldl_remPass (g : List Byte) {k : Nat} {d : List Byte} (hk : k ≤ d.length) :
    ((List.range k).foldl (remPass g) d).drop k = remSteps g k d := by
  induction k generalizing d with
  | zero => rfl
  | succ k ih =>
    obtain ⟨h, t, ht⟩ := List.exists_cons_of_length_pos (l := remPass g d 0)
      (by rw [remPass_zero, xorOnto_length]; exact Nat.zero_lt_of_lt hk)
    have hstep : t = remStep g d := by rw [← remPass_zero_tail, ht, List.tail_cons]
    have hlen : k ≤ t.length := by
      simp only [hstep, remStep, List.length_tail, xorOnto_length]
      omega
    rw [List.range_succ_eq_map, List.foldl_cons, ht, foldl_range_map_succ_cons (remPass_cons_succ g h),
      List.drop_succ_cons, ih hlen, hstep, remSteps]

/-! ### The remainder (R161, R162) -/

/-- The scale of a step is the only one that eliminates the leading coefficient. -/
theorem xor_gfMul_eq_zero_iff {b : Byte} (hb : b ≠ 0) (x f : Byte) : x ^^^ gfMul b f = 0 ↔ f = gfDiv x b := by
  constructor
  · intro h
    rw [BitVec.xor_eq_zero_iff.1 h, gfMul_comm, gfDiv_gfMul_cancel f hb]
  · rintro rfl
    rw [gfMul_comm, gfMul_gfDiv_cancel x hb, BitVec.xor_self]
    rfl

theorem gfDiv_linear_left {b : Byte} (hb : b ≠ 0) : XorLinear (gfDiv · b) := fun x y => by
  have hsum : gfMul (gfDiv x b ^^^ gfDiv y b) b = x ^^^ y :=
    (gfMul_linear_left b _ _).trans (congrArg₂ _ (gfMul_gfDiv_cancel x hb) (gfMul_gfDiv_cancel y hb))
  exact hsum ▸ gfDiv_gfMul_cancel (gfDiv x b ^^^ gfDiv y b) hb

/-- A step eliminates the leading coefficient and keeps what `remStep` moves on to. -/
theorem xorOnto_polyScale_eq_cons_remStep {d g : List Byte} (hd : d ≠ []) (hg : g.headD 0 ≠ 0) :
    xorOnto d (polyScale (gfDiv (d.headD 0) (g.headD 0)) g) = 0#8 :: remStep g d := by
  obtain ⟨x, d, rfl⟩ := List.exists_cons_of_ne_nil hd
  cases g with
  | nil => exact absurd rfl hg
  | cons b g =>
    have hx : x ^^^ gfMul (gfDiv x b) b = 0#8 := by rw [gfMul_gfDiv_cancel x (b := b) hg, BitVec.xor_self]
    simp [remStep, polyScale, hx]

/-- After `k` steps the dividend is a quotient of `k` bytes times the divisor, plus what remains. -/
theorem exists_quotient_remSteps {g : List Byte} (hg : g.headD 0 ≠ 0) {k : Nat} {d : List Byte}
    (hd : d.length + 1 = g.length + k) :
    ∃ quo : List Byte, quo.length = k ∧ d = xorOnto (polyMul quo g) (List.replicate k 0#8 ++ remSteps g k d) := by
  induction k generalizing d with
  | zero =>
    refine ⟨[], rfl, ?_⟩
    have hlen : (List.replicate (g.length - 1) 0#8).length = d.length := by rw [List.length_replicate]; omega
    exact (xorOnto_comm hlen).trans (xorOnto_replicate_zero d _) |>.symm
  | succ k ih =>
    have hg0 : g ≠ [] := by rintro rfl; exact hg rfl
    have hgpos := List.length_pos_iff.2 hg0
    have hd0 : d ≠ [] := List.length_pos_iff.1 (by omega)
    have hstep := xorOnto_polyScale_eq_cons_remStep hd0 hg
    have hdlen : d.length = (remStep g d).length + 1 := by simpa using congrArg List.length hstep
    obtain ⟨quo, hquo, hrest⟩ := ih (d := remStep g d) (by omega)
    set row := polyScale (gfDiv (d.headD 0) (g.headD 0)) g with hrow
    refine ⟨gfDiv (d.headD 0) (g.headD 0) :: quo, congrArg (· + 1) hquo, Eq.symm ?_⟩
    calc xorOnto (xorOnto (row ++ List.replicate quo.length 0#8) (0#8 :: polyMul quo g))
          (0#8 :: (List.replicate k 0#8 ++ remSteps g k (remStep g d)))
        = xorOnto (row ++ List.replicate quo.length 0#8) (0#8 :: remStep g d) := by
          rw [xorOnto_assoc, cons_xorOnto_cons, ← hrest, BitVec.xor_self]
          simp only [List.length_cons, List.length_append, List.length_replicate, remSteps_length, length_polyMul]
          omega
      _ = xorOnto (0#8 :: remStep g d) row := by
          rw [xorOnto_comm, xorOnto_append_replicate_zero]
          simp only [hrow, List.length_cons, List.length_append, List.length_replicate, polyScale_length]
          omega
      _ = d := by rw [← hstep, xorOnto_xorOnto_cancel]

/-- A step is linear. -/
theorem remStep_xorOnto {d e g : List Byte} (hde : d.length = e.length) (hg : g.headD 0 ≠ 0) :
    remStep g (xorOnto d e) = xorOnto (remStep g d) (remStep g e) := by
  have hscale : gfDiv ((xorOnto d e).headD 0) (g.headD 0) =
      gfDiv (d.headD 0) (g.headD 0) ^^^ gfDiv (e.headD 0) (g.headD 0) := by
    rw [xorOnto_headD hde.ge]
    exact gfDiv_linear_left hg _ _
  rw [remStep, remStep, remStep, ← xorOnto_tail, hscale, polyScale_xor, xorOnto_xorOnto_xorOnto_comm hde (by simp)]

theorem remSteps_xorOnto {g : List Byte} (hg : g.headD 0 ≠ 0) (k : Nat) {d e : List Byte}
    (hde : d.length = e.length) : remSteps g k (xorOnto d e) = xorOnto (remSteps g k d) (remSteps g k e) := by
  induction k generalizing d e with
  | zero => rfl
  | succ k ih =>
    rw [remSteps, remStep_xorOnto hde hg, ih (by simp [remStep, hde])]
    rfl

/-! ### What PMUL and PREM answer on a block that is not FAULTED (R163, R164) -/

section
variable {s : State}

theorem rangeIllegal_iff {a n : Nat} : rangeIllegal a n = true ↔ a + n > 4096 := decide_eq_true_iff

/-- The two range checks of PMUL and PREM, for a result of `n` bytes (R33). -/
theorem binary_ranges_of_outside {n : Nat} (body : Result)
    (h : s.sa.toNat + s.la.toNat > 4096 ∨ s.sb.toNat + s.lb.toNat > 4096 ∨ s.da.toNat + n > 4096) :
    (if sourceAIllegal s ∨ sourceBIllegal s then raise .addressRange s
     else if destIllegal s n then raise .addressRange s else body) = .next (refusedWith s 0x07) := by
  have hraise : raise .addressRange s = .next (refusedWith s 0x07) := raise_eq (by decide) s
  by_cases hsrc : sourceAIllegal s ∨ sourceBIllegal s
  · rw [if_pos hsrc, hraise]
  · rw [if_neg hsrc, if_pos, hraise]
    simp only [sourceAIllegal, sourceBIllegal, destIllegal, rangeIllegal_iff] at hsrc ⊢
    omega

theorem binary_ranges_of_inside {n : Nat} (body : Result)
    (ha : s.sa.toNat + s.la.toNat ≤ 4096) (hb : s.sb.toNat + s.lb.toNat ≤ 4096) (hd : s.da.toNat + n ≤ 4096) :
    (if sourceAIllegal s ∨ sourceBIllegal s then raise .addressRange s
     else if destIllegal s n then raise .addressRange s else body) = body := by
  rw [if_neg, if_neg]
  all_goals
    simp only [sourceAIllegal, sourceBIllegal, destIllegal, rangeIllegal_iff]
    omega

variable (hf : s.running)
include hf

theorem exec_pmul_of_empty (h : s.la = 0 ∨ s.lb = 0) : exec .pmul s = .next (refusedWith s 0x06) :=
  (command_running hf _).trans ((if_pos h).trans (raise_eq (by decide) s))

theorem exec_pmul_of_outside (hla : s.la ≠ 0) (hlb : s.lb ≠ 0)
    (h : s.sa.toNat + s.la.toNat > 4096 ∨ s.sb.toNat + s.lb.toNat > 4096 ∨
      s.da.toNat + (s.la.toNat + s.lb.toNat - 1) > 4096) : exec .pmul s = .next (refusedWith s 0x07) :=
  (command_running hf _).trans ((if_neg (not_or.2 ⟨hla, hlb⟩)).trans (binary_ranges_of_outside _ h))

theorem exec_pmul_of_inside (hla : s.la ≠ 0) (hlb : s.lb ≠ 0) (ha : s.sa.toNat + s.la.toNat ≤ 4096)
    (hb : s.sb.toNat + s.lb.toNat ≤ 4096) (hd : s.da.toNat + (s.la.toNat + s.lb.toNat - 1) ≤ 4096) :
    exec .pmul s = respondPoly (polyMul (sourceA s) (sourceB s)) s :=
  (command_running hf _).trans ((if_neg (not_or.2 ⟨hla, hlb⟩)).trans (binary_ranges_of_inside _ ha hb hd))

theorem exec_prem_of_badLength (h : s.la = 0 ∨ s.lb = 0 ∨ s.la < s.lb) :
    exec .prem s = .next (refusedWith s 0x06) :=
  (command_running hf _).trans ((if_pos h).trans (raise_eq (by decide) s))

variable (hlb : s.lb ≠ 0) (hle : s.lb.toNat ≤ s.la.toNat)
include hlb hle

/-- The body of PREM past the length check. -/
theorem exec_prem_of_length : exec .prem s =
    if sourceAIllegal s ∨ sourceBIllegal s then raise .addressRange s
    else if destIllegal s (s.lb.toNat - 1) then raise .addressRange s
    else if cwByte s s.sb.toNat = 0 then fatalDivideByZero s
    else respondPoly (polyRem (sourceA s) (sourceB s)) s := by
  have hlen : ¬ (s.la = 0 ∨ s.lb = 0 ∨ s.la < s.lb) := by
    rintro (h | h | h)
    · exact hlb (BitVec.eq_of_toNat_eq (by simpa [h] using hle))
    · exact hlb h
    · exact Nat.not_lt.2 hle h
  exact (command_running hf _).trans (if_neg hlen)

theorem exec_prem_of_outside
    (h : s.sa.toNat + s.la.toNat > 4096 ∨ s.sb.toNat + s.lb.toNat > 4096 ∨ s.da.toNat + (s.lb.toNat - 1) > 4096) :
    exec .prem s = .next (refusedWith s 0x07) :=
  (exec_prem_of_length hf hlb hle).trans (binary_ranges_of_outside _ h)

variable (ha : s.sa.toNat + s.la.toNat ≤ 4096) (hb : s.sb.toNat + s.lb.toNat ≤ 4096)
  (hd : s.da.toNat + (s.lb.toNat - 1) ≤ 4096)
include ha hb hd

theorem exec_prem_of_zero_divisor (h : cwByte s s.sb.toNat = 0) : exec .prem s = .next (fatalAfter s) :=
  (exec_prem_of_length hf hlb hle).trans
    ((binary_ranges_of_inside _ ha hb hd).trans ((if_pos h).trans (fatalDivideByZero_eq s)))

theorem exec_prem_of_inside (h : cwByte s s.sb.toNat ≠ 0) :
    exec .prem s = respondPoly (polyRem (sourceA s) (sourceB s)) s :=
  (exec_prem_of_length hf hlb hle).trans ((binary_ranges_of_inside _ ha hb hd).trans (if_neg h))

end

/-! ### The obligations -/

/-- Settles O29: the outer loop adds the product onto a sequence of zeros, and the row of products by one more
coefficient has the same form in either operand. -/
theorem polyMulIsTheConvolution : Obligations.PolyMulIsTheConvolution := by
  intro p q hp hq
  refine ⟨?_, polyMul_length q hp, ?_, polyMul_comm p q⟩
  · have hpos := List.length_pos_iff.2 hq
    have hzeros : (polyMul p q).length = (List.replicate (p.length + q.length - 1) (0 : Byte)).length := by simp
    rw [polyMulLoop_eq_foldl_mulPass, foldl_mulPass p hq (by rw [List.length_replicate]; omega),
      ← xorOnto_comm hzeros]
    exact (xorOnto_replicate_zero _ _).symm
  · obtain ⟨a, p, rfl⟩ := List.exists_cons_of_ne_nil hp
    obtain ⟨b, q, rfl⟩ := List.exists_cons_of_ne_nil hq
    exact polyMul_head a b p q

/-- Settles O30: each pass of the outer loop is one step, past the coefficient it eliminates. -/
theorem polyRemIsSyntheticDivision : Obligations.PolyRemIsSyntheticDivision := by
  intro d g hg hd hg0
  refine ⟨?_, polyRem_length hg hd, xor_gfMul_eq_zero_iff hg0, fun hmonic x => hmonic ▸ gfDiv_one x, fun b => ?_⟩
  · rw [polyRemLoop_eq_foldl_remPass, drop_foldl_remPass g (by omega), polyRem]
  · exact (congrArg (gfMul b) (zero_gfDiv _)).trans (gfMul_zero b)

/-- Settles O31: the scales of the steps are the quotient. -/
theorem polyRemIsTheRemainder : Obligations.PolyRemIsTheRemainder := by
  intro d g hg hd hg0
  obtain ⟨quo, hquo, hdiv⟩ := exists_quotient_remSteps (k := d.length - g.length + 1) (d := d) hg0 (by omega)
  refine ⟨quo, hquo, ?_⟩
  rw [xorSeq_eq_xorOnto]
  · exact hdiv
  · rw [length_polyMul, List.length_append, List.length_replicate, polyRem_length hg hd, hquo]
    omega

/-- Settles O32: the scale of a step is linear in the leading coefficient, so every step is linear. -/
theorem polyRemIsLinear : Obligations.PolyRemIsLinear := by
  intro d e g hg hd hde hg0
  have hrem : (polyRem d g).length = (polyRem e g).length := by
    rw [polyRem_length hg hd, polyRem_length hg (hde ▸ hd)]
  rw [xorSeq_eq_xorOnto hde, xorSeq_eq_xorOnto hrem, polyRem, polyRem, polyRem, xorOnto_length, ← hde]
  exact remSteps_xorOnto hg0 _ hde

/-- Settles O35: the checks in order, then the end of a polynomial command with the product. -/
theorem pmulResult : Obligations.PmulResult := by
  intro s hf
  refine ⟨rfl, exec_pmul_of_empty hf, fun hla hlb => ⟨exec_pmul_of_outside hf hla hlb, fun ha hb hd => ?_⟩⟩
  obtain ⟨t, ht, hstored⟩ := respondPoly_stored (polyMul (sourceA s) (sourceB s)) s
  refine ⟨t, (exec_pmul_of_inside hf hla hlb ha hb hd).trans ht, ?_, hstored⟩
  simp only [length_polyMul, cwRead_length]

/-- Settles O36: the checks in order, the zero divisor last of them, then the end of a polynomial command with the
remainder. -/
theorem premResult : Obligations.PremResult := by
  intro s hf
  refine ⟨rfl, fun h => exec_prem_of_badLength hf h, fun hlb hle => ⟨exec_prem_of_outside hf hlb hle,
    fun ha hb hd => ⟨exec_prem_of_zero_divisor hf hlb hle ha hb hd, fun h0 => ?_⟩⟩⟩
  obtain ⟨t, ht, hstored⟩ := respondPoly_stored (polyRem (sourceA s) (sourceB s)) s
  refine ⟨t, (exec_prem_of_inside hf hlb hle ha hb hd h0).trans ht, ?_, hstored⟩
  have hpos : 1 ≤ s.lb.toNat := Nat.one_le_iff_ne_zero.2 fun h => hlb (BitVec.eq_of_toNat_eq h)
  rw [polyRem_length (by rwa [cwRead_length]) (by rwa [cwRead_length, cwRead_length]), cwRead_length]

end Sys2Proof.Machine
end

section
/-! PROOFS of the generator polynomial and the error-correction codewords (R180 to R184): the coefficients at the two
ends of the generator, the codewords as the remainder that completes a multiple, and the results of GENP and ECGEN. -/

namespace Sys2Proof.Machine

/-! ### Sums of sequences, at their low-order ends and with zeros (R151) -/

theorem xorOnto_append {x x' : List Byte} (h : x.length = x'.length) (y y' : List Byte) :
    xorOnto (x ++ y) (x' ++ y') = xorOnto x x' ++ xorOnto y y' := by
  induction x generalizing x' with
  | nil => simp [List.eq_nil_of_length_eq_zero h.symm]
  | cons a x ih =>
    obtain ⟨b, x', rfl⟩ := List.exists_cons_of_length_eq_add_one h.symm
    exact congrArg _ (ih (Nat.succ.inj h))

theorem xorOnto_self (x : List Byte) : xorOnto x x = List.replicate x.length 0#8 := by
  induction x with
  | nil => rfl
  | cons a x ih => simp [ih, List.replicate_succ]

theorem replicate_zero_xorOnto {n : Nat} {x : List Byte} (h : x.length = n) :
    xorOnto (List.replicate n 0#8) x = x := by
  rw [xorOnto_comm (by simp [h]), xorOnto_replicate_zero]

@[simp] theorem polyScale_zero (q : List Byte) : polyScale 0#8 q = List.replicate q.length 0#8 := by
  simp [polyScale, List.map_const']

theorem polyScale_one (q : List Byte) : polyScale 1 q = q :=
  (List.map_congr_left fun b _ => (gfMul_comm 1 b).trans (gfMul_one b)).trans (List.map_id q)

/-! ### The generator polynomial (R180, R184) -/

/-- A constant is a polynomial of one coefficient. -/
theorem polyMul_singleton (a : Byte) (q : List Byte) : polyMul [a] q = polyScale a q := by
  have hzero : xorOnto (polyScale a q) (0#8 :: List.replicate (q.length - 1) 0#8) = polyScale a q :=
    xorOnto_replicate_zero _ (q.length - 1 + 1)
  simpa [polyMul] using hzero

/-- One factor more: the generator moved up by one position, plus `EXP[n]` times itself. -/
theorem genPoly_succ (n : Nat) :
    genPoly (n + 1) = xorOnto (genPoly n ++ [0#8]) (0#8 :: polyScale (expMod n) (genPoly n)) := by
  rw [genPoly, polyMul_comm, polyMul, polyMul_singleton, polyScale_one]
  rfl

theorem genPoly_head (n : Nat) : (genPoly n).head? = some 1 := by
  induction n with
  | zero => rfl
  | succ n ih =>
    obtain ⟨rest, hrest⟩ := List.head?_eq_some_iff.1 ih
    rw [genPoly_succ, hrest]
    rfl

theorem genPoly_headD (n : Nat) : (genPoly n).headD 0 = 1 := by rw [List.headD_eq_head?_getD, genPoly_head]; rfl

/-- Each factor multiplies the last coefficient by its own, so the exponents add up (R184 item (c)). -/
theorem genPoly_getLast (n : Nat) : (genPoly n).getLast? = some (expMod (n * (n - 1) / 2)) := by
  induction n with
  | zero => rfl
  | succ n ih =>
    obtain ⟨high, hhigh⟩ := List.getLast?_eq_some_iff.1 ih
    have hsplit : 0#8 :: polyScale (expMod n) (genPoly n) =
        (0#8 :: polyScale (expMod n) high) ++ [expMod (n * (n - 1) / 2 + n)] := by
      rw [hhigh, Nat.add_comm, ← gfMul_expMod]
      simp [polyScale]
    rw [genPoly_succ, hsplit, xorOnto_append (by simp [hhigh]), Nat.triangle_succ]
    simp

/-! ### The error-correction codewords (R181, R162) -/

/-- A leading coefficient that is 0 is passed over (R162). -/
theorem remStep_zero_cons (g d : List Byte) : remStep g (0#8 :: d) = d := by simp [remStep]

theorem remSteps_replicate_zero_append (g : List Byte) (k : Nat) (d : List Byte) :
    remSteps g k (List.replicate k 0#8 ++ d) = d := by
  induction k with
  | zero => rfl
  | succ k ih => rw [List.replicate_succ, List.cons_append, remSteps, remStep_zero_cons, ih]

/-- Data followed by its remainder leaves no remainder. -/
theorem remSteps_append_remSteps {g data : List Byte} (hg : g.headD 0 ≠ 0) (n : Nat) :
    remSteps g data.length (data ++ remSteps g data.length (data ++ List.replicate n 0#8)) = List.replicate n 0#8 := by
  set rest := remSteps g data.length (data ++ List.replicate n 0#8) with hrest
  have hlen : rest.length = n := by simp [hrest, remSteps_length]
  have hsum : data ++ rest =
      xorOnto (data ++ List.replicate n 0#8) (List.replicate data.length 0#8 ++ rest) := by
    rw [xorOnto_append (by simp), xorOnto_replicate_zero, replicate_zero_xorOnto hlen]
  rw [hsum, remSteps_xorOnto hg _ (by simp [hlen]), remSteps_replicate_zero_append, ← hrest, xorOnto_self, hlen]

/-- Division by the generator of degree `n` eliminates every coefficient but the last `n`. -/
theorem polyRem_append_genPoly {data low : List Byte} {n : Nat} (hd : 1 ≤ data.length) (hlow : low.length = n) :
    polyRem (data ++ low) (genPoly n) = remSteps (genPoly n) data.length (data ++ low) := by
  have hsteps : (data ++ low).length - (genPoly n).length + 1 = data.length := by
    rw [List.length_append, genPoly_length]
    omega
  rw [polyRem, hsteps]

/-! ### What GENP and ECGEN answer on a block that is not FAULTED (R182, R183) -/

section
variable {s : State} {n : Half}

/-- The length check of ECGEN, with no subtraction to cut off at 0. -/
theorem ecgen_badLength_iff :
    (s.la = 0 ∨ n < s.la ∨ n.toNat - s.la.toNat > Config.genMaxDegree ∨ n.toNat > Config.cwBytes) ↔
      s.la = 0 ∨ n.toNat < s.la.toNat ∨ n.toNat > s.la.toNat + 255 ∨ n.toNat > 4096 := by
  simp only [BitVec.lt_def, Config.genMaxDegree, Config.cwBytes]
  refine or_congr_right ?_
  omega

variable (hf : s.running)
include hf

theorem exec_genp_of_degree (hn : n.toNat > 255) : exec (.genp n) s = .next (refusedWith s 0x06) :=
  (command_running hf _).trans ((if_pos hn).trans (raise_eq (by decide) s))

theorem exec_genp_of_outside (hn : n.toNat ≤ 255) (hd : s.da.toNat + (n.toNat + 1) > 4096) :
    exec (.genp n) s = .next (refusedWith s 0x07) :=
  (command_running hf _).trans ((if_neg (Nat.not_lt.2 hn)).trans
    ((if_pos (rangeIllegal_iff.2 hd)).trans (raise_eq (by decide) s)))

theorem exec_genp_of_inside (hn : n.toNat ≤ 255) (hd : s.da.toNat + (n.toNat + 1) ≤ 4096) :
    exec (.genp n) s = respondPoly (genPoly n.toNat) s :=
  (command_running hf _).trans ((if_neg (Nat.not_lt.2 hn)).trans
    (if_neg (rangeIllegal_iff.not.2 (Nat.not_lt.2 hd))))

theorem exec_ecgen_of_badLength
    (h : s.la = 0 ∨ n.toNat < s.la.toNat ∨ n.toNat > s.la.toNat + 255 ∨ n.toNat > 4096) :
    exec (.ecgen n) s = .next (refusedWith s 0x06) :=
  (command_running hf _).trans ((if_pos (ecgen_badLength_iff.2 h)).trans (raise_eq (by decide) s))

variable (hla : s.la ≠ 0) (hle : s.la.toNat ≤ n.toNat) (hec : n.toNat ≤ s.la.toNat + 255) (hn : n.toNat ≤ 4096)
include hla hle hec hn

/-- The body of ECGEN past the length check. -/
theorem exec_ecgen_of_length : exec (.ecgen n) s =
    if sourceAIllegal s then raise .addressRange s
    else if destIllegal s (n.toNat - s.la.toNat) then raise .addressRange s
    else respondPoly (ecCodewords (sourceA s) n.toNat) s :=
  (command_running hf _).trans (if_neg (ecgen_badLength_iff.not.2 (not_or.2 ⟨hla, by omega⟩)))

theorem exec_ecgen_of_outside
    (h : s.sa.toNat + s.la.toNat > 4096 ∨ s.da.toNat + (n.toNat - s.la.toNat) > 4096) :
    exec (.ecgen n) s = .next (refusedWith s 0x07) := by
  have hraise : raise .addressRange s = .next (refusedWith s 0x07) := raise_eq (by decide) s
  rw [exec_ecgen_of_length hf hla hle hec hn, hraise]
  by_cases hsrc : sourceAIllegal s
  · exact if_pos hsrc
  · have hdest := h.resolve_left fun ha => hsrc (rangeIllegal_iff.2 ha)
    exact (if_neg hsrc).trans (if_pos (rangeIllegal_iff.2 hdest))

theorem exec_ecgen_of_inside (ha : s.sa.toNat + s.la.toNat ≤ 4096)
    (hd : s.da.toNat + (n.toNat - s.la.toNat) ≤ 4096) :
    exec (.ecgen n) s = respondPoly (ecCodewords (sourceA s) n.toNat) s :=
  (exec_ecgen_of_length hf hla hle hec hn).trans ((if_neg (rangeIllegal_iff.not.2 (Nat.not_lt.2 ha))).trans
    (if_neg (rangeIllegal_iff.not.2 (Nat.not_lt.2 hd))))

end

/-! ### The obligations -/

/-- Settles O33: each factor keeps the leading coefficient and multiplies the last one by a power of 2, which is never
0. -/
theorem genPolyIsMonic : Obligations.GenPolyIsMonic := by
  intro n _
  refine ⟨genPoly_head n, genPoly_length n, genPoly_getLast n, ?_⟩
  rw [genPoly_getLast]
  exact fun h => expMod_ne_zero _ (Option.some.inj h)

/-- Settles O34: the codewords are the remainder of the padded data, and what is added twice is gone. -/
theorem ecCodewordsMakeAMultiple : Obligations.EcCodewordsMakeAMultiple := by
  intro data total hdata _ _
  have hmonic : (genPoly (total - data.length)).headD 0 ≠ 0 := by rw [genPoly_headD]; decide
  refine ⟨ecCodewords_length hdata, ?_⟩
  rw [polyRem_append_genPoly hdata (ecCodewords_length hdata), ecCodewords,
    polyRem_append_genPoly hdata List.length_replicate]
  exact remSteps_append_remSteps hmonic _

/-- Settles O37: the checks in order, then the end of a polynomial command with the generator. -/
theorem genpResult : Obligations.GenpResult := by
  intro n s hf
  refine ⟨decode_of_encode_eq (encodeX_eq_append 0x22 n), exec_genp_of_degree hf,
    fun hn => ⟨exec_genp_of_outside hf hn, fun hd => ?_⟩⟩
  obtain ⟨t, ht, hstored⟩ := respondPoly_stored (genPoly n.toNat) s
  exact ⟨t, (exec_genp_of_inside hf hn hd).trans ht, genPoly_length _, hstored⟩

/-- Settles O38: the checks in order, none of them fatal, then the end of a polynomial command with the codewords. -/
theorem ecgenResult : Obligations.EcgenResult := by
  intro n s hf
  refine ⟨decode_of_encode_eq (encodeX_eq_append 0x23 n), exec_ecgen_of_badLength hf,
    fun hla hle hec hn => ⟨exec_ecgen_of_outside hf hla hle hec hn, fun ha hd => ?_⟩⟩
  obtain ⟨t, ht, hstored⟩ := respondPoly_stored (ecCodewords (sourceA s) n.toNat) s
  refine ⟨t, (exec_ecgen_of_inside hf hla hle hec hn ha hd).trans ht, ?_, hstored⟩
  have hpos : 1 ≤ s.la.toNat := Nat.one_le_iff_ne_zero.2 fun h => hla (BitVec.eq_of_toNat_eq h)
  rw [ecCodewords_length (by rwa [cwRead_length]), cwRead_length]

end Sys2Proof.Machine
end

section
/-! PROOFS of the placement sequencer (R200 to R207): the loop as the column pairs of the closed form, the cells the
pairs visit, and the results of RSVCLR, RSVWR, RSVRD, SEQGEN, SEQRD. -/

namespace Sys2Proof.Machine

/-! ### The loop runs through the column pairs of the closed form (R201, R202) -/

/-- The argument `next` of the loop before pair number `p`: one more than the pair's right-hand column, counted as if
the timing column could be one. -/
def pairNext (side p : Nat) : Nat := if p ≤ (side - 7) / 2 then side - 2 * p else side - 1 - 2 * p

theorem pairNext_zero (side : Nat) : pairNext side 0 = side := rfl

theorem pairRight_sub_one {side : Nat} (hodd : side % 2 = 1) (p : Nat) :
    pairRight side p - 1 = pairNext side (p + 1) := by
  unfold pairNext pairRight
  split_ifs <;> omega

section
variable {side : Nat} (hodd : side % 2 = 1) (hside : 21 ≤ side)
include hodd hside

theorem pairNext_ne_zero {p : Nat} (hp : p < (side - 1) / 2) : pairNext side p ≠ 0 := by
  unfold pairNext
  split <;> omega

theorem pairNext_last : pairNext side ((side - 1) / 2) = 0 := by
  unfold pairNext
  split <;> omega

theorem pairRightOf_pairNext (p : Nat) : pairRightOf (pairNext side p) = pairRight side p := by
  unfold pairRightOf pairNext pairRight Config.timingCol
  split_ifs <;> omega

/-- From pair number `p` on, with fuel for the `n` pairs that are left, the loop gives these pairs. -/
theorem pairScan_pairNext (rsv : Coord → Bool) {n p fuel : Nat} (hn : p + n = (side - 1) / 2) (hfuel : n ≤ fuel) :
    pairScan side rsv fuel (pairNext side p) (p % 2 == 0) =
      (List.range' p n).flatMap fun q => pairCells side rsv (pairRight side q) (q % 2 == 0) := by
  induction n generalizing p fuel with
  | zero =>
    obtain rfl : p = (side - 1) / 2 := hn
    rw [pairNext_last hodd hside]
    cases fuel <;> rfl
  | succ n ih =>
    obtain ⟨fuel, rfl⟩ : ∃ f, fuel = f + 1 := ⟨fuel - 1, by omega⟩
    have hp : p < (side - 1) / 2 := by omega
    have hdir : (!(p % 2 == 0)) = ((p + 1) % 2 == 0) := by
      rw [Bool.eq_iff_iff]
      simp only [Bool.not_eq_true', beq_eq_false_iff_ne, beq_iff_eq]
      omega
    rw [pairScan, if_neg (pairNext_ne_zero hodd hside hp), pairRightOf_pairNext hodd hside,
      pairRight_sub_one hodd, hdir, ih (by omega) (by omega), List.range'_succ, List.flatMap_cons]

theorem placementSequence_eq_byPairs (rsv : Coord → Bool) : placementSequence side rsv = placementByPairs side rsv := by
  have h := pairScan_pairNext hodd hside rsv (Nat.zero_add ((side - 1) / 2)) (fuel := side) (by omega)
  rwa [pairNext_zero, ← List.range_eq_range'] at h

end

/-! ### A reserved map only drops cells (R201) -/

/-- The map without a reserved cell. -/
def noReserved : Coord → Bool := fun _ => false

theorem pairCells_eq_filter (side : Nat) (rsv : Coord → Bool) (right : Nat) (up : Bool) :
    pairCells side rsv right up = (pairCells side noReserved right up).filter fun c => !rsv c := by
  rw [pairCells, pairCells, List.filter_flatMap]
  rfl

theorem placementByPairs_eq_filter (side : Nat) (rsv : Coord → Bool) :
    placementByPairs side rsv = (placementByPairs side noReserved).filter fun c => !rsv c := by
  rw [placementByPairs, placementByPairs, List.filter_flatMap]
  exact List.flatMap_congr fun p _ => pairCells_eq_filter side rsv _ _

/-! ### The cells of one pair on a free map (R201, R202) -/

/-- The row of step `k` of a pair (R201). -/
def pairRowAt (side : Nat) (up : Bool) (k : Nat) : Nat := if up = true then side - 1 - k else k

theorem pairCells_noReserved (side right : Nat) (up : Bool) :
    pairCells side noReserved right up =
      (List.range side).flatMap fun k => [⟨pairRowAt side up k, right⟩, ⟨pairRowAt side up k, right - 1⟩] := rfl

theorem pairRowAt_lt {side k : Nat} (up : Bool) (hk : k < side) : pairRowAt side up k < side := by
  unfold pairRowAt
  split <;> omega

/-- In either direction, the step of a row is found as the row of a step is. -/
theorem pairRowAt_pairRowAt {side k : Nat} (up : Bool) (hk : k < side) :
    pairRowAt side up (pairRowAt side up k) = k := by
  unfold pairRowAt
  split <;> omega

/-- With two entries for each element, the entries of element `k` stand at `2 * k` and `2 * k + 1`. -/
theorem getElem?_flatMap_two {α β : Type} (f g : α → β) (l : List α) (k : Nat) :
    (l.flatMap fun a => [f a, g a])[2 * k]? = l[k]?.map f ∧
      (l.flatMap fun a => [f a, g a])[2 * k + 1]? = l[k]?.map g := by
  induction l generalizing k with
  | nil => exact ⟨rfl, rfl⟩
  | cons a l ih =>
    cases k with
    | zero => exact ⟨rfl, rfl⟩
    | succ k => exact ih k

theorem pairCells_noReserved_getElem? {side k : Nat} (right : Nat) (up : Bool) (hk : k < side) :
    (pairCells side noReserved right up)[2 * k]? = some ⟨pairRowAt side up k, right⟩ ∧
      (pairCells side noReserved right up)[2 * k + 1]? = some ⟨pairRowAt side up k, right - 1⟩ := by
  have h := getElem?_flatMap_two (fun k => Coord.mk (pairRowAt side up k) right)
    (fun k => Coord.mk (pairRowAt side up k) (right - 1)) (List.range side) k
  rwa [← pairCells_noReserved, List.getElem?_range hk] at h

theorem mem_pairCells_noReserved {side right : Nat} {up : Bool} {c : Coord} :
    c ∈ pairCells side noReserved right up ↔ c.row < side ∧ (c.col = right ∨ c.col = right - 1) := by
  obtain ⟨row, col⟩ := c
  simp only [pairCells_noReserved, List.mem_flatMap, List.mem_range, List.mem_cons, List.not_mem_nil, or_false,
    Coord.mk.injEq, ← and_or_left]
  constructor
  · rintro ⟨k, hk, rfl, hcol⟩
    exact ⟨pairRowAt_lt up hk, hcol⟩
  · rintro ⟨hrow, hcol⟩
    exact ⟨pairRowAt side up row, pairRowAt_lt up hrow, (pairRowAt_pairRowAt up hrow).symm, hcol⟩

theorem length_pairCells_noReserved (side right : Nat) (up : Bool) :
    (pairCells side noReserved right up).length = 2 * side := by
  rw [pairCells_noReserved, List.length_flatMap]
  simp [Nat.mul_comm]

/-- The two cells of a row lie in different columns, and each row comes once. -/
theorem nodup_pairCells_noReserved (side : Nat) {right : Nat} (hright : 1 ≤ right) (up : Bool) :
    (pairCells side noReserved right up).Nodup := by
  rw [pairCells_noReserved, List.nodup_flatMap]
  refine ⟨fun k _ => ?_, List.nodup_range.pairwise_of_forall_ne fun i hi j hj hij => ?_⟩
  · simp only [List.nodup_cons, List.mem_singleton, Coord.mk.injEq, List.not_mem_nil, not_false_eq_true,
      List.nodup_nil, and_true]
    omega
  · have hrow : pairRowAt side up i ≠ pairRowAt side up j := fun h => hij <| by
      rw [← pairRowAt_pairRowAt up (List.mem_range.1 hi), h, pairRowAt_pairRowAt up (List.mem_range.1 hj)]
    simp [Function.onFun, List.disjoint_left, hrow]

/-! ### The columns of the pairs (R200, R202) -/

section
variable {side : Nat} (hodd : side % 2 = 1) (hside : 21 ≤ side)
include hodd hside

theorem pairRight_pos {p : Nat} (hp : p < (side - 1) / 2) : 1 ≤ pairRight side p := by
  unfold pairRight
  split <;> omega

/-- The pairs lie apart, each to the left of those before it. -/
theorem pairRight_add_two_le {p q : Nat} (hpq : p < q) (hq : q < (side - 1) / 2) :
    pairRight side q + 2 ≤ pairRight side p := by
  unfold pairRight
  split_ifs <;> omega

/-- The columns of the pairs are all columns but the timing column. -/
theorem exists_pair_of_col {col : Nat} :
    (∃ p < (side - 1) / 2, col = pairRight side p ∨ col = pairRight side p - 1) ↔ col < side ∧ col ≠ 6 := by
  unfold pairRight
  constructor
  · rintro ⟨p, hp, hcol⟩
    split at hcol <;> omega
  · rintro ⟨hlt, hne⟩
    by_cases hleft : col < 6
    · refine ⟨(side - 2 - col) / 2, by omega, ?_⟩
      rw [if_neg (by omega)]
      omega
    · refine ⟨(side - 1 - col) / 2, by omega, ?_⟩
      rw [if_pos (by omega)]
      omega

/-! ### The whole sequence on a free map (R202) -/

theorem mem_placementByPairs_noReserved {c : Coord} :
    c ∈ placementByPairs side noReserved ↔ c.row < side ∧ c.col < side ∧ c.col ≠ 6 := by
  rw [← exists_pair_of_col hodd hside]
  simp only [placementByPairs, List.mem_flatMap, List.mem_range, mem_pairCells_noReserved]
  constructor
  · rintro ⟨p, hp, hrow, hcol⟩
    exact ⟨hrow, p, hp, hcol⟩
  · rintro ⟨hrow, p, hp, hcol⟩
    exact ⟨p, hp, hrow, hcol⟩

theorem nodup_placementByPairs_noReserved : (placementByPairs side noReserved).Nodup := by
  rw [placementByPairs, List.nodup_flatMap]
  refine ⟨fun p hp => nodup_pairCells_noReserved side (pairRight_pos hodd hside (List.mem_range.1 hp)) _,
    List.pairwise_lt_range.imp_of_mem fun {p q} hp hq hpq c hcp hcq => ?_⟩
  obtain ⟨-, hcp⟩ := mem_pairCells_noReserved.1 hcp
  obtain ⟨-, hcq⟩ := mem_pairCells_noReserved.1 hcq
  have hapart := pairRight_add_two_le hodd hside hpq (List.mem_range.1 hq)
  omega

end

theorem length_placementByPairs_noReserved {side : Nat} (hodd : side % 2 = 1) :
    (placementByPairs side noReserved).length = side * (side - 1) := by
  obtain ⟨m, rfl⟩ : ∃ m, side = 2 * m + 1 := ⟨side / 2, by omega⟩
  simp only [placementByPairs, List.length_flatMap, length_pairCells_noReserved, List.map_const', List.sum_replicate,
    List.length_range, smul_eq_mul, Nat.add_sub_cancel, Nat.mul_div_cancel_left m two_pos]
  ring

/-! ### The first entries (R202) -/

theorem exists_placementSequence_eq_append {side : Nat} (hside : 21 ≤ side) (rsv : Coord → Bool) :
    ∃ rest, placementSequence side rsv =
      pairRow rsv (side - 1) (side - 1) ++ (pairRow rsv (side - 1) (side - 2) ++ rest) := by
  obtain ⟨n, rfl⟩ : ∃ n, side = n + 2 := ⟨side - 2, by omega⟩
  have hright : pairRightOf (n + 2) = n + 1 := if_neg (by unfold Config.timingCol; omega)
  rw [placementSequence, pairScan, if_neg (by omega), hright, pairCells, List.range_succ_eq_map, List.range_succ_eq_map]
  simp only [List.map_cons, List.flatMap_cons, List.append_assoc]
  exact ⟨_, rfl⟩

theorem pairRow_getElem?_zero_of_free {rsv : Coord → Bool} {right row : Nat} (h : rsv ⟨row, right⟩ = false) :
    (pairRow rsv right row)[0]? = some ⟨row, right⟩ := by simp [pairRow, h]

theorem pairRow_of_free {rsv : Coord → Bool} {right row : Nat} (h : rsv ⟨row, right⟩ = false)
    (h' : rsv ⟨row, right - 1⟩ = false) : pairRow rsv right row = [⟨row, right⟩, ⟨row, right - 1⟩] := by
  simp [pairRow, h, h']

/-! ### What the commands answer on a block that is not FAULTED (R203 to R207) -/

section
variable {s : State}

theorem coordOutside_iff {row col : Byte} :
    coordOutside s (coordOf row col) = true ↔ row.toNat ≥ s.size.toNat ∨ col.toNat ≥ s.size.toNat := by
  simp [coordOutside, coordOf]

theorem not_coordOutside {row col : Byte} (hr : row.toNat < s.size.toNat) (hc : col.toNat < s.size.toNat) :
    ¬ coordOutside s (coordOf row col) = true :=
  coordOutside_iff.not.2 (not_or.2 ⟨Nat.not_le.2 hr, Nat.not_le.2 hc⟩)

variable (hf : s.running)
include hf

theorem exec_rsvclr_of_unconfigured (h : s.ver = 0) : exec .rsvclr s = .next (refusedWith s 0x08) :=
  (command_running hf _).trans ((if_pos h).trans (raise_eq (by decide) s))

theorem exec_rsvclr_of_configured (h : s.ver ≠ 0) : exec .rsvclr s = .next (answered (s.withRsv []).invalidateSeq 0) :=
  (command_running hf _).trans ((if_neg h).trans (respond_eq 0 _))

theorem exec_seqgen_of_unconfigured (h : s.ver = 0) : exec .seqgen s = .next (refusedWith s 0x08) :=
  (command_running hf _).trans ((if_pos h).trans (raise_eq (by decide) s))

theorem exec_seqgen_of_configured (h : s.ver ≠ 0) : exec .seqgen s = .next
    (answered ((s.withSeq (currentSequence s)).withSeqlen (BitVec.ofNat 16 (currentSequence s).length)).validateSeq
      (BitVec.ofNat 16 (currentSequence s).length)) :=
  (command_running hf _).trans ((if_neg h).trans (respond_eq _ _))

section
variable {row col : Byte}

theorem exec_rsvwr_of_outside (val : Byte) (h : row.toNat ≥ s.size.toNat ∨ col.toNat ≥ s.size.toNat) :
    exec (.rsvwr row col val) s = .next (refusedWith s 0x09) :=
  (command_running hf _).trans ((if_pos (coordOutside_iff.2 h)).trans (raise_eq (by decide) s))

theorem exec_rsvrd_of_outside (h : row.toNat ≥ s.size.toNat ∨ col.toNat ≥ s.size.toNat) :
    exec (.rsvrd row col) s = .next (refusedWith s 0x09) :=
  (command_running hf _).trans ((if_pos (coordOutside_iff.2 h)).trans (raise_eq (by decide) s))

variable (hr : row.toNat < s.size.toNat) (hc : col.toNat < s.size.toNat)
include hr hc

theorem exec_rsvwr_of_bad_value {val : Byte} (hv : val.toNat > 1) :
    exec (.rsvwr row col val) s = .next (refusedWith s 0x0E) :=
  (command_running hf _).trans ((if_neg (not_coordOutside hr hc)).trans
    ((if_pos hv).trans (raise_eq (by decide) s)))

theorem exec_rsvwr_of_bit {val : Byte} (hv : val.toNat ≤ 1) : exec (.rsvwr row col val) s =
    .next (answered (s.withRsv (rsvWrite s.rsv (coordOf row col) (val == 1))).invalidateSeq 0) :=
  (command_running hf _).trans ((if_neg (not_coordOutside hr hc)).trans
    ((if_neg (Nat.not_lt.2 hv)).trans (respond_eq 0 _)))

theorem exec_rsvrd_of_inside :
    exec (.rsvrd row col) s = .next (answered s (if rsvBit s.rsv (coordOf row col) = true then 1 else 0)) :=
  (command_running hf _).trans ((if_neg (not_coordOutside hr hc)).trans (respond_eq _ s))

end

section
variable {n : Half}

theorem exec_seqrd_of_invalid (h : s.seqValid = false) : exec (.seqrd n) s = .next (refusedWith s 0x0A) :=
  (command_running hf _).trans ((if_pos (by rw [h]; rfl)).trans (raise_eq (by decide) s))

variable (hvalid : s.seqValid = true)
include hvalid

theorem exec_seqrd_of_valid : exec (.seqrd n) s =
    if n ≥ s.seqlen then raise .badIndex s else respond (packCoord (s.seq.getD n.toNat ⟨0, 0⟩)) s :=
  (command_running hf _).trans (if_neg (by rw [hvalid]; decide))

theorem exec_seqrd_of_bad_index (hn : n.toNat ≥ s.seqlen.toNat) : exec (.seqrd n) s = .next (refusedWith s 0x0D) :=
  (exec_seqrd_of_valid hf hvalid).trans ((if_pos hn).trans (raise_eq (by decide) s))

theorem exec_seqrd_of_entry (hn : n.toNat < s.seqlen.toNat) {c : Coord} (hc : s.seq[n.toNat]? = some c) :
    exec (.seqrd n) s = .next (answered s (packCoord c)) := by
  have hentry : s.seq.getD n.toNat ⟨0, 0⟩ = c := by rw [List.getD_eq_getElem?_getD, hc, Option.getD_some]
  exact (exec_seqrd_of_valid hf hvalid).trans ((if_neg (Nat.not_le.2 hn)).trans (by rw [hentry, respond_eq]))

end

end

/-! ### The obligations -/

/-- Settles O50: on a free map the pairs cover all columns but the timing column, each row of a pair once; a reserved
map drops its cells. -/
theorem placementVisitsEveryFreeCellOnce : Obligations.PlacementVisitsEveryFreeCellOnce := by
  intro side rsv hodd hside
  rw [placementSequence_eq_byPairs hodd hside, placementByPairs_eq_filter]
  refine ⟨(nodup_placementByPairs_noReserved hodd hside).filter _, ?_, fun c => ?_⟩
  · exact (List.length_filter_le _ _).trans (length_placementByPairs_noReserved hodd).le
  · rw [List.mem_filter, mem_placementByPairs_noReserved hodd hside, Bool.not_eq_true', and_assoc, and_assoc]

/-- Settles O51: the loop against the closed form by induction on the pairs that are left, the entries of a pair two to
a row, and the first two rows of the first pair. -/
theorem placementRunsByPairs : Obligations.PlacementRunsByPairs := by
  intro side rsv hodd hside
  obtain ⟨rest, hstart⟩ := exists_placementSequence_eq_append hside rsv
  refine ⟨placementSequence_eq_byPairs hodd hside rsv, fun right k up hk => ?_, fun hfree => ?_,
    fun h1 h2 h3 h4 => ?_⟩
  · obtain ⟨hright, hleft⟩ := pairCells_noReserved_getElem? right up hk
    exact ⟨hright, hleft, pairCells_eq_filter side rsv right up⟩
  · have hhead := pairRow_getElem?_zero_of_free hfree
    rw [hstart, List.getElem?_append_left (List.getElem?_eq_some_iff.1 hhead).1, hhead]
  · rw [hstart, pairRow_of_free h1 h2, pairRow_of_free h3 h4]
    rfl

/-- Settles O45: the empty list is the map with every cell 0, and invalidating the sequence writes `SEQ_VALID` and
`SEQLEN` only. -/
theorem rsvclrResult : Obligations.RsvclrResult := by
  intro s hf
  refine ⟨rfl, exec_rsvclr_of_unconfigured hf, fun h => ⟨_, exec_rsvclr_of_configured hf h, ?_, rsvBit_nil⟩⟩
  rw [invalidateSeq_eq]
  rfl

/-- Settles O46: the checks in order, then the write of one cell, which is read back there and nowhere else. -/
theorem rsvwrResult : Obligations.RsvwrResult := by
  intro row col val s hf
  refine ⟨decode_of_encode_eq (encodeC_eq_append 0x41 row col val), exec_rsvwr_of_outside hf val,
    fun hr hc => ⟨exec_rsvwr_of_bad_value hf hr hc, fun hv => ⟨_, exec_rsvwr_of_bit hf hr hc hv, ?_, ?_⟩⟩⟩
  · rw [invalidateSeq_eq]
    rfl
  · have hbit : (val == 1) = (val.toNat == 1) := by
      rw [Bool.eq_iff_iff, beq_iff_eq, beq_iff_eq, ← BitVec.toNat_inj]
      rfl
    rw [← hbit]
    exact fun c => rsvBit_write s.rsv (coordOf row col) c (val == 1)

/-- Settles O47: the response is `rsvBit`, and answering changes nothing else. -/
theorem rsvrdResult : Obligations.RsvrdResult := by
  intro row col s hf
  exact ⟨decode_of_encode_eq (encodeC_eq_append 0x42 row col 0), exec_rsvrd_of_outside hf, exec_rsvrd_of_inside hf⟩

/-- Settles O48: the sequence of the current `SIZE` and `RSV`, and validating it writes `SEQ_VALID` only. -/
theorem seqgenResult : Obligations.SeqgenResult := by
  intro s hf
  refine ⟨rfl, exec_seqgen_of_unconfigured hf, fun h => ?_⟩
  rw [exec_seqgen_of_configured hf h, validateSeq_eq]
  rfl

/-- Settles O49: the checks in order, then the entry packed as R207 says. -/
theorem seqrdResult : Obligations.SeqrdResult := by
  intro n s hf
  exact ⟨decode_of_encode_eq (encodeX_eq_append 0x44 n), exec_seqrd_of_invalid hf,
    fun hvalid => ⟨exec_seqrd_of_bad_index hf hvalid, fun hn _ => exec_seqrd_of_entry hf hvalid hn⟩⟩

end Sys2Proof.Machine
end

section
/-! PROOFS of the mask pipeline (R222 to R229): the grid after placing, cell by cell, the bits of a complemented and of
an all-zero sequence, and the results of GRIDCLR, GRIDWR, GRIDRD and MPLACE. -/

namespace Sys2Proof.Machine

/-! ### Placing, cell by cell (R222) -/

section
variable (mask : Nat → Nat → Bool) (bytes : List Byte) {seq : List Coord} {c : Coord}

theorem gridCell_placeFrom_of_not_mem (hc : c ∉ seq) (k : Nat) (g : Grid) :
    gridCell (placeFrom mask bytes k seq g) c = gridCell g c := by
  induction seq generalizing k g with
  | nil => rfl
  | cons d seq ih =>
    obtain ⟨hd, hc⟩ := not_or.1 (List.mem_cons.not.1 hc)
    rw [placeFrom, ih hc, gridCell_write, if_neg hd]

/-- Without repeats no later write meets the cell of entry `j`, so it keeps the bit it got at its own turn. -/
theorem gridCell_placeFrom_of_entry (hs : seq.Nodup) {j : Nat} (hc : seq[j]? = some c) (k : Nat) (g : Grid) :
    gridCell (placeFrom mask bytes k seq g) c = maskedCell (seqBit bytes (k + j)) (mask c.row c.col) := by
  induction seq generalizing j k g with
  | nil => cases hc
  | cons d seq ih =>
    obtain ⟨hd, hs⟩ := List.nodup_cons.1 hs
    rw [placeFrom]
    cases j with
    | zero =>
      obtain rfl : d = c := Option.some.inj hc
      rw [gridCell_placeFrom_of_not_mem mask bytes hd, gridCell_write, if_pos rfl, Nat.add_zero]
    | succ j => rw [ih hs hc, Nat.add_assoc, Nat.add_comm 1 j]

theorem gridCell_place_of_not_mem (g : Grid) (hc : c ∉ seq) : gridCell (place mask g seq bytes) c = gridCell g c :=
  gridCell_placeFrom_of_not_mem mask bytes hc 0 g

theorem gridCell_place_of_entry (g : Grid) (hs : seq.Nodup) {k : Nat} (hc : seq[k]? = some c) :
    gridCell (place mask g seq bytes) c = maskedCell (seqBit bytes k) (mask c.row c.col) := by
  rw [place, gridCell_placeFrom_of_entry mask bytes hs hc, Nat.zero_add]

end

/-! ### Complemented and all-zero bits (R221, R229) -/

/-- Only below the end of the sequence: above it a bit and its complement both read as 0. -/
theorem seqBit_map_not {bytes : List Byte} {k : Nat} (hk : k < 8 * bytes.length) :
    seqBit (bytes.map (~~~ ·)) k = !seqBit bytes k := by
  have hbyte : k / 8 < bytes.length := Nat.div_lt_of_lt_mul hk
  have hbit : 7 - k % 8 < 8 := by omega
  simp [seqBit, List.getD_eq_getElem?_getD, hbyte, hbit]

theorem seqBit_replicate_zero (n k : Nat) : seqBit (List.replicate n 0) k = false := by
  have hbyte : (List.replicate n (0 : Byte)).getD (k / 8) 0 = 0 := by
    rw [List.getD_eq_getElem?_getD, List.getElem?_replicate]
    split <;> rfl
  rw [seqBit, hbyte]
  exact BitVec.getLsbD_zero

theorem maskedCell_not_eq_dark_iff (bit mask : Bool) :
    maskedCell (!bit) mask = .dark ↔ maskedCell bit mask = .light := by
  cases bit <;> cases mask <;> decide

theorem maskedCell_false_eq_dark_iff (mask : Bool) : maskedCell false mask = .dark ↔ mask = true := by
  cases mask <;> decide

/-! ### Cell codes (R36, R224) -/

theorem cellOfCode_eq_some {val : Byte} (h : val = 0 ∨ val = 2 ∨ val = 3) :
    cellOfCode val = some (if val = 0 then .unset else if val = 2 then .light else .dark) := by
  obtain rfl | rfl | rfl := h <;> rfl

theorem cellOfCode_eq_none {val : Byte} (h0 : val ≠ 0) (h2 : val ≠ 2) (h3 : val ≠ 3) : cellOfCode val = none := by
  unfold cellOfCode
  split
  · exact absurd (BitVec.eq_of_toNat_eq ‹_›) h0
  · exact absurd (BitVec.eq_of_toNat_eq ‹_›) h2
  · exact absurd (BitVec.eq_of_toNat_eq ‹_›) h3
  · rfl

/-! ### What the commands answer on a block that is not FAULTED (R223 to R226) -/

section
variable {s : State} (hf : s.running)
include hf

theorem exec_gridclr_of_unconfigured (h : s.ver = 0) : exec .gridclr s = .next (refusedWith s 0x08) :=
  (command_running hf _).trans ((if_pos h).trans (raise_eq (by decide) s))

theorem exec_gridclr_of_configured (h : s.ver ≠ 0) : exec .gridclr s = .next (answered (s.withGrid []) 0) :=
  (command_running hf _).trans ((if_neg h).trans (respond_eq 0 _))

section
variable {row col : Byte}

theorem exec_gridwr_of_outside (val : Byte) (h : row.toNat ≥ s.size.toNat ∨ col.toNat ≥ s.size.toNat) :
    exec (.gridwr row col val) s = .next (refusedWith s 0x09) :=
  (command_running hf _).trans ((if_pos (coordOutside_iff.2 h)).trans (raise_eq (by decide) s))

theorem exec_gridrd_of_outside (h : row.toNat ≥ s.size.toNat ∨ col.toNat ≥ s.size.toNat) :
    exec (.gridrd row col) s = .next (refusedWith s 0x09) :=
  (command_running hf _).trans ((if_pos (coordOutside_iff.2 h)).trans (raise_eq (by decide) s))

variable (hr : row.toNat < s.size.toNat) (hc : col.toNat < s.size.toNat)
include hr hc

theorem exec_gridwr_of_bad_code {val : Byte} (hv : cellOfCode val = none) :
    exec (.gridwr row col val) s = .next (refusedWith s 0x0E) := by
  change command _ _ = _
  rw [command_running hf, if_neg (not_coordOutside hr hc), hv]
  exact raise_eq (by decide) s

theorem exec_gridwr_of_code {val : Byte} {v : ModuleState} (hv : cellOfCode val = some v) :
    exec (.gridwr row col val) s = .next (answered (s.withGrid (gridWrite s.grid (coordOf row col) v)) 0) := by
  change command _ _ = _
  rw [command_running hf, if_neg (not_coordOutside hr hc), hv]
  exact respond_eq 0 _

theorem exec_gridrd_of_cell {v : ModuleState} (hv : gridCell s.grid (coordOf row col) = v) :
    exec (.gridrd row col) s = .next (answered s (codeOfCell v)) :=
  (command_running hf _).trans ((if_neg (not_coordOutside hr hc)).trans (hv ▸ respond_eq _ s))

end

section
variable {n : Half}

theorem exec_mplace_of_bad_mask (hn : n.toNat > 7) : exec (.mplace n) s = .next (refusedWith s 0x02) :=
  (command_running hf _).trans ((if_pos hn).trans (raise_eq (by decide) s))

variable (hn : n.toNat ≤ 7)
include hn

theorem exec_mplace_of_invalid (h : s.seqValid = false) : exec (.mplace n) s = .next (refusedWith s 0x0A) :=
  (command_running hf _).trans ((if_neg (Nat.not_lt.2 hn)).trans
    ((if_pos (by rw [h]; rfl)).trans (raise_eq (by decide) s)))

variable (hvalid : s.seqValid = true)
include hvalid

theorem exec_mplace_of_valid : exec (.mplace n) s =
    if sourceAIllegal s then raise .addressRange s
    else if 8 * s.la.toNat < s.seqlen.toNat then raise .bitUnderrun s
    else respond s.seqlen (s.withGrid (place (maskFn n.toNat) s.grid (validSequence s) (sourceA s))) :=
  (command_running hf _).trans ((if_neg (Nat.not_lt.2 hn)).trans (if_neg (by rw [hvalid]; decide)))

theorem exec_mplace_of_outside (ha : s.sa.toNat + s.la.toNat > 4096) :
    exec (.mplace n) s = .next (refusedWith s 0x07) :=
  (exec_mplace_of_valid hf hn hvalid).trans ((if_pos (rangeIllegal_iff.2 ha)).trans (raise_eq (by decide) s))

variable (ha : s.sa.toNat + s.la.toNat ≤ 4096)
include ha

theorem exec_mplace_of_underrun (hb : 8 * s.la.toNat < s.seqlen.toNat) :
    exec (.mplace n) s = .next (refusedWith s 0x0B) :=
  (exec_mplace_of_valid hf hn hvalid).trans ((if_neg (rangeIllegal_iff.not.2 (Nat.not_lt.2 ha))).trans
    ((if_pos hb).trans (raise_eq (by decide) s)))

theorem exec_mplace_of_enough (hb : s.seqlen.toNat ≤ 8 * s.la.toNat) : exec (.mplace n) s = .next
    (answered (s.withGrid (place (maskFn n.toNat) s.grid (validSequence s) (sourceA s))) s.seqlen) :=
  (exec_mplace_of_valid hf hn hvalid).trans ((if_neg (rangeIllegal_iff.not.2 (Nat.not_lt.2 ha))).trans
    ((if_neg (Nat.not_lt.2 hb)).trans (respond_eq _ _)))

end

end

/-! ### The obligations -/

/-- Settles O56: by induction over the sequence, each cell is written at its own turn only. -/
theorem placeWritesTheMaskedBits : Obligations.PlaceWritesTheMaskedBits := by
  intro mask g seq bytes
  exact ⟨fun c => gridCell_place_of_not_mem mask bytes g, fun hs _ k c => gridCell_place_of_entry mask bytes g hs⟩

/-- Settles O57: the placed cell is the masked cell of its bit, and there are bits enough for its position, so the
complemented sequence holds the complement of that bit. -/
theorem placeOfComplementedBits : Obligations.PlaceOfComplementedBits := by
  intro mask g seq bytes hs hlen c hc
  obtain ⟨k, hk⟩ := List.mem_iff_getElem?.1 hc
  have hbits : k < 8 * bytes.length := (List.getElem?_eq_some_iff.1 hk).1.trans_le hlen
  simp only [gridCell_place_of_entry mask _ g hs hk, seqBit_map_not hbits, seqBit_replicate_zero]
  exact ⟨maskedCell_not_eq_dark_iff _ _, maskedCell_false_eq_dark_iff _⟩

/-- Settles O55: the checks in order, then placing the source on the entries of the sequence that are valid. -/
theorem mplaceResult : Obligations.MplaceResult := by
  intro n s hf
  refine ⟨decode_of_encode_eq (encodeX_eq_append 0x53 n), exec_mplace_of_bad_mask hf, fun hn =>
    ⟨exec_mplace_of_invalid hf hn, fun hvalid => ⟨exec_mplace_of_outside hf hn hvalid, fun ha =>
      ⟨exec_mplace_of_underrun hf hn hvalid ha, fun hb => ⟨_, exec_mplace_of_enough hf hn hvalid ha hb, rfl,
        fun c => gridCell_place_of_not_mem (maskFn n.toNat) (sourceA s) s.grid, fun hs k c hk hc => ?_⟩⟩⟩⟩⟩
  have hentry : (validSequence s)[k]? = some c := (List.getElem?_take_of_lt hk).trans hc
  exact gridCell_place_of_entry (maskFn n.toNat) (sourceA s) s.grid hs hentry

/-- Settles O52: the empty list is the grid with every cell `unset`. -/
theorem gridclrResult : Obligations.GridclrResult := by
  intro s hf
  exact ⟨rfl, exec_gridclr_of_unconfigured hf, fun h => ⟨_, exec_gridclr_of_configured hf h, rfl, gridCell_nil⟩⟩

/-- Settles O53: the checks in order, then the write of one cell, which is read back there and nowhere else. -/
theorem gridwrResult : Obligations.GridwrResult := by
  intro row col val s hf
  refine ⟨decode_of_encode_eq (encodeC_eq_append 0x51 row col val), exec_gridwr_of_outside hf val, fun hr hc =>
    ⟨fun h0 h2 h3 => exec_gridwr_of_bad_code hf hr hc (cellOfCode_eq_none h0 h2 h3), fun hv => ?_⟩⟩
  exact ⟨_, exec_gridwr_of_code hf hr hc (cellOfCode_eq_some hv), rfl,
    fun c => gridCell_write s.grid (coordOf row col) c _⟩

/-- Settles O54: the response is the code of the cell, and answering changes nothing else. -/
theorem gridrdResult : Obligations.GridrdResult := by
  intro row col s hf
  exact ⟨decode_of_encode_eq (encodeC_eq_append 0x52 row col 0), exec_gridrd_of_outside hf, fun hr hc =>
    ⟨exec_gridrd_of_cell hf hr hc, exec_gridrd_of_cell hf hr hc, exec_gridrd_of_cell hf hr hc⟩⟩

end Sys2Proof.Machine
end

section
/-! PROOFS of the host's software (R241 to R258): the encoder fills `D` codewords, the overlay is idempotent, and an
assembly ends at the first failure. -/

namespace Sys2Proof.Machine

/-! ### Byte-mode encoder (R242 to R246) -/

@[simp] theorem bitsOf_length (width n : Nat) : (bitsOf width n).length = width := by simp [bitsOf]

@[simp] theorem padCodewords_length (n : Nat) : (padCodewords n).length = n := by simp [padCodewords]

theorem payloadBits_length (text : List Nat) (lengthBits : Nat) :
    (payloadBits text lengthBits).length = 4 + lengthBits + 8 * text.length := by
  simp [payloadBits, List.length_flatMap]
  omega

/-- Every eight bits are a byte, and so is what remains. -/
theorem packBits_length (bits : List Bool) : (packBits bits).length = (bits.length + 7) / 8 := by
  induction bits using packBits.induct with
  | case1 => rfl
  | case2 b7 b6 b5 b4 b3 b2 b1 b0 rest ih =>
    simp only [packBits, List.length_cons, ih]
    omega
  | case3 bits hne hshort =>
    have hpos : bits.length ≠ 0 := fun h => hne (List.length_eq_zero_iff.1 h)
    have hlt : bits.length < 8 := Nat.lt_of_not_le fun hle => by
      match bits, hle with
      | b7 :: b6 :: b5 :: b4 :: b3 :: b2 :: b1 :: b0 :: rest, _ => exact hshort _ _ _ _ _ _ _ _ _ rfl
    rw [packBits]
    · simp only [List.length_singleton]
      omega
    · exact hne
    · exact hshort

section
variable {text : List Nat} {D L : Nat}

theorem byteModeEncode_of_wide (h : ∃ c ∈ text, c > 255) : byteModeEncode text D L = .error .invalidCharacter :=
  if_pos (by simpa using h)

variable (hchars : ∀ c ∈ text, c ≤ 255)
include hchars

theorem byteModeEncode_of_overflow (h : text.length ≥ 2 ^ L ∨ 4 + L + 8 * text.length > 8 * D) :
    byteModeEncode text D L = .error .capacityExceeded :=
  (if_neg (by simpa using hchars)).trans (if_pos h)

theorem byteModeEncode_of_fit (h : text.length < 2 ^ L) (hbits : 4 + L + 8 * text.length ≤ 8 * D) :
    byteModeEncode text D L = .ok (packBits (payloadBits text L) ++
      padCodewords (D - (packBits (payloadBits text L)).length)) :=
  (if_neg (by simpa using hchars)).trans (if_neg (by omega))

end

/-! ### The overlay (R254) -/

/-- After the stamps a cell holds what they put there, whatever the grid was, or it is as before. -/
theorem gridCell_applyStamps (stamps : List Stamp) (c : Coord) :
    (∃ v, ∀ g, gridCell (applyStamps g stamps) c = v) ∨ ∀ g, gridCell (applyStamps g stamps) c = gridCell g c := by
  induction stamps with
  | nil => exact .inr fun g => rfl
  | cons stamp rest ih =>
    obtain ⟨d, v⟩ := stamp
    obtain ⟨u, hu⟩ | hkeep := ih
    · exact .inl ⟨u, fun g => hu _⟩
    by_cases hc : c = d
    · exact .inl ⟨v, fun g => by rw [applyStamps, hkeep, gridCell_write, if_pos hc]⟩
    · exact .inr fun g => by rw [applyStamps, hkeep, gridCell_write, if_neg hc]

/-! ### Issuing one word (R7, R99) -/

theorem hostErrorOf_mask : hostErrorOf 0x02 = .invalidMaskIndex := rfl

theorem hostErrorOf_refused {status : Byte} (h : status ≠ 0x02) : hostErrorOf status = .refused status := if_neg h

theorem issue_of_step {w r : Word} {s t : State} (hs : step (s.present w) = .next t)
    (hr : t.responses.getLast? = some r) : issue w s = (t, replyValue r) := by
  simp [issue, hs, hr]

/-- A word issued is answered by one response, which decides between value and error. -/
theorem issue_answers (w : Word) (s : State) :
    ∃ t r, t.responses = s.responses ++ [r] ∧ issue w s = (t, replyValue r) := by
  obtain ⟨t, r, -, hs, hr, -⟩ := everyCommandGivesOneResponse (s.present w) w s.inputs rfl rfl
  exact ⟨t, r, hr, issue_of_step hs (by rw [hr, List.getLast?_concat])⟩

/-- A response that is a code other than 0x00 is no success. -/
theorem status_ne_zero_of_code {r : Word} {rs : List Word} {code : Byte} (hcode : code ≠ 0)
    (h : (rs ++ [code.setWidth 32 <<< 24]).getLast? = some r) : r.extractLsb' 24 8 ≠ (0x00 : Byte) := by
  rw [List.getLast?_concat] at h
  obtain rfl := Option.some.inj h
  rwa [code_status]

/-- Only a success answers with the status 0x00. -/
theorem success_of_status_zero {i : Instr} {s t : State} {r : Word} (h : exec i s = .next t)
    (hr : t.responses.getLast? = some r) (hstatus : r.extractLsb' 24 8 = 0x00) : Success i s t := by
  obtain ⟨-, rfl⟩ | ⟨-, ⟨c, hok, -, -, -, -, rfl⟩ | ⟨-, rfl⟩ | h⟩ := exec_next i h
  · exact absurd hstatus (status_ne_zero_of_code (statusByte_ne_zero (c := .halted) (by decide)) hr)
  · exact absurd hstatus (status_ne_zero_of_code (statusByte_ne_zero hok) hr)
  · exact absurd hstatus (status_ne_zero_of_code (statusByte_ne_zero (c := .divideByZero) (by decide)) hr)
  · exact h

/-- A command whose word is issued with a value succeeded on the block. -/
theorem success_of_issue_ok {i : Instr} {s t : State} {v : Half} (h : issue (encode i) s = (t, .ok v)) :
    Success i (s.withInReset false) t := by
  obtain ⟨hs, r, hr, hstatus, -⟩ := issue_ok h
  have hx : exec i (s.withInReset false) = .next t :=
    (stepRunsTheDecodedCommand (s.present (encode i)) _ s.inputs i rfl rfl (decodeOfEncodeIsTheCommand i)).symm.trans hs
  exact success_of_status_zero hx hr hstatus

theorem issue_ok_value {w : Word} {s u : State} {a v : Half} (h : issue w s = (answered u a, .ok v)) : v = a := by
  obtain ⟨-, r, hr, -, rfl⟩ := issue_ok h
  have hr : a.setWidth 32 = r := Option.some.inj (List.getLast?_concat.symm.trans hr)
  rw [← hr, value_low]

/-! ### What a run that succeeds issued (R256) -/

theorem assemble_eq_some {l : AsmLine} {ws : List Word} (h : assemble l = some ws) :
    asmWellFormed l = true ∧ ws = (expand l).map encode := by
  unfold assemble at h
  split at h
  · exact ⟨‹_›, (Option.some.inj h).symm⟩
  · cases h

/-- From the block `s` to the block `t` the responses were successes with the values `vs`. -/
def Answers (s t : State) (vs : List Half) : Prop :=
  ∃ rs : List Word, t.responses = s.responses ++ rs ∧ rs.map (·.extractLsb' 0 16) = vs ∧
    ∀ r ∈ rs, r.extractLsb' 24 8 = (0x00 : Byte)

theorem Answers.refl (s : State) : Answers s s [] := ⟨[], by simp⟩

theorem Answers.trans {s t u : State} {vs us : List Half} (h : Answers s t vs) (h' : Answers t u us) :
    Answers s u (vs ++ us) := by
  obtain ⟨rs, hrs, rfl, hok⟩ := h
  obtain ⟨qs, hqs, rfl, hok'⟩ := h'
  exact ⟨rs ++ qs, by rw [hqs, hrs, List.append_assoc], List.map_append, fun r hr =>
    (List.mem_append.1 hr).elim (hok r) (hok' r)⟩

theorem answers_single {s t : State} {r : Word} (hr : t.responses = s.responses ++ [r])
    (hstatus : r.extractLsb' 24 8 = 0x00) : Answers s t [r.extractLsb' 0 16] :=
  ⟨[r], hr, rfl, by simpa using hstatus⟩

theorem issue_ok_answers {w : Word} {s t : State} {v : Half} (h : issue w s = (t, .ok v)) : Answers s t [v] := by
  obtain ⟨u, r, hr, hi⟩ := issue_answers w s
  obtain ⟨rfl, hv⟩ := Prod.mk.inj (hi.symm.trans h)
  by_cases hstatus : r.extractLsb' 24 8 = (0x00 : Byte)
  · rw [replyValue_ok hstatus] at hv
    exact Except.ok.inj hv ▸ answers_single hr hstatus
  · rw [replyValue_error hstatus] at hv
    cases hv

theorem issueAll_ok_answers {ws : List Word} {s t : State} {vs : List Half} (h : issueAll ws s = (t, .ok vs)) :
    Answers s t vs ∧ vs.length = ws.length := by
  induction ws generalizing s vs with
  | nil =>
    cases h
    exact ⟨.refl _, rfl⟩
  | cons w rest ih =>
    obtain ⟨u, v, us, hw, hrest, rfl⟩ := issueAll_cons_ok h
    obtain ⟨hans, hlen⟩ := ih hrest
    exact ⟨(issue_ok_answers hw).trans hans, congrArg (· + 1) hlen⟩

theorem runLines_ok_answers {lines : List AsmLine} {s t : State} {vs : List Half} (h : runLines lines s = (t, .ok vs)) :
    Answers s t vs ∧ (∀ l ∈ lines, asmWellFormed l = true) ∧ vs.length = (lines.flatMap expand).length := by
  induction lines generalizing s vs with
  | nil =>
    cases h
    exact ⟨.refl _, by simp, rfl⟩
  | cons l rest ih =>
    obtain ⟨ws, u, us, us', hl, hws, hrest, rfl⟩ := runLines_cons_ok h
    obtain ⟨hfit, rfl⟩ := assemble_eq_some hl
    obtain ⟨hans, hlen⟩ := issueAll_ok_answers hws
    obtain ⟨hans', hfits, hlen'⟩ := ih hrest
    exact ⟨hans.trans hans', List.forall_mem_cons.2 ⟨hfit, hfits⟩, by simp [hlen, hlen']⟩

/-- A line of one command, in a run that succeeds, is a command that succeeds. -/
theorem runLines_command_ok {l : AsmLine} {i : Instr} {rest : List AsmLine} {s t : State} {vs : List Half}
    (he : expand l = [i]) (h : runLines (l :: rest) s = (t, .ok vs)) :
    asmWellFormed l = true ∧ ∃ u v us, issue (encode i) s = (u, .ok v) ∧ runLines rest u = (t, .ok us) ∧ vs = v :: us := by
  obtain ⟨ws, u, us, us', hl, hws, hrest, rfl⟩ := runLines_cons_ok h
  obtain ⟨hfit, rfl⟩ := assemble_eq_some hl
  rw [he] at hws
  obtain ⟨u', v, us, hw, hnil, rfl⟩ := issueAll_cons_ok hws
  cases hnil
  exact ⟨hfit, _, v, us', hw, hrest, rfl⟩

/-- Reading cells gives their codes and leaves the grid. -/
theorem runLines_gridrd_ok {cells : List Coord} {s t : State} {g : List Half}
    (h : runLines (cells.map fun d => .gridrd d.row d.col) s = (t, .ok g)) :
    t.grid = s.grid ∧ g = cells.map fun d => codeOfCell (gridCell s.grid d) := by
  induction cells generalizing s g with
  | nil =>
    cases h
    exact ⟨rfl, rfl⟩
  | cons d cells ih =>
    obtain ⟨hfit, u, v, us, hd, hrest, rfl⟩ := runLines_command_ok rfl h
    obtain ⟨-, -, rfl⟩ := success_of_issue_ok hd
    obtain ⟨hgrid, rfl⟩ := ih hrest
    have hcoord : coordOf (BitVec.ofNat 8 d.row) (BitVec.ofNat 8 d.col) = d := by
      simp only [asmWellFormed, fitsByte, Bool.and_eq_true, decide_eq_true_eq] at hfit
      simp [coordOf, Nat.mod_eq_of_lt, hfit]
    refine ⟨hgrid, ?_⟩
    rw [issue_ok_value hd, hcoord]
    rfl

/-! ### The abort (R258) -/

theorem issueAll_aborts {ws : List Word} {w : Word} (rest : List Word) {s t : State} {vs : List Half} {e : HostError}
    (h : issueAll ws s = (t, .ok vs)) (he : (issue w t).2 = .error e) :
    issueAll (ws ++ w :: rest) s = ((issue w t).1, .error e) := by
  induction ws generalizing s vs with
  | nil =>
    cases h
    exact andThen_error he
  | cons x ws ih =>
    obtain ⟨u, v, us, hx, hws, -⟩ := issueAll_cons_ok h
    simp only [List.cons_append, issueAll, hx, HostResult.andThen, ih hws]

theorem runLines_aborts_of_misfit {lines : List AsmLine} {l : AsmLine} (rest : List AsmLine) {s t : State}
    {vs : List Half} (h : runLines lines s = (t, .ok vs)) (hl : assemble l = none) :
    runLines (lines ++ l :: rest) s = (t, .error (lineError l)) := by
  have hfail : runLines (l :: rest) t = (t, .error (lineError l)) := by simp only [runLines, hl]
  rw [runLines_append h, hfail]
  rfl

theorem runLines_aborts_of_words {lines : List AsmLine} {l : AsmLine} (rest : List AsmLine) {s t : State}
    {vs : List Half} {ws : List Word} {e : HostError} (h : runLines lines s = (t, .ok vs)) (hl : assemble l = some ws)
    (he : (issueAll ws t).2 = .error e) : runLines (lines ++ l :: rest) s = ((issueAll ws t).1, .error e) := by
  have hfail : runLines (l :: rest) t = ((issueAll ws t).1, .error e) := by
    simp only [runLines, hl]
    exact andThen_error he
  rw [runLines_append h, hfail]
  rfl

/-- A line of one command that cannot succeed ends a run in an error on every block. -/
theorem runLines_single_fails {l : AsmLine} {i : Instr} (he : expand l = [i])
    (h : asmWellFormed l = true → ∀ s t, ¬ Success i s t) (s : State) : ∃ e, (runLines [l] s).2 = .error e := by
  cases hr : (runLines [l] s).2 with
  | error e => exact ⟨e, rfl⟩
  | ok vs =>
    obtain ⟨hfit, u, v, us, hi, -⟩ := runLines_command_ok he (Prod.ext rfl hr : runLines [l] s = (_, .ok vs))
    exact absurd (success_of_issue_ok hi) (h hfit _ _)

theorem runLines_setver_fails {n : Nat} (hn : n = 0 ∨ n > 40) : ∀ s, ∃ e, (runLines [.setver n] s).2 = .error e := by
  refine runLines_single_fails rfl fun hfit s t => ?_
  have hlt : n < 65536 := of_decide_eq_true hfit
  rintro ⟨h0, h40, -⟩
  rw [BitVec.toNat_ofNat, Nat.mod_eq_of_lt hlt] at h40
  obtain rfl | hn := hn
  · exact h0 rfl
  · omega

theorem runLines_mplace_fails {m : Nat} (hm : m > 7) : ∀ s, ∃ e, (runLines [.mplace m] s).2 = .error e := by
  refine runLines_single_fails rfl fun hfit s t => ?_
  have hlt : m < 65536 := of_decide_eq_true hfit
  rintro ⟨h7, -⟩
  rw [BitVec.toNat_ofNat, Nat.mod_eq_of_lt hlt] at h7
  omega

/-! ### The responses of a piece of host software (R258)

Either every response was a success, or the last one was none and its error is the end. -/

/-- The responses from the block `s` to the end of `r`: successes, and after them at most one other response, whose
error is the end of `r`. -/
def HostResult.Traced {α : Type} (r : HostResult α) (s : State) : Prop :=
  (∃ vs, Answers s r.1 vs) ∨
  ∃ t vs w, Answers s t vs ∧ r.1.responses = t.responses ++ [w] ∧ w.extractLsb' 24 8 ≠ (0x00 : Byte) ∧
    r.2 = .error (hostErrorOf (w.extractLsb' 24 8))

section
variable {α β : Type} {r : HostResult α} {f : α → State → HostResult β} {s : State}

/-- What issues nothing. -/
theorem traced_of_state (s : State) (x : Except HostError α) : HostResult.Traced (s, x) s := .inl ⟨[], .refl s⟩

theorem traced_ok {a : α} (h : r.Traced s) (ha : r.2 = .ok a) : ∃ vs, Answers s r.1 vs := by
  obtain h | ⟨t, vs, w, -, -, -, he⟩ := h
  · exact h
  · rw [ha] at he
    cases he

theorem traced_andThen (h : r.Traced s) (hf : ∀ a t, (f a t).Traced t) : (r.andThen f).Traced s := by
  cases hr : r.2 with
  | error e =>
    rw [andThen_error hr]
    exact h.imp_right fun ⟨t, vs, w, hans, hlast, hw, he⟩ =>
      ⟨t, vs, w, hans, hlast, hw, congrArg _ (Except.error.inj (hr.symm.trans he))⟩
  | ok a =>
    have hthen : r.andThen f = f a r.1 := by simp [HostResult.andThen, hr]
    obtain ⟨vs, hans⟩ := traced_ok h hr
    rw [hthen]
    exact (hf a r.1).imp (fun ⟨us, hans'⟩ => ⟨_, hans.trans hans'⟩)
      fun ⟨t, us, w, hans', hend⟩ => ⟨t, _, w, hans.trans hans', hend⟩

theorem traced_responses {e : HostError} (h : r.Traced s) (he : r.2 = .error e) :
    ∃ rs : List Word, r.1.responses = s.responses ++ rs ∧
      (∀ w ∈ rs.dropLast, w.extractLsb' 24 8 = (0x00 : Byte)) ∧
      ∀ w, rs.getLast? = some w → w.extractLsb' 24 8 ≠ (0x00 : Byte) → e = hostErrorOf (w.extractLsb' 24 8) := by
  obtain ⟨_, rs, hrs, -, hok⟩ | ⟨t, _, f, ⟨rs, hrs, -, hok⟩, hlast, -, hf⟩ := h
  · exact ⟨rs, hrs, fun w hw => hok w (List.mem_of_mem_dropLast hw),
      fun w hw hne => absurd (hok w (List.mem_of_getLast? hw)) hne⟩
  · refine ⟨rs ++ [f], by rw [hlast, hrs, List.append_assoc], by rwa [List.dropLast_concat], fun w hw _ => ?_⟩
    rw [List.getLast?_concat] at hw
    obtain rfl := Option.some.inj hw
    exact Except.error.inj (he.symm.trans hf)

end

theorem issue_traced (w : Word) (s : State) : (issue w s).Traced s := by
  obtain ⟨t, r, hr, hi⟩ := issue_answers w s
  rw [hi]
  by_cases hstatus : r.extractLsb' 24 8 = (0x00 : Byte)
  · exact .inl ⟨_, answers_single hr hstatus⟩
  · exact .inr ⟨s, [], r, .refl s, hr, hstatus, replyValue_error hstatus⟩

theorem issueAll_traced (ws : List Word) (s : State) : (issueAll ws s).Traced s := by
  induction ws generalizing s with
  | nil => exact traced_of_state s _
  | cons w rest ih =>
    exact traced_andThen (issue_traced w s) fun _ t => traced_andThen (ih t) fun _ u => traced_of_state u _

theorem runLines_traced (lines : List AsmLine) (s : State) : (runLines lines s).Traced s := by
  induction lines generalizing s with
  | nil => exact traced_of_state s _
  | cons l rest ih =>
    rw [runLines]
    split
    · exact traced_of_state s _
    · exact traced_andThen (issueAll_traced _ s) fun _ t => traced_andThen (ih t) fun _ u => traced_of_state u _

/-! ### Assembly (R256, R258) -/

section
variable {c : SymbolConfig} {text : List Nat}

theorem assembleSymbol_of_encode_error {e : HostError} (h : byteModeEncode text c.dataCodewords c.lengthBits = .error e)
    (m : Nat) (s : State) : assembleSymbol c text m s = (s, .error e) := by
  simp only [assembleSymbol, h]

theorem assembleSymbol_of_encode_ok {cw : List Byte} (h : byteModeEncode text c.dataCodewords c.lengthBits = .ok cw)
    (m : Nat) (s : State) : assembleSymbol c text m s = (runLines (setupLines c cw) s).andThen fun vs t =>
      (runLines (placeLines c m (vs.getLastD 0).toNat) t).andThen fun _ u => runLines (readOutLines c.side) u := by
  simp only [assembleSymbol, h]

theorem assembleSymbol_traced (c : SymbolConfig) (text : List Nat) (m : Nat) (s : State) :
    (assembleSymbol c text m s).Traced s := by
  cases h : byteModeEncode text c.dataCodewords c.lengthBits with
  | error e =>
    rw [assembleSymbol_of_encode_error h]
    exact traced_of_state s _
  | ok cw =>
    rw [assembleSymbol_of_encode_ok h]
    exact traced_andThen (runLines_traced _ s) fun _ t =>
      traced_andThen (runLines_traced _ t) fun _ u => runLines_traced _ u

/-- The line that the block refuses is SETVER for an illegal version and MPLACE for an illegal mask. -/
theorem assembleSymbol_fails {m : Nat} (hbad : m > 7 ∨ c.version = 0 ∨ c.version > 40) (s : State) :
    ∃ e, (assembleSymbol c text m s).2 = .error e := by
  cases h : byteModeEncode text c.dataCodewords c.lengthBits with
  | error e => exact ⟨e, by rw [assembleSymbol_of_encode_error h]⟩
  | ok cw =>
    rw [assembleSymbol_of_encode_ok h]
    obtain hm | hv := hbad
    · refine andThen_fails fun vs t => ?_
      obtain ⟨e, he⟩ := runLines_fails (runLines_mplace_fails hm)
        (lines := placeLines c m (vs.getLastD 0).toNat) (by simp [placeLines]) t
      exact ⟨e, by rw [andThen_error he]⟩
    · obtain ⟨e, he⟩ := runLines_fails (runLines_setver_fails hv) (lines := setupLines c cw) (by simp [setupLines]) s
      exact ⟨e, by rw [andThen_error he]⟩

/-- A result is the read-out, the last part of an assembly. -/
theorem assembleSymbol_ok_readOut {m : Nat} {s t : State} {g : List Half} (h : assembleSymbol c text m s = (t, .ok g)) :
    ∃ u, runLines (readOutLines c.side) u = (t, .ok g) := by
  cases hcw : byteModeEncode text c.dataCodewords c.lengthBits with
  | error e =>
    rw [assembleSymbol_of_encode_error hcw] at h
    cases h
  | ok cw =>
    rw [assembleSymbol_of_encode_ok hcw] at h
    obtain ⟨_, -, h⟩ := andThen_ok h
    obtain ⟨_, -, h⟩ := andThen_ok h
    exact ⟨_, h⟩

end

/-! ### The obligations -/

/-- Settles O58: the bit stream packs into at most `D` bytes, and the pad codewords are the others. -/
theorem encoderFillsTheDataCodewords : Obligations.EncoderFillsTheDataCodewords := by
  intro text D L
  refine ⟨byteModeEncode_of_wide, fun hchars => ⟨byteModeEncode_of_overflow hchars, fun hlen hbits =>
    ⟨_, byteModeEncode_of_fit hchars hlen hbits, ?_⟩⟩⟩
  rw [List.length_append, padCodewords_length, packBits_length, payloadBits_length]
  omega

/-- Settles O59: a cell that the overlay stamps does not depend on the grid below, any other keeps its value. -/
theorem overlayIsIdempotent : Obligations.OverlayIsIdempotent := by
  intro side align g c
  obtain ⟨v, hv⟩ | hkeep := gridCell_applyStamps (overlayStamps side align) c
  · rw [hv, hv]
  · rw [hkeep]

/-- Settles O60: the abort by induction over the words and the lines; for a whole assembly, each part is traced by the
responses it got, and so is what `andThen` makes of them. -/
theorem assemblyAbortsOnTheFirstFailure : Obligations.AssemblyAbortsOnTheFirstFailure := by
  refine ⟨?_, fun ws w rest s t vs e => issueAll_aborts rest, fun lines l rest s t vs h =>
    ⟨runLines_aborts_of_misfit rest h, fun ws e => runLines_aborts_of_words rest h⟩, ?_,
    fun side s t g => runLines_gridrd_ok, fun c text m s e h => assembleSymbol_of_encode_error h m s,
    fun c text m s hbad => assembleSymbol_fails hbad s, ?_, ?_⟩
  · intro w s t r hs hr
    rw [issue_of_step hs hr]
    exact ⟨fun h0 => by rw [replyValue_ok h0],
      fun h2 => by rw [replyValue_error (by rw [h2]; decide), h2, hostErrorOf_mask],
      fun h0 h2 => by rw [replyValue_error h0, hostErrorOf_refused h2]⟩
  · intro lines s t vs h
    obtain ⟨⟨rs, hrs, hvs, hok⟩, hfit, hlen⟩ := runLines_ok_answers h
    exact ⟨rs, hrs, hvs, hfit, hlen, hok⟩
  · intro c text m s t e h
    have htraced := assembleSymbol_traced c text m s
    rw [h] at htraced
    exact traced_responses htraced rfl
  · intro c text m s t g h
    have htraced := assembleSymbol_traced c text m s
    rw [h] at htraced
    obtain ⟨vs, rs, hrs, -, hok⟩ := traced_ok htraced rfl
    obtain ⟨u, hu⟩ := assembleSymbol_ok_readOut h
    obtain ⟨hgrid, hg⟩ := runLines_gridrd_ok hu
    exact ⟨⟨rs, hrs, hok⟩, by rw [hg, hgrid]⟩

end Sys2Proof.Machine
end

section
/-! PROOFS of the exceptions (R283 to R285) and of reset (R320): who sets `FAULTED` and what leaves it, what a refused
word changes, and the state after reset is released. -/

namespace Sys2Proof.Machine

variable {i : Instr} {s t : State}

/-! ### Who sets `FAULTED` (R28, R284) -/

theorem faulted_of_lastErr {c : Byte} (h : t.status = lastErrWrite s.status c) : t.faulted = s.faulted :=
  (congrArg (·.getLsbD 0) h).trans (lastErrWrite_bit s.status c 0 (by decide))

theorem refusedWith_faulted (s : State) (c : Byte) : (refusedWith s c).faulted = s.faulted :=
  faulted_of_lastErr (c := c) rfl

/-- No success writes `FAULTED`, that of CLRERR neither. -/
theorem success_keeps_faulted (h : Success i s t) : t.faulted = s.faulted := by
  have hs := success_status h
  by_cases hc : i = .clrerr
  · subst hc
    exact faulted_of_lastErr hs
  · exact (congrArg (·.getLsbD 0) hs).trans (successStatus_errorRecord hc s.status).2

/-- Settles O17: of the ends of a command on a running block only the fatal fault sets `FAULTED`. -/
theorem faultedComesOnlyFromDivisionByZero : Obligations.FaultedComesOnlyFromDivisionByZero := by
  intro i s t hrun h hf
  obtain ⟨hs, -⟩ | ⟨-, ⟨c, -, -, -, -, -, rfl⟩ | hfatal | hi⟩ := exec_next i h
  · simp [hrun] at hs
  · simp [refusedWith_faulted, hrun] at hf
  · exact hfatal
  · simp [success_keeps_faulted hi, hrun] at hf

/-! ### The FAULTED state (R285) -/

/-- In the FAULTED state a word is the `Halted` refusal, whether it decodes or not. -/
theorem runWord_faulted (hf : s.faulted = true) (w : Word) : runWord w s = .next (haltedAfter s) := by
  cases hd : decode w with
  | ok i => exact (runWord_of_decode_ok hd s).trans (exec_faulted hf i)
  | error e => exact (runWord_of_decode_error hd s).trans (command_faulted hf _)

/-- A step of a FAULTED block keeps `STATUS`, or it releases an asserted reset. -/
theorem step_faulted (hf : s.faulted = true) (h : step s = .next t) :
    t.status = s.status ∨ s.inReset = true ∧ ∃ rest, s.inputs = .resetReleased :: rest := by
  obtain ⟨-, rfl⟩ | ⟨x, rest, hin, hx⟩ := step_next h
  · exact .inl rfl
  have hf' : (s.withInputs rest).faulted = true := hf
  obtain rfl | ⟨-, rfl⟩ | ⟨rfl, hr, -⟩ | ⟨w, i, -, -, hx⟩ | ⟨w, e, -, -, hx⟩ := hx
  · exact .inl rfl
  · exact .inl rfl
  · exact .inr ⟨hr, rest, hin⟩
  · exact .inl (exec_faulted_status hf' hx : t.status = (s.withInputs rest).status)
  · obtain ⟨-, rfl⟩ | ⟨hrun, -⟩ := illegalCommand_next hx
    · exact .inl rfl
    · simp [hf'] at hrun

/-- Settles O12: the FAULTED check comes first in every command and for every word, and of all steps only the release of
reset writes `STATUS`. -/
theorem faultedRefusesEveryWord : Obligations.FaultedRefusesEveryWord := by
  refine ⟨fun i s hf => exec_faulted hf i, fun s w rest hr hf hi => ?_, fun s t hf h ht => ?_⟩
  · have hf' : (s.withInputs rest).faulted = true := hf
    calc step s = accept (.command w) (s.withInputs rest) := step_of_input hi
      _ = runWord w (s.withInputs rest) := accept_command_running w hr
      _ = .next (haltedAfter (s.withInputs rest)) := runWord_faulted hf' w
  · obtain hst | hreset := step_faulted hf h
    · simp [faulted_of_status hst, hf] at ht
    · exact hreset

/-! ### A refused word (R283) -/

/-- What a word appends as `code << 24` carries the status `code`. -/
theorem status_of_appended_code {l : List Word} {code : Byte} {r : Word}
    (h : l ++ [code.setWidth 32 <<< 24] = l ++ [r]) : r.extractLsb' 24 8 = code := by
  obtain rfl : code.setWidth 32 <<< 24 = r := by simpa using h
  exact code_status code

/-- Settles O15: the status tells the ends of a command apart, `Halted`, the fatal fault and success have one each, and
what is left is a refusal with the status as its code. -/
theorem refusalChangesOnlyLastErr : Obligations.RefusalChangesOnlyLastErr := by
  intro s t w r rest hr hi h happ h00 h01 h0F
  obtain ⟨-, rfl⟩ | ⟨-, ⟨c, -, -, -, -, -, rfl⟩ | rfl | ⟨i, -, hs⟩⟩ := step_command_next hr hi h
  · exact absurd (status_of_appended_code (code := statusByte .halted) happ) h0F
  · rw [status_of_appended_code happ]
    rfl
  · exact absurd (status_of_appended_code (code := statusByte .divideByZero) happ) h01
  · obtain ⟨v, hv⟩ := success_responses hs
    exact absurd (happ.symm.trans hv) (append_ne_append_value h00)

/-! ### Releasing reset (R40, R320) -/

/-- Settles O10: the step is `State.afterReset`, whose fields are those of `State.reset` but for the ports and the
epoch; with nothing listed, every cell reads as in an empty map and every byte of `CW` as the free value. -/
theorem resetReleaseGivesTheResetState : Obligations.ResetReleaseGivesTheResetState := by
  intro s rest hr hi
  have hstep : step s = .next (s.withInputs rest).afterReset :=
    (step_of_input hi).trans (accept_resetReleased_inReset hr)
  exact ⟨_, hstep, rfl, rfl, rfl, rfl, rfl, rfl, rfl, rfl, rfl, rfl, rfl, rfl, rsvBit_nil, gridCell_nil, fun _ => rfl,
    rfl, rfl, rfl⟩

end Sys2Proof.Machine
end
